-- ==== Sys2Proof/Word.lean ====
section
/-! DEFINITION. The widths of the spec's values (00_scope.md R7, R10 to R12): bytes, halfword and doubleword lanes,
instruction words, the 128-bit halves, the 256-bit registers, the 16-bit program counter, and register numbers. -/

namespace Sys2Proof

/-- A byte lane, and one byte of DMEM (R12, R52). -/
abbrev Byte := BitVec 8

/-- A 16-bit lane (R12). -/
abbrev Half := BitVec 16

/-- An instruction word, an IMEM word and a control register (R70, R51, R35). -/
abbrev Word := BitVec 32

/-- A 64-bit lane (R12). -/
abbrev Quad := BitVec 64

/-- A 128-bit half of a register, and a PRNG state value (R7, R12). -/
abbrev V128 := BitVec 128

/-- The value of a vector register, 256 bits (R7, R20). -/
abbrev V256 := BitVec 256

/-- The program counter, an IMEM word index (R27). -/
abbrev Pc := BitVec 16

/-- A register number, 0 to 15 (R20, R73). -/
abbrev Reg := Fin 16

end Sys2Proof
end

