-- ==== Sys2Proof/Syntax.lean ====
section
/-! DEFINITION. The instructions: one constructor per row of spec/opcode_table.json (30_encoding.md R77), with the
operand fields of its format (R71, R72). -/

namespace Sys2Proof

/-- An instruction of R77. `d`, `s1` and `s2` are the register fields, `imm8` and `imm16` the immediate fields. -/
inductive Instr where
  | nop
  | halt
  | jmp (imm16 : BitVec 16)
  | bz (d : Reg) (imm16 : BitVec 16)
  | bnz (d : Reg) (imm16 : BitVec 16)
  | vld (d : Reg) (imm16 : BitVec 16)
  | vst (d : Reg) (imm16 : BitVec 16)
  | vadd8 (d s1 s2 : Reg)
  | vadd16 (d s1 s2 : Reg)
  | vadd64 (d s1 s2 : Reg)
  | vsub8 (d s1 s2 : Reg)
  | vsub16 (d s1 s2 : Reg)
  | vsub64 (d s1 s2 : Reg)
  | vxor (d s1 s2 : Reg)
  | vor (d s1 s2 : Reg)
  | vand (d s1 s2 : Reg)
  | vcmpgt8 (d s1 s2 : Reg)
  | vcmpgt16 (d s1 s2 : Reg)
  | vcmpgt64 (d s1 s2 : Reg)
  | vhadd16 (d s1 s2 : Reg)
  | vsign16 (d s1 s2 : Reg)
  | vshufb (d s1 s2 : Reg)
  | vpermq (d s1 : Reg) (imm8 : BitVec 8)
  | vsll16 (d s1 : Reg) (imm8 : BitVec 8)
  | vsrl16 (d s1 : Reg) (imm8 : BitVec 8)
  | vabs16 (d s1 : Reg)
  | vbcst128 (d s1 : Reg)
  | vprng (d s1 : Reg)
  deriving DecidableEq, Repr

end Sys2Proof
end

