-- ==== Sys2Proof/WellFormed.lean ====
section
/-! DEFINITION. Which instruction terms some legal word encodes. Register numbers and field widths are bounded by their
types; the one check left is the shift range (30_encoding.md R80, R81; 43_shift_abs_broadcast.md R150). -/

namespace Sys2Proof

/-- A shift amount of 0 to 16 (R150). -/
def shiftInRange (imm8 : BitVec 8) : Bool := imm8.toNat ≤ 16

/-- The instruction is the decoding of some word: a word whose shift amount exceeds 16 decodes to no instruction but
raises IMM_RANGE (R80, R81). -/
def Instr.wellFormed : Instr → Bool
  | .vsll16 _ _ imm8 => shiftInRange imm8
  | .vsrl16 _ _ imm8 => shiftInRange imm8
  | .nop | .halt | .jmp _ | .bz _ _ | .bnz _ _ | .vld _ _ | .vst _ _ => true
  | .vadd8 _ _ _ | .vadd16 _ _ _ | .vadd64 _ _ _ | .vsub8 _ _ _ | .vsub16 _ _ _ | .vsub64 _ _ _ => true
  | .vxor _ _ _ | .vor _ _ _ | .vand _ _ _ | .vcmpgt8 _ _ _ | .vcmpgt16 _ _ _ | .vcmpgt64 _ _ _ => true
  | .vhadd16 _ _ _ | .vsign16 _ _ _ | .vshufb _ _ _ | .vpermq _ _ _ => true
  | .vabs16 _ _ | .vbcst128 _ _ | .vprng _ _ => true

end Sys2Proof
end

