-- ==== Sys2Proof/Decode.lean ====
section
/-! DEFINITION. The decoder, total on every 32-bit word and rejecting by name (30_encoding.md R70 to R82), then the encoder.
The opcode map is the list `Op.all` with `Op.code`; the format of each opcode says which fields it has and which bits
must be zero. -/

namespace Sys2Proof

/-- The opcodes of R77, by mnemonic. -/
inductive Op where
  | nop | halt | jmp | bz | bnz | vld | vst
  | vadd8 | vadd16 | vadd64 | vsub8 | vsub16 | vsub64 | vxor | vor | vand
  | vcmpgt8 | vcmpgt16 | vcmpgt64 | vhadd16 | vsign16 | vshufb | vpermq
  | vsll16 | vsrl16 | vabs16 | vbcst128 | vprng
  deriving DecidableEq, Repr

/-- The seven formats of R72. -/
inductive Format where
  | n | j | b | m | r3 | r2 | ri
  deriving DecidableEq, Repr

/-- Why a word decodes to no instruction (R78, R79, R80). Each is reported by the hardware as the fault of its name. -/
inductive DecodeFault where
  | illegalOpcode
  | reservedField
  | immRange
  deriving DecidableEq, Repr

/-- The operand fields of a word (R71). -/
structure Fields where
  d : Reg
  s1 : Reg
  s2 : Reg
  imm8 : BitVec 8
  imm16 : BitVec 16
  deriving DecidableEq, Repr

/-- Every row of R77. -/
def Op.all : List Op :=
  [.nop, .halt, .jmp, .bz, .bnz, .vld, .vst,
   .vadd8, .vadd16, .vadd64, .vsub8, .vsub16, .vsub64, .vxor, .vor, .vand,
   .vcmpgt8, .vcmpgt16, .vcmpgt64, .vhadd16, .vsign16, .vshufb, .vpermq,
   .vsll16, .vsrl16, .vabs16, .vbcst128, .vprng]

/-- The opcode number of R77. -/
def Op.code : Op → BitVec 6
  | .nop => 0x01#6
  | .halt => 0x02#6
  | .jmp => 0x03#6
  | .bz => 0x04#6
  | .bnz => 0x05#6
  | .vld => 0x06#6
  | .vst => 0x07#6
  | .vadd8 => 0x10#6
  | .vadd16 => 0x11#6
  | .vadd64 => 0x12#6
  | .vsub8 => 0x13#6
  | .vsub16 => 0x14#6
  | .vsub64 => 0x15#6
  | .vxor => 0x16#6
  | .vor => 0x17#6
  | .vand => 0x18#6
  | .vcmpgt8 => 0x19#6
  | .vcmpgt16 => 0x1A#6
  | .vcmpgt64 => 0x1B#6
  | .vhadd16 => 0x1C#6
  | .vsign16 => 0x1D#6
  | .vshufb => 0x1E#6
  | .vpermq => 0x1F#6
  | .vsll16 => 0x20#6
  | .vsrl16 => 0x21#6
  | .vabs16 => 0x22#6
  | .vbcst128 => 0x23#6
  | .vprng => 0x24#6

/-- The format of each opcode (R77). -/
def Op.format : Op → Format
  | .nop | .halt => .n
  | .jmp => .j
  | .bz | .bnz => .b
  | .vld | .vst => .m
  | .vadd8 | .vadd16 | .vadd64 | .vsub8 | .vsub16 | .vsub64 | .vxor | .vor | .vand => .r3
  | .vcmpgt8 | .vcmpgt16 | .vcmpgt64 | .vhadd16 | .vsign16 | .vshufb => .r3
  | .vpermq | .vsll16 | .vsrl16 => .ri
  | .vabs16 | .vbcst128 | .vprng => .r2

/-- The opcode map read from the opcode field; `none` is a reserved opcode (R77, R78). -/
def Op.ofCode (c : BitVec 6) : Option Op := Op.all.find? fun op => op.code == c

/-- Bits [31:26] (R71). -/
def opField (w : Word) : BitVec 6 := w.extractLsb' 26 6

/-- Bits [25:22], a register number (R71, R73). -/
def dField (w : Word) : Reg := (w.extractLsb' 22 4).toFin

/-- Bits [21:18], a register number (R71, R73). -/
def s1Field (w : Word) : Reg := (w.extractLsb' 18 4).toFin

/-- Bits [17:14], a register number (R71, R73). -/
def s2Field (w : Word) : Reg := (w.extractLsb' 14 4).toFin

/-- Bits [7:0] (R71, R74). -/
def imm8Field (w : Word) : BitVec 8 := w.extractLsb' 0 8

/-- Bits [15:0] (R71). -/
def imm16Field (w : Word) : BitVec 16 := w.extractLsb' 0 16

/-- All the operand fields of a word. -/
def fieldsOf (w : Word) : Fields :=
  { d := dField w, s1 := s1Field w, s2 := s2Field w, imm8 := imm8Field w, imm16 := imm16Field w }

/-- The must-be-zero bits of a format are all 0 (R72, R79). -/
def reservedClear (f : Format) (w : Word) : Bool :=
  match f with
  | .n => w.extractLsb' 0 26 == 0
  | .j => w.extractLsb' 16 10 == 0
  | .b => w.extractLsb' 16 6 == 0
  | .m => w.extractLsb' 16 6 == 0
  | .r3 => w.extractLsb' 0 14 == 0
  | .r2 => w.extractLsb' 0 18 == 0
  | .ri => w.extractLsb' 8 10 == 0

/-- The instruction that an opcode and its fields name (R72, R77). -/
def Op.build (op : Op) (f : Fields) : Instr :=
  match op with
  | .nop => .nop
  | .halt => .halt
  | .jmp => .jmp f.imm16
  | .bz => .bz f.d f.imm16
  | .bnz => .bnz f.d f.imm16
  | .vld => .vld f.d f.imm16
  | .vst => .vst f.d f.imm16
  | .vadd8 => .vadd8 f.d f.s1 f.s2
  | .vadd16 => .vadd16 f.d f.s1 f.s2
  | .vadd64 => .vadd64 f.d f.s1 f.s2
  | .vsub8 => .vsub8 f.d f.s1 f.s2
  | .vsub16 => .vsub16 f.d f.s1 f.s2
  | .vsub64 => .vsub64 f.d f.s1 f.s2
  | .vxor => .vxor f.d f.s1 f.s2
  | .vor => .vor f.d f.s1 f.s2
  | .vand => .vand f.d f.s1 f.s2
  | .vcmpgt8 => .vcmpgt8 f.d f.s1 f.s2
  | .vcmpgt16 => .vcmpgt16 f.d f.s1 f.s2
  | .vcmpgt64 => .vcmpgt64 f.d f.s1 f.s2
  | .vhadd16 => .vhadd16 f.d f.s1 f.s2
  | .vsign16 => .vsign16 f.d f.s1 f.s2
  | .vshufb => .vshufb f.d f.s1 f.s2
  | .vpermq => .vpermq f.d f.s1 f.imm8
  | .vsll16 => .vsll16 f.d f.s1 f.imm8
  | .vsrl16 => .vsrl16 f.d f.s1 f.imm8
  | .vabs16 => .vabs16 f.d f.s1
  | .vbcst128 => .vbcst128 f.d f.s1
  | .vprng => .vprng f.d f.s1

/-- The word-only checks of R82 in its order: the opcode, the must-be-zero bits, the shift range. -/
def decode (w : Word) : Except DecodeFault Instr :=
  match Op.ofCode (opField w) with
  | none => .error .illegalOpcode
  | some op =>
    if reservedClear op.format w then
      if (op.build (fieldsOf w)).wellFormed then .ok (op.build (fieldsOf w)) else .error .immRange
    else .error .reservedField

/-- The opcode of an instruction. -/
def Instr.op : Instr → Op
  | .nop => .nop
  | .halt => .halt
  | .jmp _ => .jmp
  | .bz _ _ => .bz
  | .bnz _ _ => .bnz
  | .vld _ _ => .vld
  | .vst _ _ => .vst
  | .vadd8 _ _ _ => .vadd8
  | .vadd16 _ _ _ => .vadd16
  | .vadd64 _ _ _ => .vadd64
  | .vsub8 _ _ _ => .vsub8
  | .vsub16 _ _ _ => .vsub16
  | .vsub64 _ _ _ => .vsub64
  | .vxor _ _ _ => .vxor
  | .vor _ _ _ => .vor
  | .vand _ _ _ => .vand
  | .vcmpgt8 _ _ _ => .vcmpgt8
  | .vcmpgt16 _ _ _ => .vcmpgt16
  | .vcmpgt64 _ _ _ => .vcmpgt64
  | .vhadd16 _ _ _ => .vhadd16
  | .vsign16 _ _ _ => .vsign16
  | .vshufb _ _ _ => .vshufb
  | .vpermq _ _ _ => .vpermq
  | .vsll16 _ _ _ => .vsll16
  | .vsrl16 _ _ _ => .vsrl16
  | .vabs16 _ _ => .vabs16
  | .vbcst128 _ _ => .vbcst128
  | .vprng _ _ => .vprng

/-- The 4 bits of a register field (R73). -/
def regBits (r : Reg) : BitVec 4 := BitVec.ofFin r

/-- Format N of R72. -/
def packN (op : BitVec 6) : Word := (op ++ 0#26 : BitVec (6 + 26))

/-- Format J of R72. -/
def packJ (op : BitVec 6) (imm16 : BitVec 16) : Word := (op ++ 0#10 ++ imm16 : BitVec (6 + 10 + 16))

/-- Formats B and M of R72, which have one layout. -/
def packB (op : BitVec 6) (d : Reg) (imm16 : BitVec 16) : Word :=
  (op ++ regBits d ++ 0#6 ++ imm16 : BitVec (6 + 4 + 6 + 16))

/-- Format R3 of R72. -/
def packR3 (op : BitVec 6) (d s1 s2 : Reg) : Word :=
  (op ++ regBits d ++ regBits s1 ++ regBits s2 ++ 0#14 : BitVec (6 + 4 + 4 + 4 + 14))

/-- Format R2 of R72. -/
def packR2 (op : BitVec 6) (d s1 : Reg) : Word :=
  (op ++ regBits d ++ regBits s1 ++ 0#18 : BitVec (6 + 4 + 4 + 18))

/-- Format RI of R72. -/
def packRI (op : BitVec 6) (d s1 : Reg) (imm8 : BitVec 8) : Word :=
  (op ++ regBits d ++ regBits s1 ++ 0#10 ++ imm8 : BitVec (6 + 4 + 4 + 10 + 8))

/-- The word of an instruction, from the layouts of R72 and the opcodes of R77. -/
def encode (i : Instr) : Word :=
  match i with
  | .nop => packN i.op.code
  | .halt => packN i.op.code
  | .jmp imm16 => packJ i.op.code imm16
  | .bz d imm16 => packB i.op.code d imm16
  | .bnz d imm16 => packB i.op.code d imm16
  | .vld d imm16 => packB i.op.code d imm16
  | .vst d imm16 => packB i.op.code d imm16
  | .vadd8 d s1 s2 => packR3 i.op.code d s1 s2
  | .vadd16 d s1 s2 => packR3 i.op.code d s1 s2
  | .vadd64 d s1 s2 => packR3 i.op.code d s1 s2
  | .vsub8 d s1 s2 => packR3 i.op.code d s1 s2
  | .vsub16 d s1 s2 => packR3 i.op.code d s1 s2
  | .vsub64 d s1 s2 => packR3 i.op.code d s1 s2
  | .vxor d s1 s2 => packR3 i.op.code d s1 s2
  | .vor d s1 s2 => packR3 i.op.code d s1 s2
  | .vand d s1 s2 => packR3 i.op.code d s1 s2
  | .vcmpgt8 d s1 s2 => packR3 i.op.code d s1 s2
  | .vcmpgt16 d s1 s2 => packR3 i.op.code d s1 s2
  | .vcmpgt64 d s1 s2 => packR3 i.op.code d s1 s2
  | .vhadd16 d s1 s2 => packR3 i.op.code d s1 s2
  | .vsign16 d s1 s2 => packR3 i.op.code d s1 s2
  | .vshufb d s1 s2 => packR3 i.op.code d s1 s2
  | .vpermq d s1 imm8 => packRI i.op.code d s1 imm8
  | .vsll16 d s1 imm8 => packRI i.op.code d s1 imm8
  | .vsrl16 d s1 imm8 => packRI i.op.code d s1 imm8
  | .vabs16 d s1 => packR2 i.op.code d s1
  | .vbcst128 d s1 => packR2 i.op.code d s1
  | .vprng d s1 => packR2 i.op.code d s1

/-- `match` of an opcode's row in spec/opcode_table.json (R79): the opcode, every other bit 0. -/
def Op.matchWord (op : Op) : Word := (op.code ++ 0#26 : BitVec (6 + 26))

/-- `mask` of a format's rows in spec/opcode_table.json (R79): the opcode bits and the must-be-zero bits. -/
def Format.mask : Format → Word
  | .n => 0xFFFFFFFF#32
  | .j => 0xFFFF0000#32
  | .b => 0xFC3F0000#32
  | .m => 0xFC3F0000#32
  | .r3 => 0xFC003FFF#32
  | .r2 => 0xFC03FFFF#32
  | .ri => 0xFC03FF00#32

/-- Four bytes of a program image as one word: byte j is bits [8j+7:8j] (20_memory.md R53). -/
def wordOfBytes (b0 b1 b2 b3 : Byte) : Word := (b3 ++ b2 ++ b1 ++ b0 : BitVec (8 + 8 + 8 + 8))

/-- A program image as IMEM words, four bytes a word (R53). The spec gives no meaning to an image whose length is no
multiple of 4: it answers `none` (notes/assumptions/18). -/
def packImage : List Byte → Option (List Word)
  | [] => some []
  | b0 :: b1 :: b2 :: b3 :: rest => (packImage rest).map (wordOfBytes b0 b1 b2 b3 :: ·)
  | _ => none

/-- The first instruction of a byte stream and the rest of the stream; `none` where fewer than four bytes are left. -/
def decodeBytes : List Byte → Option (Except DecodeFault Instr × List Byte)
  | b0 :: b1 :: b2 :: b3 :: rest => some (decode (wordOfBytes b0 b1 b2 b3), rest)
  | _ => none

/-- The word that `nbits` table bits `w` stand for: every bit at or above `nbits` is 0 (notes/assumptions/14). -/
def tableWord (nbits w : Nat) : Word := BitVec.ofNat 32 (w % 2 ^ nbits)

/-- The instruction the decoder reads from a word of the opcode table. -/
def decodeTableWord (nbits w : Nat) : Option Instr := (decode (tableWord nbits w)).toOption

end Sys2Proof
end

