-- ==== Sys2Proof/Config.lean ====
section
/-! DEFINITION. The build parameters (00_scope.md R8, R9), the ISA string (R2), and the free values: what the spec
leaves unspecified and a model takes as a free draw (20_memory.md R68, 60_exceptions.md R217). -/

namespace Sys2Proof.Config

/-- PRNG_PATH, the generator a build has (R9). -/
inductive PrngPath where
  | mcg
  | aes
  deriving DecidableEq, Repr

/-- The build parameters of R8 (NVREG is fixed at 16 and is the bound of `Reg`). They are not state: State carries one
of these so that every statement about a state is about every build (notes/assumptions/1). -/
structure Build where
  imemWords : Nat
  dmemBytes : Nat
  prngPath : PrngPath
  prngMult : BitVec 64
  deriving DecidableEq, Repr

/-- The reference values of R8. -/
def Build.reference : Build :=
  { imemWords := 1024, dmemBytes := 4096, prngPath := .mcg, prngMult := 0xDA942042E4DD58B5#64 }

/-- The legal values of R8. -/
def Build.legal (b : Build) : Bool :=
  1 ≤ b.imemWords && b.imemWords ≤ 65536 &&
  (b.dmemBytes % 32 == 0 && 32 ≤ b.dmemBytes && b.dmemBytes ≤ 2097152) &&
  b.prngMult.getLsbD 0

/-- The ISA string `IVA256-<path>` of R2. -/
def Build.isaString (b : Build) : String :=
  match b.prngPath with
  | .mcg => "IVA256-MCG"
  | .aes => "IVA256-AES"

/-- FREE VALUE (notes/assumptions/4): the unspecified byte that DMEM address `a` holds since reset number `epoch`
(R62, R68). It has no body, so nothing can be proved of its value. -/
opaque dmemAtReset (epoch a : Nat) : Byte

/-- FREE VALUE (notes/assumptions/5): the unknown word at IMEM index `i` since reset number `epoch` (R68). -/
opaque imemAtReset (epoch i : Nat) : Word

/-- FREE VALUE (notes/assumptions/6): what HOST_READ_V returns for register `i` while VALID[i] = 0, since reset number
`epoch` (R46, R217). -/
opaque vAtReset (epoch i : Nat) : V256

end Sys2Proof.Config
end

