-- ==== Sys2Proof/Machine/State.lean ====
section
/-! DEFINITION. The machine's state (10_state.md), the host's transactions (60_exceptions.md R216), the reasons a step
stops, and the state after reset (R46). -/

namespace Sys2Proof.Machine

/-- A memory: the cells written since reset, addresses strictly rising. An unlisted address has no listed value. What it
reads as is a free value (20_memory.md R68; notes/assumptions/4 and 5). -/
abbrev Memory (w : Nat) := List (Nat × BitVec w)

/-- STATE, a 2-bit register with four values (R30). -/
inductive RunState where
  | idle
  | running
  | halted
  | faulted
  deriving DecidableEq, Repr

/-- CAUSE: NONE and the eight cause codes of R201. Codes 9 to 15 are never written. -/
inductive Cause where
  | none
  | illegalOpcode
  | reservedField
  | immRange
  | operandAlias
  | uninitRead
  | fetchRange
  | dmemRange
  | hostAbort
  deriving DecidableEq, Repr

/-- The host's atomic transactions (R216). Control-register values are 32 bits wide by their type, and an index, address
or register number may be any number (R217 says what one out of range does). -/
inductive HostTxn where
  | reset
  | readCr (offset : Nat)
  | writeCr (offset : Nat) (value : Word)
  | writeImem (i : Nat) (word : Word)
  | readImem (i : Nat)
  | writeDmem (a : Nat) (byte : Byte)
  | readDmem (a : Nat)
  | writeV (i : Nat) (value : V256)
  | readV (i : Nat)
  deriving DecidableEq, Repr

/-- What a read transaction returned to the host (R216). -/
inductive Reply where
  | cr (value : Word)
  | imem (word : Word)
  | dmem (byte : Byte)
  | v (value : V256)
  deriving DecidableEq, Repr

/-- Whose step is next: a run is an interleaving of core steps and host transactions (R44). -/
inductive Turn where
  | core
  | host (t : HostTxn)
  deriving DecidableEq, Repr

/-- The machine. The last four fields are the model's own: the turns agreed for the next steps (the core moves when the
list is empty), the replies to the host's reads (newest first), the number of resets so far, which numbers the free
values, and the build parameters, which no step changes. -/
structure State where
  /-- V[0] to V[15] (R20). -/
  v : Vector V256 16
  /-- VALID, bit i for V[i] (R23). -/
  valid : BitVec 16
  /-- PC, an IMEM word index (R27). -/
  pc : Pc
  /-- STATE (R30). -/
  state : RunState
  /-- CAUSE (R31). -/
  cause : Cause
  /-- FAULT_PC (R32). -/
  faultPc : Pc
  /-- FAULT_INSN (R33). -/
  faultInsn : Word
  /-- ENTRY_PC (R34). -/
  entryPc : Pc
  /-- IMEM, the words the host has written since reset, by word index (R51). -/
  imem : Memory 32
  /-- DMEM, the bytes written since reset, by byte address (R52). -/
  dmem : List Host.Cell
  /-- The model's own: whose turn the next steps are (R44; notes/assumptions/8). -/
  turns : List Turn
  /-- The model's own: what the host's reads returned, newest first (notes/assumptions/9). -/
  replies : List Reply
  /-- The model's own: resets so far, the index of the free values (notes/assumptions/7). -/
  epoch : Nat
  /-- The build parameters (00_scope.md R8; notes/assumptions/1). -/
  build : Config.Build
  deriving DecidableEq, Repr

/-- Why the machine takes no next step. All three are SAFE: the core has no step there, and no turn of the host is left
(R227). A fault of an instruction is none of these: it is a next state, in which STATE is FAULTED (R206). -/
inductive Fault where
  /-- Raised by a core turn at the end of the turns while STATE is IDLE: the core waits for a START (R241). Safe. -/
  | coreIdle
  /-- Raised by a core turn at the end of the turns while STATE is HALTED: the run ended normally (R191). Safe. -/
  | coreHalted
  /-- Raised by a core turn at the end of the turns while STATE is FAULTED: the run ended in a fault (R209). Safe. -/
  | coreFaulted (c : Cause)
  deriving DecidableEq, Repr

/-- What the model gives no meaning. -/
inductive Refusal where
  /-- Raised by exec for an instruction that has no meaning yet. Safe. -/
  | notModelled (mnemonic : String)
  /-- Raised by the host's control-register transactions at an offset that is no multiple of 4, an access to which the
  block gives no meaning (R42). Safe. -/
  | misalignedControlAccess (offset : Nat)
  deriving DecidableEq, Repr

/-- The outcome of an instruction or of a step. -/
abbrev Result := Host.Outcome State Fault Refusal

/-- The state after reset number `epoch` of a build (R46). V is unspecified there: the zero is the model's and no read
shows it (notes/assumptions/3). IMEM and DMEM list nothing (R68). -/
def State.resetOf (b : Config.Build) (epoch : Nat) : State :=
  { v := Vector.replicate 16 0#256
    valid := 0#16
    pc := 0#16
    state := .idle
    cause := .none
    faultPc := 0#16
    faultInsn := 0#32
    entryPc := 0#16
    imem := []
    dmem := []
    turns := []
    replies := []
    epoch := epoch
    build := b }

/-- The machine right after power-on, for the reference build (R8, R46; notes/assumptions/2). -/
def State.reset : State := State.resetOf Config.Build.reference 0

end Sys2Proof.Machine
end

