-- ==== Sys2Proof/Machine/Ops.lean ====
section
/-! DEFINITION. The named operations over memory, registers, the program counter and the run: memory cells in one
canonical form, the register file with its VALID bits, taking a fault, and the host's START, CLEAR and ABORT, which are
the only ways on from one. -/

namespace Sys2Proof.Machine

/-! ## Memory in canonical form -/

/-- The listed value of a cell. -/
def Memory.find {w : Nat} (m : Memory w) (a : Nat) : Option (BitVec w) :=
  match m with
  | [] => none
  | (k, x) :: rest => if k = a then some x else Memory.find rest a

/-- Writes a cell, keeping the addresses strictly rising. -/
def Memory.store {w : Nat} (m : Memory w) (a : Nat) (x : BitVec w) : Memory w :=
  match m with
  | [] => [(a, x)]
  | (k, y) :: rest =>
    if a < k then (a, x) :: (k, y) :: rest
    else if a = k then (a, x) :: rest
    else (k, y) :: Memory.store rest a x

/-- The addresses rise strictly and are at least `lo`. -/
def Memory.risesFrom {w : Nat} (lo : Nat) (m : Memory w) : Bool :=
  match m with
  | [] => true
  | (k, _) :: rest => lo ≤ k && Memory.risesFrom (k + 1) rest

/-- The canonical form. An unlisted address has no listed value, so no entry can repeat one. -/
def Memory.wf {w : Nat} (m : Memory w) : Bool := Memory.risesFrom 0 m

/-- Every listed address lies below `size`. -/
def Memory.within {w : Nat} (size : Nat) (m : Memory w) : Bool := m.all fun c => c.1 < size

/-- One byte of DMEM: the byte last written, or the unspecified byte it holds since reset (R62, R68). -/
def State.dmemByte (s : State) (a : Nat) : Byte :=
  (Memory.find s.dmem a).getD (Config.dmemAtReset s.epoch a)

/-- One word of IMEM: the word last written, or the unknown word it holds since reset (R51, R68). -/
def State.imemWord (s : State) (i : Nat) : Word :=
  (Memory.find s.imem i).getD (Config.imemAtReset s.epoch i)

/-- Writes one byte of DMEM (R52). -/
def State.storeByte (s : State) (a : Nat) (b : Byte) : State :=
  { s with dmem := Memory.store (w := 8) s.dmem a b }

/-- Writes one word of IMEM (R51). -/
def State.storeWord (s : State) (i : Nat) (x : Word) : State :=
  { s with imem := Memory.store s.imem i x }

/-- `MemWrite(addr, n, v)` of R52: byte j of the value goes to address `addr + j`. -/
def State.memWrite (s : State) (addr : Nat) (n : Nat) (value : V256) : State :=
  match n with
  | 0 => s
  | j + 1 => (s.memWrite addr j value).storeByte (addr + j) (value.extractLsb' (8 * j) 8)

/-! ## Registers and the program counter -/

/-- V[r], without the check of `ReadV` (R12, R20). -/
def State.reg (s : State) (r : Reg) : V256 := s.v.get r

/-- VALID[r] (R23). -/
def State.isValid (s : State) (r : Reg) : Bool := s.valid.getLsbD r.val

/-- `V[r] <- x`, which sets VALID[r] (R12, R24). -/
def State.writeV (s : State) (r : Reg) (x : V256) : State :=
  { s with v := s.v.set r.val x r.isLt, valid := s.valid ||| (1#16 <<< r.val) }

/-- `pc <- target` (R13). -/
def State.setPc (s : State) (target : Pc) : State := { s with pc := target }

/-- `pc <- PC + 1` mod 2^16 (R27). -/
def State.advance (s : State) : State := s.setPc (s.pc + 1#16)

/-- DONE, the output level to the host (R45, R212). -/
def State.done (s : State) : Bool := s.state == .halted || s.state == .faulted

/-! ## Taking a fault, and the host's ways on from it -/

/-- The code in CAUSE[3:0] (R201). -/
def Cause.code : Cause → BitVec 4
  | .none => 0#4
  | .illegalOpcode => 1#4
  | .reservedField => 2#4
  | .immRange => 3#4
  | .operandAlias => 4#4
  | .uninitRead => 5#4
  | .fetchRange => 6#4
  | .dmemRange => 7#4
  | .hostAbort => 8#4

/-- STATUS[1:0] (R30, R39). -/
def RunState.code : RunState → BitVec 2
  | .idle => 0#2
  | .running => 1#2
  | .halted => 2#2
  | .faulted => 3#2

/-- The cause of a word that decodes to no instruction (R78, R79, R80). -/
def causeOf : DecodeFault → Cause
  | .illegalOpcode => .illegalOpcode
  | .reservedField => .reservedField
  | .immRange => .immRange

/-- Taking a fault with cause `c` for word `w` at the current PC: the whole of R206. -/
def State.raise (s : State) (c : Cause) (w : Word) : State :=
  { s with state := .faulted, cause := c, faultPc := s.pc, faultInsn := w }

/-- A fault of an instruction: FAULT_INSN is the instruction's own word (R33, R206; notes/assumptions/13). -/
def State.raiseAt (s : State) (c : Cause) (i : Instr) : State := s.raise c (encode i)

/-- HALT ends the run: only STATE changes (R191). -/
def State.halt (s : State) : State := { s with state := .halted }

/-- CTRL.START (R218). There is no return from a fault: a START begins a new run (R210). -/
def State.start (s : State) : State :=
  if s.state = .running then s else { s with pc := s.entryPc, cause := .none, state := .running }

/-- CTRL.CLEAR (R219). -/
def State.clear (s : State) : State :=
  if s.state = .halted ∨ s.state = .faulted then { s with state := .idle, cause := .none } else s

/-- CTRL.ABORT (R220). -/
def State.abort (s : State) : State :=
  if s.state = .running then s.raise .hostAbort 0#32 else s

/-- HOST_RESET: every piece of state takes its reset value, whatever STATE is (R240). The build parameters do not change.
The turns and replies are the host's and stay; the free values are new ones (R242; notes/assumptions/15). -/
def State.hostReset (s : State) : State :=
  { State.resetOf s.build (s.epoch + 1) with turns := s.turns, replies := s.replies }

end Sys2Proof.Machine
end

