-- ==== Sys2Proof/Machine/Operands.lean ====
section
/-! DEFINITION. Operand forms: lane views (00_scope.md R12, 10_state.md R21), effective addresses and branch targets
(30_encoding.md R75, R76), vector reads of DMEM (20_memory.md R52), the source registers of each instruction (R89), and
the checks made before an instruction has any effect (R82). -/

namespace Sys2Proof.Machine

/-! ## Lane views -/

/-- Lane k of width w: bits [w·k + w − 1 : w·k] (R21). -/
def laneOf {W : Nat} (w : Nat) (x : BitVec W) (k : Nat) : BitVec w := x.extractLsb' (w * k) w

/-- The value whose lane k is `f k`, for the lanes 0 to n − 1 (R12). -/
def lanesOf (W w : Nat) (f : Nat → BitVec w) (n : Nat) : BitVec W :=
  match n with
  | 0 => 0
  | k + 1 => lanesOf W w f k ||| ((f k).setWidth W <<< (w * k))

/-- `b8(X, k)` (R12). -/
abbrev b8 (x : V256) (k : Nat) : Byte := laneOf 8 x k

/-- `h16(X, k)` (R12). -/
abbrev h16 (x : V256) (k : Nat) : Half := laneOf 16 x k

/-- `q64(X, k)` (R12). -/
abbrev q64 (x : V256) (k : Nat) : Quad := laneOf 64 x k

/-- `Lanes8(f)` (R12). -/
def lanes8 (f : Nat → Byte) : V256 := lanesOf 256 8 f 32

/-- `Lanes16(f)` (R12). -/
def lanes16 (f : Nat → Half) : V256 := lanesOf 256 16 f 16

/-- `Lanes64(f)` (R12). -/
def lanes64 (f : Nat → Quad) : V256 := lanesOf 256 64 f 4

/-- `lo128(X)` (R12). -/
def lo128 (x : V256) : V128 := x.extractLsb' 0 128

/-- `hi128(X)` (R12). -/
def hi128 (x : V256) : V128 := x.extractLsb' 128 128

/-- `hi ++ lo` as one register value (R10). -/
def joinHalves (hi lo : V128) : V256 := (hi ++ lo : BitVec (128 + 128))

/-! ## Addresses and targets -/

/-- `EA = unsigned(imm16) × 32` (R75). -/
def effectiveAddress (imm16 : BitVec 16) : Nat := imm16.toNat * 32

/-- `(PC + sext_16(imm16)) mod 2^16`, the offset a signed word count (R76). -/
def branchTarget (pc : Pc) (imm16 : BitVec 16) : Pc := BitVec.ofInt 16 (pc.toNat + imm16.toInt)

/-- The 32 bytes at `ea` lie inside DMEM (R60). -/
def State.inDmem (s : State) (ea : Nat) : Bool := ea + 32 ≤ s.build.dmemBytes

/-- `MemRead(addr, 32)`: byte j of the value is the byte at `addr + j` (R52). -/
def State.memRead (s : State) (addr : Nat) : V256 := lanes8 fun j => s.dmemByte (addr + j)

/-! ## The checks before an instruction's effect -/

/-- The source registers of each instruction (R89); a VXOR of a register with itself reads none (R26). -/
def sources : Instr → List Reg
  | .nop => []
  | .halt => []
  | .jmp _ => []
  | .bz d _ => [d]
  | .bnz d _ => [d]
  | .vld _ _ => []
  | .vst d _ => [d]
  | .vadd8 _ s1 s2 => [s1, s2]
  | .vadd16 _ s1 s2 => [s1, s2]
  | .vadd64 _ s1 s2 => [s1, s2]
  | .vsub8 _ s1 s2 => [s1, s2]
  | .vsub16 _ s1 s2 => [s1, s2]
  | .vsub64 _ s1 s2 => [s1, s2]
  | .vxor _ s1 s2 => if s1 = s2 then [] else [s1, s2]
  | .vor _ s1 s2 => [s1, s2]
  | .vand _ s1 s2 => [s1, s2]
  | .vcmpgt8 _ s1 s2 => [s1, s2]
  | .vcmpgt16 _ s1 s2 => [s1, s2]
  | .vcmpgt64 _ s1 s2 => [s1, s2]
  | .vhadd16 _ s1 s2 => [s1, s2]
  | .vsign16 _ s1 s2 => [s1, s2]
  | .vshufb _ s1 s2 => [s1, s2]
  | .vpermq _ s1 _ => [s1]
  | .vsll16 _ s1 _ => [s1]
  | .vsrl16 _ s1 _ => [s1]
  | .vabs16 _ s1 => [s1]
  | .vbcst128 _ s1 => [s1]
  | .vprng _ s1 => [s1]

/-- The destination registers of each instruction (R89). -/
def destinations : Instr → List Reg
  | .nop => []
  | .halt => []
  | .jmp _ => []
  | .bz _ _ => []
  | .bnz _ _ => []
  | .vld d _ => [d]
  | .vst _ _ => []
  | .vadd8 d _ _ => [d]
  | .vadd16 d _ _ => [d]
  | .vadd64 d _ _ => [d]
  | .vsub8 d _ _ => [d]
  | .vsub16 d _ _ => [d]
  | .vsub64 d _ _ => [d]
  | .vxor d _ _ => [d]
  | .vor d _ _ => [d]
  | .vand d _ _ => [d]
  | .vcmpgt8 d _ _ => [d]
  | .vcmpgt16 d _ _ => [d]
  | .vcmpgt64 d _ _ => [d]
  | .vhadd16 d _ _ => [d]
  | .vsign16 d _ _ => [d]
  | .vshufb d _ _ => [d]
  | .vpermq d _ _ => [d]
  | .vsll16 d _ _ => [d]
  | .vsrl16 d _ _ => [d]
  | .vabs16 d _ => [d]
  | .vbcst128 d _ => [d]
  | .vprng d s1 => [d, s1]

/-- The operands that must be distinct are the same register (R203). -/
def operandsAlias : Instr → Bool
  | .vor _ s1 s2 => s1 == s2
  | .vand _ s1 s2 => s1 == s2
  | .vsign16 _ s1 s2 => s1 == s2
  | .vshufb _ s1 s2 => s1 == s2
  | .vprng d s1 => d == s1
  | .nop | .halt | .jmp _ | .bz _ _ | .bnz _ _ | .vld _ _ | .vst _ _ => false
  | .vadd8 _ _ _ | .vadd16 _ _ _ | .vadd64 _ _ _ | .vsub8 _ _ _ | .vsub16 _ _ _ | .vsub64 _ _ _ => false
  | .vxor _ _ _ | .vcmpgt8 _ _ _ | .vcmpgt16 _ _ _ | .vcmpgt64 _ _ _ | .vhadd16 _ _ _ => false
  | .vpermq _ _ _ | .vsll16 _ _ _ | .vsrl16 _ _ _ | .vabs16 _ _ | .vbcst128 _ _ => false

/-- An instruction's effect behind the checks of R82 that come before it, in its order: the shift range (R80), distinct
operands (R203), valid sources (R25). A check that fails takes its fault and nothing of the effect happens (R207). -/
def guarded (i : Instr) (s : State) (effect : State) : Result :=
  .next <|
    if !i.wellFormed then s.raiseAt .immRange i
    else if operandsAlias i then s.raiseAt .operandAlias i
    else if (sources i).all s.isValid then effect
    else s.raiseAt .uninitRead i

end Sys2Proof.Machine
end

