-- ==== Sys2Proof/Machine/Flags.lean ====
section
/-! DEFINITION. The block has no flags (10_state.md R29). What stands in their place: compare results as lane masks, the
sign tests that VSIGN16 and VABS16 make of a lane, and the zero test of BZ and BNZ, which reads a register directly. -/

namespace Sys2Proof.Machine

/-- `if signed(x) > signed(y) then ones_w else 0_w` (R110 to R112). -/
def gtMask {w : Nat} (x y : BitVec w) : BitVec w := if x.toInt > y.toInt then BitVec.allOnes w else 0#w

/-- `if signed(sel) > 0 then x else if sel = 0 then 0 else 0 - x`, mod 2^16 (R133). -/
def signSelect (x sel : Half) : Half := if sel.toInt > 0 then x else if sel = 0#16 then 0#16 else 0#16 - x

/-- The signum of a lane: 1, 0 or −1 (R132). -/
def signum (x : Half) : Half := if x.toInt > 0 then 1#16 else if x = 0#16 then 0#16 else BitVec.ofInt 16 (-1)

/-- `m = x >>s 15; (x ^ m) - m`, mod 2^16 (R153, R154). -/
def absLane (x : Half) : Half := (x ^^^ x.sshiftRight 15) - x.sshiftRight 15

/-- All 256 bits are zero (R193, R194). -/
def allZero (x : V256) : Bool := x == 0#256

end Sys2Proof.Machine
end

