-- ==== Sys2Proof/Machine/Control.lean ====
section
/-! DEFINITION. Sequencing and control transfer (46_control.md R190 to R195). -/

namespace Sys2Proof.Machine

/-- NOP (R190). -/
def execNop (s : State) : Result := guarded .nop s s.advance

/-- HALT (R191): STATE becomes HALTED and the PC stays. -/
def execHalt (s : State) : Result := guarded .halt s s.halt

/-- JMP (R192). The target is not checked here (R205). -/
def execJmp (imm16 : BitVec 16) (s : State) : Result :=
  guarded (.jmp imm16) s (s.setPc (branchTarget s.pc imm16))

/-- BZ (R193): all 256 bits are tested. -/
def execBz (d : Reg) (imm16 : BitVec 16) (s : State) : Result :=
  guarded (.bz d imm16) s (if allZero (s.reg d) then s.setPc (branchTarget s.pc imm16) else s.advance)

/-- BNZ (R194). -/
def execBnz (d : Reg) (imm16 : BitVec 16) (s : State) : Result :=
  guarded (.bnz d imm16) s (if allZero (s.reg d) then s.advance else s.setPc (branchTarget s.pc imm16))

end Sys2Proof.Machine
end

