-- ==== Sys2Proof/Machine/Lanewise.lean ====
section
/-! DEFINITION. Lane-wise arithmetic, bitwise and compare instructions (40_lanewise.md R100 to R112). -/

namespace Sys2Proof.Machine

/-- The write of a data instruction: `V[d] <- x`, then `pc <- PC + 1` (R27, R89). -/
def State.finish (s : State) (d : Reg) (x : V256) : State := (s.writeV d x).advance

/-- VADD8 (R101). -/
def execVadd8 (d s1 s2 : Reg) (s : State) : Result :=
  guarded (.vadd8 d s1 s2) s (s.finish d (lanes8 fun k => b8 (s.reg s1) k + b8 (s.reg s2) k))

/-- VADD16 (R102). -/
def execVadd16 (d s1 s2 : Reg) (s : State) : Result :=
  guarded (.vadd16 d s1 s2) s (s.finish d (lanes16 fun k => h16 (s.reg s1) k + h16 (s.reg s2) k))

/-- VADD64 (R103). -/
def execVadd64 (d s1 s2 : Reg) (s : State) : Result :=
  guarded (.vadd64 d s1 s2) s (s.finish d (lanes64 fun k => q64 (s.reg s1) k + q64 (s.reg s2) k))

/-- VSUB8 (R104). -/
def execVsub8 (d s1 s2 : Reg) (s : State) : Result :=
  guarded (.vsub8 d s1 s2) s (s.finish d (lanes8 fun k => b8 (s.reg s1) k - b8 (s.reg s2) k))

/-- VSUB16 (R105). -/
def execVsub16 (d s1 s2 : Reg) (s : State) : Result :=
  guarded (.vsub16 d s1 s2) s (s.finish d (lanes16 fun k => h16 (s.reg s1) k - h16 (s.reg s2) k))

/-- VSUB64 (R106). -/
def execVsub64 (d s1 s2 : Reg) (s : State) : Result :=
  guarded (.vsub64 d s1 s2) s (s.finish d (lanes64 fun k => q64 (s.reg s1) k - q64 (s.reg s2) k))

/-- VXOR (R107): a register with itself is not read and gives zero (R26). -/
def execVxor (d s1 s2 : Reg) (s : State) : Result :=
  guarded (.vxor d s1 s2) s (s.finish d (if s1 = s2 then 0#256 else s.reg s1 ^^^ s.reg s2))

/-- VOR (R108). -/
def execVor (d s1 s2 : Reg) (s : State) : Result :=
  guarded (.vor d s1 s2) s (s.finish d (s.reg s1 ||| s.reg s2))

/-- VAND (R109). -/
def execVand (d s1 s2 : Reg) (s : State) : Result :=
  guarded (.vand d s1 s2) s (s.finish d (s.reg s1 &&& s.reg s2))

/-- VCMPGT8 (R110). -/
def execVcmpgt8 (d s1 s2 : Reg) (s : State) : Result :=
  guarded (.vcmpgt8 d s1 s2) s (s.finish d (lanes8 fun k => gtMask (b8 (s.reg s1) k) (b8 (s.reg s2) k)))

/-- VCMPGT16 (R111). -/
def execVcmpgt16 (d s1 s2 : Reg) (s : State) : Result :=
  guarded (.vcmpgt16 d s1 s2) s (s.finish d (lanes16 fun k => gtMask (h16 (s.reg s1) k) (h16 (s.reg s2) k)))

/-- VCMPGT64 (R112). -/
def execVcmpgt64 (d s1 s2 : Reg) (s : State) : Result :=
  guarded (.vcmpgt64 d s1 s2) s (s.finish d (lanes64 fun k => gtMask (q64 (s.reg s1) k) (q64 (s.reg s2) k)))

end Sys2Proof.Machine
end

