-- ==== Sys2Proof/Machine/HaddSign.lean ====
section
/-! DEFINITION. Horizontal add and conditional negation (41_hadd_sign.md R130 to R133). -/

namespace Sys2Proof.Machine

/-- The sum of two adjacent 16-bit lanes, n and n + 1 (R130). -/
def pairSum (x : V256) (n : Nat) : Half := h16 x n + h16 x (n + 1)

/-- Result lane k of R130: within half `k / 8`, four pair sums of a and then four of b. -/
def haddLane (a b : V256) (k : Nat) : Half :=
  if k % 8 < 4 then pairSum a (8 * (k / 8) + 2 * (k % 8))
  else pairSum b (8 * (k / 8) + 2 * (k % 8 - 4))

/-- VHADD16 (R130). -/
def execVhadd16 (d s1 s2 : Reg) (s : State) : Result :=
  guarded (.vhadd16 d s1 s2) s (s.finish d (lanes16 (haddLane (s.reg s1) (s.reg s2))))

/-- VSIGN16 (R133). -/
def execVsign16 (d s1 s2 : Reg) (s : State) : Result :=
  guarded (.vsign16 d s1 s2) s (s.finish d (lanes16 fun k => signSelect (h16 (s.reg s1) k) (h16 (s.reg s2) k)))

end Sys2Proof.Machine
end

