-- ==== Sys2Proof/Machine/MemoryOps.lean ====
section
/-! DEFINITION. Vector load and store (45_memory_ops.md R180, R181). -/

namespace Sys2Proof.Machine

/-- VLD (R180). -/
def execVld (d : Reg) (imm16 : BitVec 16) (s : State) : Result :=
  guarded (.vld d imm16) s <|
    if s.inDmem (effectiveAddress imm16) then s.finish d (s.memRead (effectiveAddress imm16))
    else s.raiseAt .dmemRange (.vld d imm16)

/-- VST (R181): `d` names the register stored. The VALID check comes before the range check (R208). -/
def execVst (d : Reg) (imm16 : BitVec 16) (s : State) : Result :=
  guarded (.vst d imm16) s <|
    if s.inDmem (effectiveAddress imm16) then (s.memWrite (effectiveAddress imm16) 32 (s.reg d)).advance
    else s.raiseAt .dmemRange (.vst d imm16)

end Sys2Proof.Machine
end

