-- ==== Sys2Proof/Machine/Prng.lean ====
section
/-! DEFINITION. The PRNG state update (44_prng.md R160 to R170): the multiplicative congruential step and the AES round. -/

namespace Sys2Proof.Machine

/-! ## The field GF(2^8) modulo 0x11B (R167, R168) -/

/-- `2·x = (x << 1)[7:0] ^ (x[7] ? 0x1B : 0)` (R168). -/
def gfDouble (x : Byte) : Byte := (x <<< 1) ^^^ (if x.getLsbD 7 then 0x1B#8 else 0#8)

/-- `3·x = 2·x ^ x` (R168). -/
def gfTriple (x : Byte) : Byte := gfDouble x ^^^ x

/-- The sum, over the bits j < n of y that are set, of `x · 2^j`. -/
def gfMulUpTo (x y : Byte) (n : Nat) : Byte :=
  match n with
  | 0 => 0#8
  | j + 1 => gfMulUpTo x y j ^^^ (if y.getLsbD j then Nat.repeat gfDouble j x else 0#8)

/-- The product in GF(2^8). -/
def gfMul (x y : Byte) : Byte := gfMulUpTo x y 8

/-- The square in GF(2^8). -/
def gfSquare (x : Byte) : Byte := gfMul x x

/-- `x^(2^n - 2)`: with n = 8 it is x^254, the inverse of x, and 0 for 0 (notes/assumptions/20). -/
def gfPowTwoLess (x : Byte) (n : Nat) : Byte :=
  match n with
  | 0 => 1#8
  | 1 => 1#8
  | k + 1 => gfSquare (gfMul (gfPowTwoLess x k) x)

/-- `x^−1` in GF(2^8) modulo x^8 + x^4 + x^3 + x + 1, with `0^−1 = 0` (R167). -/
def gfInv (x : Byte) : Byte := gfPowTwoLess x 8

/-! ## The AES round (R165 to R168) -/

/-- The affine map of R167: bit i is `y[i] ^ y[i+4] ^ y[i+5] ^ y[i+6] ^ y[i+7] ^ 0x63[i]`, indices mod 8. -/
def sboxAffine (y : Byte) : Byte :=
  y ^^^ y.rotateRight 4 ^^^ y.rotateRight 5 ^^^ y.rotateRight 6 ^^^ y.rotateRight 7 ^^^ 0x63#8

/-- The S-box (R167). -/
def sbox (x : Byte) : Byte := sboxAffine (gfInv x)

/-- `S[r][c]` of the state array: byte 4c + r of the 128-bit value (R165). -/
def stateByte (x : V128) (r c : Nat) : Byte := laneOf 8 x (4 * c + r)

/-- The 128-bit value whose state array is `f r c` (R165). -/
def ofStateArray (f : Nat → Nat → Byte) : V128 := lanesOf 128 8 (fun k => f (k % 4) (k / 4)) 16

/-- ShiftRows (R166). -/
def shiftRows (x : V128) : V128 := ofStateArray fun r c => stateByte x r ((c + r) % 4)

/-- SubBytes (R167). -/
def subBytes (x : V128) : V128 := ofStateArray fun r c => sbox (stateByte x r c)

/-- Row r of a column of MixColumns: `2·a_r ^ 3·a_(r+1) ^ a_(r+2) ^ a_(r+3)`, indices mod 4 (R168). -/
def mixRow (a : Nat → Byte) (r : Nat) : Byte :=
  gfDouble (a r) ^^^ gfTriple (a ((r + 1) % 4)) ^^^ a ((r + 2) % 4) ^^^ a ((r + 3) % 4)

/-- MixColumns (R168). -/
def mixColumns (x : V128) : V128 := ofStateArray fun r c => mixRow (fun q => stateByte x q c) r

/-- `AESENC(state, key)`, one AES encryption round (R165). -/
def aesenc (state key : V128) : V128 := mixColumns (subBytes (shiftRows state)) ^^^ key

/-! ## The draw (R161 to R164) -/

/-- One state value times PRNG_MULT, mod 2^128 (R162). -/
def mcgNext (mult : BitVec 64) (x : V128) : V128 := x * mult.setWidth 128

/-- The output of the MCG path from the new state values: their high 64 bits (R163). -/
def mcgOut (s0 s1v : V128) : V128 := (s1v.extractLsb' 64 64 ++ s0.extractLsb' 64 64 : BitVec (64 + 64))

/-- What a draw gives: the output and the new state pair. -/
structure Draw where
  out : V128
  pair : V256
  deriving DecidableEq, Repr

/-- `PrngStep(path, s0, s1v)` (R161): the MCG step (R162, R163) or the cipher round (R164). -/
def prngStep (b : Config.Build) (s0 s1v : V128) : Draw :=
  match b.prngPath with
  | .mcg =>
    { out := mcgOut (mcgNext b.prngMult s0) (mcgNext b.prngMult s1v)
      pair := joinHalves (mcgNext b.prngMult s1v) (mcgNext b.prngMult s0) }
  | .aes => { out := aesenc s0 s1v, pair := joinHalves s0 (aesenc s0 s1v) }

/-- The draw from the state pair in a register: s0 is its low half and s1v its high half (R160). -/
def drawFrom (b : Config.Build) (p : V256) : Draw := prngStep b (lo128 p) (hi128 p)

/-- VPRNG (R160): the new pair to V[s1], the zero-extended output to V[d]. -/
def execVprng (d s1 : Reg) (s : State) : Result :=
  guarded (.vprng d s1) s
    ((s.writeV s1 (drawFrom s.build (s.reg s1)).pair).finish d ((drawFrom s.build (s.reg s1)).out.setWidth 256))

end Sys2Proof.Machine
end

