-- ==== Sys2Proof/Machine/ShiftAbsBroadcast.lean ====
section
/-! DEFINITION. Shifts, absolute value and broadcast (43_shift_abs_broadcast.md R150 to R155). -/

namespace Sys2Proof.Machine

/-- VSLL16 (R151); a shift of more than 16 faults before it (R150). -/
def execVsll16 (d s1 : Reg) (imm8 : BitVec 8) (s : State) : Result :=
  guarded (.vsll16 d s1 imm8) s (s.finish d (lanes16 fun k => h16 (s.reg s1) k <<< imm8.toNat))

/-- VSRL16 (R152), a logical shift; a shift of more than 16 faults before it (R150). -/
def execVsrl16 (d s1 : Reg) (imm8 : BitVec 8) (s : State) : Result :=
  guarded (.vsrl16 d s1 imm8) s (s.finish d (lanes16 fun k => h16 (s.reg s1) k >>> imm8.toNat))

/-- VABS16 (R154). -/
def execVabs16 (d s1 : Reg) (s : State) : Result :=
  guarded (.vabs16 d s1) s (s.finish d (lanes16 fun k => absLane (h16 (s.reg s1) k)))

/-- VBCST128 (R155): the low half, twice. -/
def execVbcst128 (d s1 : Reg) (s : State) : Result :=
  guarded (.vbcst128 d s1) s (s.finish d (joinHalves (lo128 (s.reg s1)) (lo128 (s.reg s1))))

end Sys2Proof.Machine
end

