-- ==== Sys2Proof/Machine/ShufflePermute.lean ====
section
/-! DEFINITION. Byte shuffle and block permutation (42_shuffle_permute.md R140 to R143). -/

namespace Sys2Proof.Machine

/-- Result byte i of R140: zero where the control byte's high bit is set, else the byte its low four bits select in the
same 128-bit half of the table. -/
def shuffleByte (table control : V256) (i : Nat) : Byte :=
  if (b8 control i).getLsbD 7 then 0#8
  else b8 table (16 * (i / 16) + ((b8 control i).extractLsb' 0 4).toNat)

/-- VSHUFB (R140). -/
def execVshufb (d s1 s2 : Reg) (s : State) : Result :=
  guarded (.vshufb d s1 s2) s (s.finish d (lanes8 (shuffleByte (s.reg s1) (s.reg s2))))

/-- `imm8[2k+1 : 2k]`, the source block of result block k (R141). -/
def blockSelector (imm8 : BitVec 8) (k : Nat) : Nat := (imm8.extractLsb' (2 * k) 2).toNat

/-- VPERMQ (R141). -/
def execVpermq (d s1 : Reg) (imm8 : BitVec 8) (s : State) : Result :=
  guarded (.vpermq d s1 imm8) s (s.finish d (lanes64 fun k => q64 (s.reg s1) (blockSelector imm8 k)))

end Sys2Proof.Machine
end

