-- ==== Sys2Proof/Machine/Dispatch.lean ====
section
/-! DEFINITION. What each instruction does: one arm per constructor of Instr, one direct call of its meaning. -/

namespace Sys2Proof.Machine

/-- The meaning of an instruction in a state. -/
def exec (i : Instr) (s : State) : Host.Outcome State Fault Refusal :=
  match i with
  | .nop => Sys2Proof.Machine.execNop s
  | .halt => Sys2Proof.Machine.execHalt s
  | .jmp imm16 => Sys2Proof.Machine.execJmp imm16 s
  | .bz d imm16 => Sys2Proof.Machine.execBz d imm16 s
  | .bnz d imm16 => Sys2Proof.Machine.execBnz d imm16 s
  | .vld d imm16 => Sys2Proof.Machine.execVld d imm16 s
  | .vst d imm16 => Sys2Proof.Machine.execVst d imm16 s
  | .vadd8 d s1 s2 => Sys2Proof.Machine.execVadd8 d s1 s2 s
  | .vadd16 d s1 s2 => Sys2Proof.Machine.execVadd16 d s1 s2 s
  | .vadd64 d s1 s2 => Sys2Proof.Machine.execVadd64 d s1 s2 s
  | .vsub8 d s1 s2 => Sys2Proof.Machine.execVsub8 d s1 s2 s
  | .vsub16 d s1 s2 => Sys2Proof.Machine.execVsub16 d s1 s2 s
  | .vsub64 d s1 s2 => Sys2Proof.Machine.execVsub64 d s1 s2 s
  | .vxor d s1 s2 => Sys2Proof.Machine.execVxor d s1 s2 s
  | .vor d s1 s2 => Sys2Proof.Machine.execVor d s1 s2 s
  | .vand d s1 s2 => Sys2Proof.Machine.execVand d s1 s2 s
  | .vcmpgt8 d s1 s2 => Sys2Proof.Machine.execVcmpgt8 d s1 s2 s
  | .vcmpgt16 d s1 s2 => Sys2Proof.Machine.execVcmpgt16 d s1 s2 s
  | .vcmpgt64 d s1 s2 => Sys2Proof.Machine.execVcmpgt64 d s1 s2 s
  | .vhadd16 d s1 s2 => Sys2Proof.Machine.execVhadd16 d s1 s2 s
  | .vsign16 d s1 s2 => Sys2Proof.Machine.execVsign16 d s1 s2 s
  | .vshufb d s1 s2 => Sys2Proof.Machine.execVshufb d s1 s2 s
  | .vpermq d s1 imm8 => Sys2Proof.Machine.execVpermq d s1 imm8 s
  | .vsll16 d s1 imm8 => Sys2Proof.Machine.execVsll16 d s1 imm8 s
  | .vsrl16 d s1 imm8 => Sys2Proof.Machine.execVsrl16 d s1 imm8 s
  | .vabs16 d s1 => Sys2Proof.Machine.execVabs16 d s1 s
  | .vbcst128 d s1 => Sys2Proof.Machine.execVbcst128 d s1 s
  | .vprng d s1 => Sys2Proof.Machine.execVprng d s1 s

end Sys2Proof.Machine
end

