-- ==== Sys2Proof/Machine/HostInterface.lean ====
section
/-! DEFINITION. The host interface: the control-register window (10_state.md R35 to R42) and the host's transactions
(60_exceptions.md R216 to R221), with the boot sequence of 70_reset_and_hazards.md R243. -/

namespace Sys2Proof.Machine

/-- The registers of the window (R35). -/
inductive ControlReg where
  | config | imemSize | dmemSize | ctrl | status | cause | entryPc | pc | faultPc | faultInsn | valid
  | prngMultLo | prngMultHi
  deriving DecidableEq, Repr

/-- Every register of R35. -/
def ControlReg.all : List ControlReg :=
  [.config, .imemSize, .dmemSize, .ctrl, .status, .cause, .entryPc, .pc, .faultPc, .faultInsn, .valid,
   .prngMultLo, .prngMultHi]

/-- The byte offset of each register (R35). -/
def ControlReg.offset : ControlReg → Nat
  | .config => 0x00
  | .imemSize => 0x04
  | .dmemSize => 0x08
  | .ctrl => 0x0C
  | .status => 0x10
  | .cause => 0x14
  | .entryPc => 0x18
  | .pc => 0x1C
  | .faultPc => 0x20
  | .faultInsn => 0x24
  | .valid => 0x28
  | .prngMultLo => 0x2C
  | .prngMultHi => 0x30

/-- The register at an offset, if R35 lists one. -/
def ControlReg.ofOffset (offset : Nat) : Option ControlReg := ControlReg.all.find? fun r => r.offset == offset

/-- What a register reads (R35 to R41). -/
def ControlReg.read (r : ControlReg) (s : State) : Word :=
  match r with
  | .config => if s.build.prngPath = .aes then 1#32 else 0#32
  | .imemSize => (BitVec.ofNat 17 s.build.imemWords).setWidth 32
  | .dmemSize => (BitVec.ofNat 22 s.build.dmemBytes).setWidth 32
  | .ctrl => 0#32
  | .status => s.state.code.setWidth 32
  | .cause => s.cause.code.setWidth 32
  | .entryPc => s.entryPc.setWidth 32
  | .pc => s.pc.setWidth 32
  | .faultPc => s.faultPc.setWidth 32
  | .faultInsn => s.faultInsn
  | .valid => s.valid.setWidth 32
  | .prngMultLo => s.build.prngMult.extractLsb' 0 32
  | .prngMultHi => s.build.prngMult.extractLsb' 32 32

/-- A write of CTRL: the action of each bit written as 1, ABORT, then CLEAR, then START (R38). -/
def State.writeCtrl (s : State) (value : Word) : State :=
  let aborted := if value.getLsbD 2 then s.abort else s
  let cleared := if value.getLsbD 1 then aborted.clear else aborted
  if value.getLsbD 0 then cleared.start else cleared

/-- A write of ENTRY_PC, ignored while RUNNING (R34, R221). -/
def State.writeEntryPc (s : State) (value : Word) : State :=
  if s.state = .running then s else { s with entryPc := value.setWidth 16 }

/-- A write of a control register: CTRL acts, ENTRY_PC is written, the others are read-only (R35, R216). -/
def ControlReg.write (r : ControlReg) (value : Word) (s : State) : State :=
  match r with
  | .ctrl => s.writeCtrl value
  | .entryPc => s.writeEntryPc value
  | .config | .imemSize | .dmemSize | .status | .cause | .pc | .faultPc | .faultInsn | .valid => s
  | .prngMultLo | .prngMultHi => s

/-- Records what a read returned to the host. -/
def State.reply (s : State) (r : Reply) : State := { s with replies := r :: s.replies }

/-- HOST_READ_CR's value: an offset that R35 does not list reads 0 (R42). -/
def State.readCr (s : State) (offset : Nat) : Word :=
  match ControlReg.ofOffset offset with
  | some r => r.read s
  | none => 0#32

/-- HOST_WRITE_CR's effect: a write to an offset that R35 does not list has none (R42). -/
def State.writeCr (s : State) (offset : Nat) (value : Word) : State :=
  match ControlReg.ofOffset offset with
  | some r => r.write value s
  | none => s

/-- HOST_WRITE_IMEM's effect (R216, R217, R221). -/
def State.hostWriteImem (s : State) (i : Nat) (word : Word) : State :=
  if s.state = .running then s else if i < s.build.imemWords then s.storeWord i word else s

/-- HOST_READ_IMEM's value (R216, R217, R221). -/
def State.hostReadImem (s : State) (i : Nat) : Word :=
  if s.state = .running then 0#32 else if i < s.build.imemWords then s.imemWord i else 0#32

/-- HOST_WRITE_DMEM's effect (R216, R217, R221). -/
def State.hostWriteDmem (s : State) (a : Nat) (byte : Byte) : State :=
  if s.state = .running then s else if a < s.build.dmemBytes then s.storeByte a byte else s

/-- HOST_READ_DMEM's value (R216, R217, R221). -/
def State.hostReadDmem (s : State) (a : Nat) : Byte :=
  if s.state = .running then 0#8 else if a < s.build.dmemBytes then s.dmemByte a else 0#8

/-- HOST_WRITE_V's effect, which sets VALID[i] (R24, R216, R217, R221). -/
def State.hostWriteV (s : State) (i : Nat) (value : V256) : State :=
  if s.state = .running then s else if h : i < 16 then s.writeV ⟨i, h⟩ value else s

/-- HOST_READ_V's value: a register with VALID = 0 returns an unspecified value (R216, R217, R221). -/
def State.hostReadV (s : State) (i : Nat) : V256 :=
  if s.state = .running then 0#256
  else if h : i < 16 then (if s.isValid ⟨i, h⟩ then s.reg ⟨i, h⟩ else Config.vAtReset s.epoch i)
  else 0#256

/-- One host transaction, atomic (R216). A control-register access at an offset that is no multiple of 4 has no meaning
and is refused (R42). -/
def hostAct (t : HostTxn) (s : State) : Result :=
  match t with
  | .reset => .next s.hostReset
  | .readCr offset =>
    if offset % 4 = 0 then .next (s.reply (.cr (s.readCr offset))) else .refused (.misalignedControlAccess offset)
  | .writeCr offset value =>
    if offset % 4 = 0 then .next (s.writeCr offset value) else .refused (.misalignedControlAccess offset)
  | .writeImem i word => .next (s.hostWriteImem i word)
  | .readImem i => .next (s.reply (.imem (s.hostReadImem i)))
  | .writeDmem a byte => .next (s.hostWriteDmem a byte)
  | .readDmem a => .next (s.reply (.dmem (s.hostReadDmem a)))
  | .writeV i value => .next (s.hostWriteV i value)
  | .readV i => .next (s.reply (.v (s.hostReadV i)))

/-- The transactions that load a program's words from IMEM index `i` on (R243, step 2). -/
def loadWords (i : Nat) (words : List Word) : List Turn :=
  match words with
  | [] => []
  | w :: rest => .host (.writeImem i w) :: loadWords (i + 1) rest

/-- The transactions that load bytes from DMEM address `a` on (R243, step 3). -/
def loadBytes (a : Nat) (bytes : List Byte) : List Turn :=
  match bytes with
  | [] => []
  | b :: rest => .host (.writeDmem a b) :: loadBytes (a + 1) rest

/-- The boot sequence of R243 after a reset: IMEM from word 0, DMEM from `base`, registers, ENTRY_PC, START. -/
def bootTurns (words : List Word) (base : Nat) (bytes : List Byte) (regs : List (Nat × V256)) (entry : Pc) : List Turn :=
  loadWords 0 words ++ loadBytes base bytes ++ regs.map (fun r => .host (.writeV r.1 r.2)) ++
    [.host (.writeCr ControlReg.entryPc.offset (entry.setWidth 32)), .host (.writeCr ControlReg.ctrl.offset 1#32)]

end Sys2Proof.Machine
end

