-- ==== Sys2Proof/Machine/Sequencer.lean ====
section
/-! DEFINITION. One step of the machine: the fetch (60_exceptions.md R205), the decoder's faults (30_encoding.md R82), the
core's turn (10_state.md R30) and the turn of the agent that moves next (R44). -/

namespace Sys2Proof.Machine

/-- A fetched word runs: the fault of a word that decodes to no instruction, else the instruction's meaning (R81, R82). -/
def runWord (w : Word) (s : State) : Result :=
  match decode w with
  | .error c => .next (s.raise (causeOf c) w)
  | .ok i => exec i s

/-- Fetch and run: FETCH_RANGE, with FAULT_INSN 0, where PC is at or above IMEM_WORDS (R205). -/
def fetchAndRun (s : State) : Result :=
  if s.pc.toNat < s.build.imemWords then runWord (s.imemWord s.pc.toNat) s else .next (s.raise .fetchRange 0#32)

/-- The core's step. It executes only while RUNNING (R30); in the other three states it has no step (R227). -/
def coreStep (s : State) : Result :=
  match s.state with
  | .running => fetchAndRun s
  | .idle => .fault .coreIdle
  | .halted => .fault .coreHalted
  | .faulted => .fault (.coreFaulted s.cause)

/-- The agent whose turn it is moves (R44). A core turn while the core is not RUNNING passes, since the host may still
wake it; when no turn is left the core moves (notes/assumptions/8). -/
def takeTurn (s : State) : Result :=
  match s.turns with
  | [] => coreStep s
  | .core :: rest =>
    if s.state = .running then fetchAndRun { s with turns := rest } else .next { s with turns := rest }
  | .host t :: rest => hostAct t { s with turns := rest }

/-- The state in which the very next step fetches and runs the word: it stands where the core fetches next, the core is
RUNNING with no fault recorded, as after a START (R218), and no turn of the host comes first (notes/assumptions/14). -/
def placeWord (s : State) (w : Word) : State :=
  let pc := if s.pc.toNat < s.build.imemWords then s.pc else 0#16
  { s with pc := pc, state := .running, cause := .none, turns := [], imem := Memory.store s.imem pc.toNat w }

end Sys2Proof.Machine
end

