-- ==== Sys2Proof/Machine/Step.lean ====
section
/-! DEFINITION. The machine's one step, and the placing of a word where it fetches. -/

namespace Sys2Proof.Machine

/-- One step: a core step or a host transaction (10_state.md R44). -/
def step (s : State) : Host.Outcome State Fault Refusal := takeTurn s

/-- `s` with an opcode-table word where the next step fetches its instruction (notes/assumptions/14). -/
def State.withFetchWord (s : State) (nbits w : Nat) : State := placeWord s (tableWord nbits w)

end Sys2Proof.Machine
end

