-- ==== Sys2Proof/Machine/Assembler.lean ====
section
/-! DEFINITION. The assembler (30_encoding.md R83 to R88): the line syntax, the operand forms of each format, the
pseudo-instructions and the forms refused by name and line. Program text is a list of characters. -/

namespace Sys2Proof.Machine

/-- A mnemonic or a label. -/
abbrev Name := List Char

/-- An operand as written: `v<n>`, an immediate or absolute word index, or a label (R83, R84, R86). -/
inductive Arg where
  | reg (n : Nat)
  | num (n : Nat)
  | name (l : Name)
  deriving DecidableEq, Repr

/-- A line: an optional label and an optional instruction, the comment dropped (R83). -/
structure AsmLine where
  label : Option Name
  stmt : Option (Name × List Arg)
  deriving DecidableEq, Repr

/-- What a mnemonic names: an instruction, or a pseudo-instruction of R87. -/
inductive Mnemonic where
  | op (o : Op)
  | vzero | vmov | vperm4x16 | vneg8 | vneg16 | vneg64 | b
  deriving DecidableEq, Repr

/-- Why a line is refused: the forms R88 lists, and a line that is no line of R83 and R84. -/
inductive AsmError where
  | syntaxError
  | unknownMnemonic
  | operandForm
  | registerName
  | shiftRange
  | immRange
  | addressRange
  | targetRange
  | undefinedLabel
  | repeatedLabel
  | negAlias
  | operandAlias
  deriving DecidableEq, Repr

/-- The lowercase mnemonics (R83). -/
def opName : Op → String
  | .nop => "nop" | .halt => "halt" | .jmp => "jmp" | .bz => "bz" | .bnz => "bnz" | .vld => "vld" | .vst => "vst"
  | .vadd8 => "vadd8" | .vadd16 => "vadd16" | .vadd64 => "vadd64"
  | .vsub8 => "vsub8" | .vsub16 => "vsub16" | .vsub64 => "vsub64"
  | .vxor => "vxor" | .vor => "vor" | .vand => "vand"
  | .vcmpgt8 => "vcmpgt8" | .vcmpgt16 => "vcmpgt16" | .vcmpgt64 => "vcmpgt64"
  | .vhadd16 => "vhadd16" | .vsign16 => "vsign16" | .vshufb => "vshufb" | .vpermq => "vpermq"
  | .vsll16 => "vsll16" | .vsrl16 => "vsrl16" | .vabs16 => "vabs16" | .vbcst128 => "vbcst128" | .vprng => "vprng"

/-- The pseudo-instructions by name (R87). -/
def pseudoNames : List (String × Mnemonic) :=
  [("vzero", .vzero), ("vmov", .vmov), ("vperm4x16", .vperm4x16), ("vneg8", .vneg8), ("vneg16", .vneg16),
   ("vneg64", .vneg64), ("b", .b)]

/-- The mnemonic a word of text names. -/
def Mnemonic.ofName (n : Name) : Option Mnemonic :=
  match Op.all.find? fun o => (opName o).toList == n with
  | some o => some (.op o)
  | none => (pseudoNames.find? fun p => p.1.toList == n).map (·.2)

/-- How many words a mnemonic expands to (R87). -/
def Mnemonic.size : Mnemonic → Nat
  | .vneg8 | .vneg16 | .vneg64 => 2
  | .op _ | .vzero | .vmov | .vperm4x16 | .b => 1

/-! ## Operands -/

/-- A register name v0 to v15 (R83, R88). -/
def asmReg (n : Nat) : Except AsmError Reg := if h : n < 16 then .ok ⟨n, h⟩ else .error .registerName

/-- An imm8: a shift amount of 0 to 16 for the shifts, 0 to 255 otherwise (R88). -/
def asmImm8 (o : Op) (n : Nat) : Except AsmError (BitVec 8) :=
  if (o = .vsll16 ∨ o = .vsrl16) ∧ 16 < n then .error .shiftRange
  else if n < 256 then .ok (BitVec.ofNat 8 n) else .error .immRange

/-- A byte address, `imm16 = addr / 32` (R85). -/
def asmAddress (n : Nat) : Except AsmError (BitVec 16) :=
  if n % 32 = 0 ∧ n ≤ 2097120 then .ok (BitVec.ofNat 16 (n / 32)) else .error .addressRange

/-- The word index a target names: an absolute index or a label (R86). -/
def targetIndex (labels : List (Name × Nat)) (a : Arg) : Except AsmError Nat :=
  match a with
  | .num n => .ok n
  | .name l =>
    match labels.find? fun p => p.1 == l with
    | some p => .ok p.2
    | none => .error .undefinedLabel
  | .reg _ => .error .operandForm

/-- A target that can be encoded (R86): a signed difference of 16 bits, or any index of 16 bits in a larger IMEM. -/
def targetEncodable (imemWords pc t : Nat) : Bool :=
  if imemWords ≤ 32768 then decide (-32768 ≤ (t : Int) - pc ∧ (t : Int) - pc ≤ 32767) else t ≤ 65535

/-- `imm16 = (target − PC) mod 2^16` (R86). -/
def asmTarget (imemWords : Nat) (labels : List (Name × Nat)) (pc : Nat) (a : Arg) : Except AsmError (BitVec 16) :=
  match targetIndex labels a with
  | .error e => .error e
  | .ok t => if targetEncodable imemWords pc t then .ok (BitVec.ofInt 16 ((t : Int) - pc)) else .error .targetRange

/-- The register combinations that raise OPERAND_ALIAS are refused (R88). -/
def asmDistinct (i : Instr) : Except AsmError Instr :=
  if operandsAlias i then .error .operandAlias else .ok i

/-- The fields of an instruction line, in the operand order of its format (R84). -/
def asmFields (imemWords : Nat) (labels : List (Name × Nat)) (pc : Nat) (o : Op) (args : List Arg) :
    Except AsmError Fields := do
  let blank : Fields := { d := 0, s1 := 0, s2 := 0, imm8 := 0, imm16 := 0 }
  match o.format, args with
  | .n, [] => return blank
  | .j, [t] => return { blank with imm16 := ← asmTarget imemWords labels pc t }
  | .b, [.reg d, t] => return { blank with d := ← asmReg d, imm16 := ← asmTarget imemWords labels pc t }
  | .m, [.reg d, .num n] => return { blank with d := ← asmReg d, imm16 := ← asmAddress n }
  | .r3, [.reg d, .reg a, .reg b] => return { blank with d := ← asmReg d, s1 := ← asmReg a, s2 := ← asmReg b }
  | .r2, [.reg d, .reg a] => return { blank with d := ← asmReg d, s1 := ← asmReg a }
  | .ri, [.reg d, .reg a, .num n] => return { blank with d := ← asmReg d, s1 := ← asmReg a, imm8 := ← asmImm8 o n }
  | _, _ => throw .operandForm

/-- One instruction line. Its operands are checked from the left and its register combination last, and the first refusal
is the one named (notes/assumptions/24). -/
def asmOp (imemWords : Nat) (labels : List (Name × Nat)) (pc : Nat) (o : Op) (args : List Arg) :
    Except AsmError Instr := do
  asmDistinct (o.build (← asmFields imemWords labels pc o args))

/-- `vneg* vD, vA, vT`: `vxor vT, vT, vT` and then the subtraction of vA from vT, with T ≠ A (R87, R88). -/
def asmNeg (sub : Reg → Reg → Reg → Instr) (args : List Arg) : Except AsmError (List Instr) := do
  match args with
  | [.reg d, .reg a, .reg t] =>
    let d ← asmReg d
    let a ← asmReg a
    let t ← asmReg t
    if t = a then throw .negAlias else return [.vxor t t t, sub d t a]
  | _ => throw .operandForm

/-- The expansion of a line (R84, R87). -/
def expand (imemWords : Nat) (labels : List (Name × Nat)) (pc : Nat) (m : Mnemonic) (args : List Arg) :
    Except AsmError (List Instr) := do
  match m with
  | .op o => return [← asmOp imemWords labels pc o args]
  | .vzero =>
    match args with
    | [.reg d] => return [← asmOp imemWords labels pc .vxor [.reg d, .reg d, .reg d]]
    | _ => throw .operandForm
  | .vmov =>
    match args with
    | [.reg d, .reg a] => return [← asmOp imemWords labels pc .vpermq [.reg d, .reg a, .num 0xE4]]
    | _ => throw .operandForm
  | .vperm4x16 => return [← asmOp imemWords labels pc .vpermq args]
  | .vneg8 => asmNeg .vsub8 args
  | .vneg16 => asmNeg .vsub16 args
  | .vneg64 => asmNeg .vsub64 args
  | .b => return [← asmOp imemWords labels pc .jmp args]

/-! ## Programs -/

/-- The number of words of a line; an unknown mnemonic is refused. -/
def AsmLine.size (l : AsmLine) : Except AsmError Nat :=
  match l.stmt with
  | none => .ok 0
  | some (m, _) =>
    match Mnemonic.ofName m with
    | some k => .ok k.size
    | none => .error .unknownMnemonic

/-- The word index of every label. A refusal names its line, counted from 1. -/
def collectLabels (line pc : Nat) (seen : List (Name × Nat)) (ls : List AsmLine) :
    Except (Nat × AsmError) (List (Name × Nat)) :=
  match ls with
  | [] => .ok seen
  | l :: rest =>
    match l.size with
    | .error e => .error (line, e)
    | .ok n =>
      match l.label with
      | none => collectLabels (line + 1) (pc + n) seen rest
      | some name =>
        if seen.any fun p => p.1 == name then .error (line, .repeatedLabel)
        else collectLabels (line + 1) (pc + n) ((name, pc) :: seen) rest

/-- The instructions of the lines from word index `pc` on. -/
def assembleFrom (imemWords : Nat) (labels : List (Name × Nat)) (line pc : Nat) (ls : List AsmLine) :
    Except (Nat × AsmError) (List Instr) :=
  match ls with
  | [] => .ok []
  | l :: rest =>
    match l.stmt with
    | none => assembleFrom imemWords labels (line + 1) pc rest
    | some (name, args) =>
      match Mnemonic.ofName name with
      | none => .error (line, .unknownMnemonic)
      | some m =>
        match expand imemWords labels pc m args with
        | .error e => .error (line, e)
        | .ok is =>
          match assembleFrom imemWords labels (line + 1) (pc + is.length) rest with
          | .error e => .error e
          | .ok more => .ok (is ++ more)

/-- A program. Its first instruction has word index 0, from which absolute targets count: R86 gives no origin, and this one is
the model's choice (notes/assumptions/23). So is that the mnemonics and labels of all lines are checked before the operands
of any, and that one refusal alone is named (notes/assumptions/24). -/
def assemble (imemWords : Nat) (ls : List AsmLine) : Except (Nat × AsmError) (List Instr) :=
  match collectLabels 1 0 [] ls with
  | .error e => .error e
  | .ok labels => assembleFrom imemWords labels 1 0 ls

/-! ## Text (R83) -/

/-- Blank characters within a line. -/
def isBlank (c : Char) : Bool := c == ' ' || c == '\t' || c == '\r'

/-- A text without its leading and trailing blanks. -/
def trim (cs : List Char) : List Char := ((cs.dropWhile isBlank).reverse.dropWhile isBlank).reverse

/-- The pieces of a text between separators. -/
def splitAtChar (sep : Char) (cs : List Char) : List (List Char) :=
  match cs with
  | [] => [[]]
  | c :: rest =>
    match splitAtChar sep rest with
    | [] => [[c]]
    | piece :: pieces => if c = sep then [] :: piece :: pieces else (c :: piece) :: pieces

/-- A letter or the underscore, and from the second character on a digit too (notes/assumptions/19). -/
def isIdentifier (cs : List Char) : Bool :=
  match cs with
  | [] => false
  | c :: rest => (c.isAlpha || c == '_') && rest.all fun x => x.isAlphanum || x == '_'

/-- The value of a digit in a base of 10 or 16. -/
def digitValue (base : Nat) (c : Char) : Option Nat :=
  let v := if c.isDigit then some (c.toNat - 48)
    else if 97 ≤ c.toNat ∧ c.toNat ≤ 102 then some (c.toNat - 87)
    else if 65 ≤ c.toNat ∧ c.toNat ≤ 70 then some (c.toNat - 55) else none
  v.bind fun n => if n < base then some n else none

/-- The number a row of digits writes, after the digits already read. -/
def digitsFrom (base acc : Nat) (cs : List Char) : Option Nat :=
  match cs with
  | [] => some acc
  | c :: rest => (digitValue base c).bind fun n => digitsFrom base (acc * base + n) rest

/-- A non-empty row of digits. -/
def digits (base : Nat) (cs : List Char) : Option Nat := if cs.isEmpty then none else digitsFrom base 0 cs

/-- A decimal or `0x` hexadecimal immediate. -/
def parseNumber (cs : List Char) : Option Nat :=
  match cs with
  | '0' :: 'x' :: hex => digits 16 hex
  | _ => digits 10 cs

/-- The digits of a register name have no leading zero: a register has one name (10_state.md R20). -/
def isPlainNumeral (ds : List Char) : Bool :=
  match ds with
  | '0' :: _ :: _ => false
  | _ => true

/-- An operand: a register name, an immediate or a label. `v` and digits that are not `v0` and so on are no register name
and are refused as one (R88; `asmReg` bounds the number). -/
def parseArg (cs : List Char) : Except AsmError Arg :=
  match cs with
  | 'v' :: ds =>
    match digits 10 ds with
    | some n => if isPlainNumeral ds then .ok (.reg n) else .error .registerName
    | none => if isIdentifier cs then .ok (.name cs) else .error .syntaxError
  | _ =>
    match parseNumber cs with
    | some n => .ok (.num n)
    | none => if isIdentifier cs then .ok (.name cs) else .error .syntaxError

/-- The operands of a line, separated by commas. -/
def parseArgs (pieces : List (List Char)) : Except AsmError (List Arg) :=
  match pieces with
  | [] => .ok []
  | p :: rest =>
    match parseArg (trim p), parseArgs rest with
    | .ok a, .ok more => .ok (a :: more)
    | .error e, _ => .error e
    | _, .error e => .error e

/-- The instruction part of a line. -/
def parseStmt (cs : List Char) : Except AsmError (Option (Name × List Arg)) :=
  let body := trim cs
  let operands := trim (body.dropWhile fun c => !isBlank c)
  if body.isEmpty then .ok none
  else
    match parseArgs (if operands.isEmpty then [] else splitAtChar ',' operands) with
    | .ok args => .ok (some (body.takeWhile fun c => !isBlank c, args))
    | .error e => .error e

/-- One line of text: an optional `name:`, an optional instruction, an optional comment from `;` or `#` on (R83). -/
def parseLine (cs : List Char) : Except AsmError AsmLine :=
  match splitAtChar ':' (cs.takeWhile fun c => c != ';' && c != '#') with
  | [stmt] => (parseStmt stmt).map fun s => { label := none, stmt := s }
  | [label, stmt] =>
    if isIdentifier (trim label) then (parseStmt stmt).map fun s => { label := some (trim label), stmt := s }
    else .error .syntaxError
  | _ => .error .syntaxError

/-- The lines of a program text; a refusal names its line, counted from 1. -/
def parseLines (line : Nat) (ls : List (List Char)) : Except (Nat × AsmError) (List AsmLine) :=
  match ls with
  | [] => .ok []
  | l :: rest =>
    match parseLine l, parseLines (line + 1) rest with
    | .error e, _ => .error (line, e)
    | .ok a, .ok more => .ok (a :: more)
    | .ok _, .error e => .error e

/-- A program text as instructions. That every line is read before the program is assembled, so that a line that cannot be
read is named before any other refusal, is the model's choice (notes/assumptions/24). -/
def assembleText (imemWords : Nat) (text : List Char) : Except (Nat × AsmError) (List Instr) :=
  match parseLines 1 (splitAtChar '\n' text) with
  | .error e => .error e
  | .ok ls => assemble imemWords ls

end Sys2Proof.Machine
end

