-- ==== Sys2Proof/Safety.lean ====
section
/-! DEFINITION. The terms statements about the machine use: the invariant of every state a run can be in, how a run ends
and what is observed of it, what a step leaves unchanged, and which differences between states nothing can see. -/

namespace Sys2Proof.Machine

/-! ## The invariant -/

/-- What holds at reset and is kept by every step: a legal build (00_scope.md R8), both memories in canonical form and
inside their bounds (20_memory.md R51, R52), and CAUSE is NONE exactly when STATE is not FAULTED (10_state.md R31). -/
structure State.Inv (s : State) : Prop where
  build : s.build.legal = true
  imemWf : Memory.wf s.imem = true
  imemWithin : Memory.within s.build.imemWords s.imem = true
  dmemWf : Memory.wf (w := 8) s.dmem = true
  dmemWithin : Memory.within (w := 8) s.build.dmemBytes s.dmem = true
  cause : s.cause = .none ↔ s.state ≠ .faulted

/-! ## The end of a run (60_exceptions.md R222) -/

/-- How a run ends. A run that reaches neither is a hang. -/
inductive RunEnd where
  | normal
  | fault (c : Cause)
  deriving DecidableEq, Repr

/-- The end a state shows, if the run is over. A FAULTED end is never a normal end. -/
def State.runEnd (s : State) : Option RunEnd :=
  match s.state with
  | .halted => some .normal
  | .faulted => some (.fault s.cause)
  | .idle => none
  | .running => none

/-- What the host reads after a normal end: the valid registers, VALID, the written bytes of DMEM, and PC. It says
nothing of a register whose VALID bit is 0 nor of a byte nobody wrote. -/
structure Observation where
  regs : List (Option V256)
  valid : BitVec 16
  dmem : List Host.Cell
  pc : Pc
  deriving DecidableEq, Repr

/-- The observation of a state. -/
def State.observe (s : State) : Observation :=
  { regs := (List.finRange 16).map fun r => if s.isValid r then some (s.reg r) else none
    valid := s.valid
    dmem := s.dmem
    pc := s.pc }

/-! ## Frames -/

/-- Every register but those of `ds`, with its VALID bit, is unchanged. -/
def KeepsRegs (s t : State) (ds : List Reg) : Prop :=
  ∀ r, r ∉ ds → t.reg r = s.reg r ∧ t.isValid r = s.isValid r

/-- Every byte of DMEM reads as before. -/
def KeepsDmem (s t : State) : Prop := ∀ a, t.dmemByte a = s.dmemByte a

/-- Every byte of DMEM outside the 32 bytes from `ea` on reads as before. -/
def KeepsDmemOutside (s t : State) (ea : Nat) : Prop :=
  ∀ a, a < ea ∨ ea + 32 ≤ a → t.dmemByte a = s.dmemByte a

/-- STATE, CAUSE, FAULT_PC and FAULT_INSN are unchanged. -/
def KeepsRunStatus (s t : State) : Prop :=
  t.state = s.state ∧ t.cause = s.cause ∧ t.faultPc = s.faultPc ∧ t.faultInsn = s.faultInsn

/-- What no instruction writes: ENTRY_PC, every word of IMEM, the build parameters, and the model's own turns, replies
and reset count. -/
def KeepsOutside (s t : State) : Prop :=
  t.entryPc = s.entryPc ∧ (∀ i, t.imemWord i = s.imemWord i) ∧ t.build = s.build ∧
  t.turns = s.turns ∧ t.replies = s.replies ∧ t.epoch = s.epoch

/-- The frame of an instruction that writes the registers `ds` and nothing else but the PC. -/
def WritesOnly (s t : State) (ds : List Reg) : Prop :=
  KeepsRegs s t ds ∧ KeepsDmem s t ∧ KeepsRunStatus s t ∧ KeepsOutside s t

/-! ## What nothing can see -/

/-- Two states that differ at most in the contents of registers whose VALID bit is 0. -/
def SameWhereValid (s t : State) : Prop :=
  t = { s with v := t.v } ∧ ∀ r, s.isValid r = true → t.reg r = s.reg r

/-- Two outcomes that differ at most so. -/
def OutcomesSameWhereValid (x y : Result) : Prop :=
  match x, y with
  | .next s, .next t => SameWhereValid s t
  | .fault f, .fault g => f = g
  | .refused f, .refused g => f = g
  | .next _, .fault _ => False
  | .next _, .refused _ => False
  | .fault _, .next _ => False
  | .fault _, .refused _ => False
  | .refused _, .next _ => False
  | .refused _, .fault _ => False

end Sys2Proof.Machine
end

