-- ==== Sys2Proof/Certificates/Slice0/Obligations.lean ====
section
/-! DEFINITION. The statements for the provers. First the shapes that rules of one format share, then the obligations, each
with the rule of spec/ it formalises. -/

namespace Sys2Proof.Machine

/-! ## Shapes -/

/-- The word of format R3 with opcode `op` decodes to `mk`, and a word of that opcode with any of bits [13:0] set raises
RESERVED_FIELD. -/
def FormatR3 (op : BitVec 6) (mk : Reg → Reg → Reg → Instr) : Prop :=
  (∀ d s1 s2, decode (packR3 op d s1 s2) = .ok (mk d s1 s2)) ∧
  ∀ w, opField w = op → w.extractLsb' 0 14 ≠ 0#14 → decode w = .error .reservedField

/-- Format R2: the must-be-zero bits are [17:0]. -/
def FormatR2 (op : BitVec 6) (mk : Reg → Reg → Instr) : Prop :=
  (∀ d s1, decode (packR2 op d s1) = .ok (mk d s1)) ∧
  ∀ w, opField w = op → w.extractLsb' 0 18 ≠ 0#18 → decode w = .error .reservedField

/-- Format RI for the immediates `legal` admits: the must-be-zero bits are [17:8]. -/
def FormatRI (op : BitVec 6) (mk : Reg → Reg → BitVec 8 → Instr) (legal : BitVec 8 → Prop) : Prop :=
  (∀ d s1 imm8, legal imm8 → decode (packRI op d s1 imm8) = .ok (mk d s1 imm8)) ∧
  ∀ w, opField w = op → w.extractLsb' 8 10 ≠ 0#10 → decode w = .error .reservedField

/-- Formats B and M: the must-be-zero bits are [21:16]. -/
def FormatB (op : BitVec 6) (mk : Reg → BitVec 16 → Instr) : Prop :=
  (∀ d imm16, decode (packB op d imm16) = .ok (mk d imm16)) ∧
  ∀ w, opField w = op → w.extractLsb' 16 6 ≠ 0#6 → decode w = .error .reservedField

/-- The instruction completes: it writes V[d], whose new value meets `P`, sets VALID[d], advances the PC and changes
nothing else. -/
def CompletesWriting (i : Instr) (s : State) (d : Reg) (P : V256 → Prop) : Prop :=
  ∃ t, exec i s = .next t ∧ P (t.reg d) ∧ t.isValid d = true ∧ t.pc = s.pc + 1#16 ∧ WritesOnly s t [d]

/-- A rule of format R3 with two sources and no other condition: with both sources valid the instruction completes, and
otherwise it takes UNINIT_READ. -/
def TwoSourceRule (op : BitVec 6) (mk : Reg → Reg → Reg → Instr) (P : V256 → V256 → V256 → Prop) : Prop :=
  FormatR3 op mk ∧
  (∀ d s1 s2 s, s.isValid s1 = true → s.isValid s2 = true →
    CompletesWriting (mk d s1 s2) s d (P (s.reg s1) (s.reg s2))) ∧
  ∀ d s1 s2 s, s.isValid s1 = false ∨ s.isValid s2 = false →
    exec (mk d s1 s2) s = .next (s.raise .uninitRead (packR3 op d s1 s2))

/-- A rule of format R3 whose two sources must be distinct: OPERAND_ALIAS if they are one register, whatever VALID holds,
and then as `TwoSourceRule`. -/
def DistinctSourceRule (op : BitVec 6) (mk : Reg → Reg → Reg → Instr) (P : V256 → V256 → V256 → Prop) : Prop :=
  FormatR3 op mk ∧
  (∀ d s1 s2 s, s1 ≠ s2 → s.isValid s1 = true → s.isValid s2 = true →
    CompletesWriting (mk d s1 s2) s d (P (s.reg s1) (s.reg s2))) ∧
  (∀ d r s, exec (mk d r r) s = .next (s.raise .operandAlias (packR3 op d r r))) ∧
  ∀ d s1 s2 s, s1 ≠ s2 → s.isValid s1 = false ∨ s.isValid s2 = false →
    exec (mk d s1 s2) s = .next (s.raise .uninitRead (packR3 op d s1 s2))

/-- A rule of format R2 with one source. -/
def OneSourceRule (op : BitVec 6) (mk : Reg → Reg → Instr) (P : V256 → V256 → Prop) : Prop :=
  FormatR2 op mk ∧
  (∀ d s1 s, s.isValid s1 = true → CompletesWriting (mk d s1) s d (P (s.reg s1))) ∧
  ∀ d s1 s, s.isValid s1 = false → exec (mk d s1) s = .next (s.raise .uninitRead (packR2 op d s1))

/-- A rule of the two shifts: 0 to 16 completes, more takes IMM_RANGE whatever VALID holds, in the decoder and in the
meaning alike. -/
def ShiftRule (op : BitVec 6) (mk : Reg → Reg → BitVec 8 → Instr) (P : Nat → V256 → V256 → Prop) : Prop :=
  FormatRI op mk (fun imm8 => imm8.toNat ≤ 16) ∧
  (∀ d s1 imm8 s, imm8.toNat ≤ 16 → s.isValid s1 = true →
    CompletesWriting (mk d s1 imm8) s d (P imm8.toNat (s.reg s1))) ∧
  (∀ d s1 imm8 s, 16 < imm8.toNat →
    decode (packRI op d s1 imm8) = .error .immRange ∧
    exec (mk d s1 imm8) s = .next (s.raise .immRange (packRI op d s1 imm8))) ∧
  ∀ d s1 imm8 s, imm8.toNat ≤ 16 → s.isValid s1 = false →
    exec (mk d s1 imm8) s = .next (s.raise .uninitRead (packRI op d s1 imm8))

/-- The core moves next: no turn of the host comes first, and STATE is RUNNING. -/
def CoreMoves (s : State) : Prop := s.turns = [] ∧ s.state = .running

/-- A turn is taken off the list, and nothing else changes: the state in which the agent whose turn it was acts. -/
def turnTaken (s : State) (rest : List Turn) : State := { s with turns := rest }

/-- The core takes its step from `u`: it is RUNNING, and either no turn is left, or a core turn stands at the head of the
list, with any turns after it, and is used up (R44; notes/assumptions/8). -/
def CoreTurn (s u : State) : Prop :=
  s.state = .running ∧ ((s.turns = [] ∧ u = s) ∨ ∃ rest, s.turns = .core :: rest ∧ u = turnTaken s rest)

/-- The fault `c` with the word `w` is recorded and nothing else changes (R206, R207). -/
def FaultTaken (s t : State) (c : Cause) (w : Word) : Prop :=
  t.state = .faulted ∧ t.cause = c ∧ t.faultPc = s.pc ∧ t.faultInsn = w ∧ t.pc = s.pc ∧
    KeepsRegs s t [] ∧ KeepsDmem s t ∧ KeepsOutside s t

/-- A rule of the two branches: taken or not, only the PC changes. A taken branch to an index at or above IMEM_WORDS
faults at the next fetch. -/
def BranchRule (op : BitVec 6) (mk : Reg → BitVec 16 → Instr) (taken : V256 → Prop) : Prop :=
  FormatB op mk ∧
  (∀ d imm16 s, s.isValid d = true → ∃ t, exec (mk d imm16) s = .next t ∧ WritesOnly s t [] ∧
    (taken (s.reg d) → (t.pc.toNat : Int) = ((s.pc.toNat : Int) + imm16.toInt) % 65536) ∧
    (¬taken (s.reg d) → t.pc = s.pc + 1#16) ∧
    (CoreMoves s → s.build.imemWords ≤ t.pc.toNat → step t = .next (t.raise .fetchRange 0#32))) ∧
  ∀ d imm16 s, s.isValid d = false → exec (mk d imm16) s = .next (s.raise .uninitRead (packB op d imm16))

/-- The assembler accepts the operand forms of R84 for the opcode `o`, the destination first, and a byte address exactly as
R85 bounds it. Registers that must be distinct are the one further condition (R88). -/
def AcceptsOperandForms (imemWords pc : Nat) (labels : List (Name × Nat)) (o : Op) : Prop :=
  let accepts (args : List Arg) (f : Fields) : Prop := asmOp imemWords labels pc o args = .ok (o.build f)
  (o.format = .n → accepts [] { d := 0, s1 := 0, s2 := 0, imm8 := 0, imm16 := 0 }) ∧
  (o.format = .j → ∀ target imm16, asmTarget imemWords labels pc target = .ok imm16 →
    accepts [target] { d := 0, s1 := 0, s2 := 0, imm8 := 0, imm16 := imm16 }) ∧
  (o.format = .b → ∀ (d : Reg) target imm16, asmTarget imemWords labels pc target = .ok imm16 →
    accepts [.reg d.val, target] { d := d, s1 := 0, s2 := 0, imm8 := 0, imm16 := imm16 }) ∧
  (o.format = .m → ∀ (d : Reg) (addr : Nat),
    (addr % 32 = 0 ∧ addr ≤ 2097120 → accepts [.reg d.val, .num addr]
      { d := d, s1 := 0, s2 := 0, imm8 := 0, imm16 := BitVec.ofNat 16 (addr / 32) }) ∧
    (¬(addr % 32 = 0 ∧ addr ≤ 2097120) →
      asmOp imemWords labels pc o [.reg d.val, .num addr] = .error .addressRange)) ∧
  (o.format = .r3 → ∀ (d a b : Reg), operandsAlias (o.build { d := d, s1 := a, s2 := b, imm8 := 0, imm16 := 0 }) = false →
    accepts [.reg d.val, .reg a.val, .reg b.val] { d := d, s1 := a, s2 := b, imm8 := 0, imm16 := 0 }) ∧
  (o.format = .r2 → ∀ (d a : Reg), operandsAlias (o.build { d := d, s1 := a, s2 := 0, imm8 := 0, imm16 := 0 }) = false →
    accepts [.reg d.val, .reg a.val] { d := d, s1 := a, s2 := 0, imm8 := 0, imm16 := 0 }) ∧
  (o.format = .ri → ∀ (d a : Reg) (n : Nat), n < 256 → (o = .vsll16 ∨ o = .vsrl16 → n ≤ 16) →
    accepts [.reg d.val, .reg a.val, .num n] { d := d, s1 := a, s2 := 0, imm8 := BitVec.ofNat 8 n, imm16 := 0 })

/-- The assembler refuses, by the name of what is wrong, what R88 lists for the opcode `o`: a register outside v0 to v15, a
target that is refused, an immediate out of its range, and registers that must be distinct and are not. -/
def RefusesOperandForms (imemWords pc : Nat) (labels : List (Name × Nat)) (o : Op) : Prop :=
  let refuses (args : List Arg) (e : AsmError) : Prop := asmOp imemWords labels pc o args = .error e
  (o.format = .j → ∀ target e, asmTarget imemWords labels pc target = .error e → refuses [target] e) ∧
  (o.format = .b → ∀ (d : Nat) target, (15 < d → refuses [.reg d, target] .registerName) ∧
    ∀ e, d ≤ 15 → asmTarget imemWords labels pc target = .error e → refuses [.reg d, target] e) ∧
  (o.format = .m → ∀ d n, 15 < d → refuses [.reg d, .num n] .registerName) ∧
  (o.format = .r3 → ∀ d a b, 15 < d ∨ 15 < a ∨ 15 < b → refuses [.reg d, .reg a, .reg b] .registerName) ∧
  (o.format = .r2 → ∀ d a, 15 < d ∨ 15 < a → refuses [.reg d, .reg a] .registerName) ∧
  (o.format = .ri → ∀ d a n, 15 < d ∨ 15 < a → refuses [.reg d, .reg a, .num n] .registerName) ∧
  (o.format = .ri → ∀ (d a : Reg) (n : Nat),
    (o = .vsll16 ∨ o = .vsrl16 → 16 < n → refuses [.reg d.val, .reg a.val, .num n] .shiftRange) ∧
    (o = .vpermq → 255 < n → refuses [.reg d.val, .reg a.val, .num n] .immRange)) ∧
  (o.format = .r3 → ∀ (d a b : Reg), operandsAlias (o.build { d := d, s1 := a, s2 := b, imm8 := 0, imm16 := 0 }) = true →
    refuses [.reg d.val, .reg a.val, .reg b.val] .operandAlias) ∧
  (o.format = .r2 → ∀ (d a : Reg), operandsAlias (o.build { d := d, s1 := a, s2 := 0, imm8 := 0, imm16 := 0 }) = true →
    refuses [.reg d.val, .reg a.val] .operandAlias)

/-- Unlabelled lines, each of one of the 28 instructions. -/
def plainLines (lines : List (Op × List Arg)) : List AsmLine :=
  lines.map fun l => { label := none, stmt := some ((opName l.1).toList, l.2) }

/-- The next turn is a host transaction. -/
def withTurn (s : State) (t : HostTxn) (rest : List Turn) : State := { s with turns := .host t :: rest }

end Sys2Proof.Machine

open Sys2Proof Sys2Proof.Machine

/-! ## Encoding -/

/-- 95_test_vectors.md: words of every format, written out there, decode to the instructions they stand for (R72, R77). -/
def Obligations.WordsOfTheSpecDecode : Prop :=
  decode 0x04000000#32 = .ok .nop ∧ decode 0x08000000#32 = .ok .halt ∧
  decode 0x0C00FFFC#32 = .ok (.jmp 0xFFFC#16) ∧ decode 0x1080FFFA#32 = .ok (.bz 2 0xFFFA#16) ∧
  decode 0x1440FFFE#32 = .ok (.bnz 1 0xFFFE#16) ∧ decode 0x18400002#32 = .ok (.vld 1 2#16) ∧
  decode 0x1CC00003#32 = .ok (.vst 3 3#16) ∧ decode 0x4448C000#32 = .ok (.vadd16 1 2 3) ∧
  decode 0x68C48000#32 = .ok (.vcmpgt16 3 1 2) ∧ decode 0x70C48000#32 = .ok (.vhadd16 3 1 2) ∧
  decode 0x78C48000#32 = .ok (.vshufb 3 1 2) ∧ decode 0x7C4800E4#32 = .ok (.vpermq 1 2 0xE4#8) ∧
  decode 0x90840000#32 = .ok (.vprng 2 1)

/-- Decoding the word of any well-formed instruction gives the instruction back, every operand at every value (R71, R72,
R77). -/
def Obligations.DecodeOfEncode : Prop := ∀ i : Instr, i.wellFormed = true → decode (encode i) = .ok i

/-- A word that decodes has one instruction, which is well-formed and whose word it is; so no two words decode alike, and
FAULT_INSN, written from the instruction, is the fetched word (R81, R33). -/
def Obligations.EncodeOfDecode : Prop :=
  ∀ (w : Word) (i : Instr), decode w = .ok i → i.wellFormed = true ∧ encode i = w

/-- R78: the reserved opcodes are exactly the words that raise ILLEGAL_OPCODE, and a core that fetches one takes that
fault. -/
def Obligations.ReservedOpcodesAreIllegal : Prop :=
  (∀ w : Word, decode w = .error .illegalOpcode ↔
    (opField w).toNat = 0 ∨ (0x08 ≤ (opField w).toNat ∧ (opField w).toNat ≤ 0x0F) ∨ 0x25 ≤ (opField w).toNat) ∧
  decode 0x00000000#32 = .error .illegalOpcode ∧ decode 0xFFFFFFFF#32 = .error .illegalOpcode ∧
  ∀ s : State, CoreMoves s → s.pc.toNat < s.build.imemWords →
    decode (s.imemWord s.pc.toNat) = .error .illegalOpcode →
    step s = .next (s.raise .illegalOpcode (s.imemWord s.pc.toNat))

/-- R79: a word of a defined opcode is free of RESERVED_FIELD exactly when `(w & mask) = match` for its row of
spec/opcode_table.json, and a core that fetches one that is not takes that fault. -/
def Obligations.MaskAndMatchDecideReservedFields : Prop :=
  (∀ (op : Op) (w : Word), opField w = op.code →
    (decode w = .error .reservedField ↔ w &&& op.format.mask ≠ op.matchWord)) ∧
  ∀ s : State, CoreMoves s → s.pc.toNat < s.build.imemWords →
    decode (s.imemWord s.pc.toNat) = .error .reservedField →
    step s = .next (s.raise .reservedField (s.imemWord s.pc.toNat))

/-- R80: IMM_RANGE is raised by the words of VSLL16 and VSRL16 with imm8 > 16 whose must-be-zero bits are zero, and by no
other word; a core that fetches one takes that fault, and the assembler refuses such a shift. -/
def Obligations.OnlyShiftsRaiseImmRange : Prop :=
  (∀ w : Word, decode w = .error .immRange ↔
    (opField w = 0x20#6 ∨ opField w = 0x21#6) ∧ w.extractLsb' 8 10 = 0#10 ∧ 16 < (imm8Field w).toNat) ∧
  (∀ s : State, CoreMoves s → s.pc.toNat < s.build.imemWords →
    decode (s.imemWord s.pc.toNat) = .error .immRange →
    step s = .next (s.raise .immRange (s.imemWord s.pc.toNat))) ∧
  ∀ n : Nat, 16 < n →
    (asmImm8 .vsll16 n).toOption = none ∧ (asmImm8 .vsrl16 n).toOption = none

/-- R53: an image of whole groups of four bytes has one word for each, and byte 4i + j of it becomes bits [8j+7:8j] of word
i. That any other image has no words is the model's choice (notes/assumptions/18). -/
def Obligations.ImageBytesBecomeWords : Prop :=
  (∀ bytes : List Byte, bytes.length % 4 = 0 → ∃ words, packImage bytes = some words) ∧
  (∀ (bytes : List Byte) (words : List Word), packImage bytes = some words →
    bytes.length = 4 * words.length ∧
    ∀ i j, i < words.length → j < 4 →
      (words[i]?.getD 0#32).extractLsb' (8 * j) 8 = bytes[4 * i + j]?.getD 0#8) ∧
  ∀ bytes : List Byte, bytes.length % 4 ≠ 0 → packImage bytes = none

/-! ## Lane-wise instructions -/

/-- R101 to R103: VADD8, VADD16 and VADD64 add lane by lane, mod 2^w. -/
def Obligations.AddsAreLanewise : Prop :=
  TwoSourceRule 0x10#6 .vadd8 (fun a b r => ∀ k, k < 32 → b8 r k = b8 a k + b8 b k) ∧
  TwoSourceRule 0x11#6 .vadd16 (fun a b r => ∀ k, k < 16 → h16 r k = h16 a k + h16 b k) ∧
  TwoSourceRule 0x12#6 .vadd64 (fun a b r => ∀ k, k < 4 → q64 r k = q64 a k + q64 b k)

/-- R104 to R106: VSUB8, VSUB16 and VSUB64 subtract lane by lane, mod 2^w; two equal sources are still checked. -/
def Obligations.SubtractsAreLanewise : Prop :=
  TwoSourceRule 0x13#6 .vsub8 (fun a b r => ∀ k, k < 32 → b8 r k = b8 a k - b8 b k) ∧
  TwoSourceRule 0x14#6 .vsub16 (fun a b r => ∀ k, k < 16 → h16 r k = h16 a k - h16 b k) ∧
  TwoSourceRule 0x15#6 .vsub64 (fun a b r => ∀ k, k < 4 → q64 r k = q64 a k - q64 b k)

/-- R107: VXOR is the bitwise exclusive OR of valid sources, and of a register with itself it gives zero and checks no
VALID bit. -/
def Obligations.XorAndItsZeroingForm : Prop :=
  FormatR3 0x16#6 .vxor ∧
  (∀ d s1 s2 s, s1 ≠ s2 → s.isValid s1 = true → s.isValid s2 = true →
    CompletesWriting (.vxor d s1 s2) s d (fun r => ∀ i, i < 256 →
      r.getLsbD i = ((s.reg s1).getLsbD i ^^ (s.reg s2).getLsbD i))) ∧
  (∀ d r s, CompletesWriting (.vxor d r r) s d (fun x => x = 0#256)) ∧
  ∀ d s1 s2 s, s1 ≠ s2 → s.isValid s1 = false ∨ s.isValid s2 = false →
    exec (.vxor d s1 s2) s = .next (s.raise .uninitRead (packR3 0x16#6 d s1 s2))

/-- R108 and R109: VOR and VAND combine all 256 bits of two distinct sources; one register as both is OPERAND_ALIAS, which
comes before UNINIT_READ. -/
def Obligations.OrAndRequireDistinctSources : Prop :=
  DistinctSourceRule 0x17#6 .vor (fun a b r => ∀ i, i < 256 → r.getLsbD i = (a.getLsbD i || b.getLsbD i)) ∧
  DistinctSourceRule 0x18#6 .vand (fun a b r => ∀ i, i < 256 → r.getLsbD i = (a.getLsbD i && b.getLsbD i))

/-- R110 to R112: VCMPGT8, VCMPGT16 and VCMPGT64 are signed, strict compares that write all-ones or all-zeros lanes. -/
def Obligations.ComparesAreSignedLaneMasks : Prop :=
  TwoSourceRule 0x19#6 .vcmpgt8
    (fun a b r => ∀ k, k < 32 → b8 r k = if (b8 b k).toInt < (b8 a k).toInt then 0xFF#8 else 0#8) ∧
  TwoSourceRule 0x1A#6 .vcmpgt16
    (fun a b r => ∀ k, k < 16 → h16 r k = if (h16 b k).toInt < (h16 a k).toInt then 0xFFFF#16 else 0#16) ∧
  TwoSourceRule 0x1B#6 .vcmpgt64
    (fun a b r => ∀ k, k < 4 → q64 r k = if (q64 b k).toInt < (q64 a k).toInt then 0xFFFFFFFFFFFFFFFF#64 else 0#64)

/-! ## Horizontal add and sign -/

/-- R130 and R131: VHADD16 puts, in each 128-bit half, the four pair sums of a and then the four of b; one register as both
sources is legal. -/
def Obligations.HorizontalAddLayout : Prop :=
  TwoSourceRule 0x1C#6 .vhadd16 (fun a b r => ∀ h j, h < 2 → j < 4 →
    h16 r (8 * h + j) = h16 a (8 * h + 2 * j) + h16 a (8 * h + 2 * j + 1) ∧
    h16 r (8 * h + 4 + j) = h16 b (8 * h + 2 * j) + h16 b (8 * h + 2 * j + 1))

/-- R133: VSIGN16 keeps, zeroes or negates each lane of a by the sign of the same lane of b. -/
def Obligations.SignSelectsKeepZeroOrNegate : Prop :=
  DistinctSourceRule 0x1D#6 .vsign16 (fun a b r => ∀ k, k < 16 →
    (0 < (h16 b k).toInt → h16 r k = h16 a k) ∧
    (h16 b k = 0#16 → h16 r k = 0#16) ∧
    ((h16 b k).toInt < 0 → h16 r k = 0#16 - h16 a k))

/-- R132: the product with the signum is the same function as the three cases, for every a and b. -/
def Obligations.SignumFormAgrees : Prop :=
  (∀ x : Half, (0 < x.toInt → signum x = 1#16) ∧ (x = 0#16 → signum x = 0#16) ∧
    (x.toInt < 0 → (signum x).toInt = -1)) ∧
  ∀ a b : Half, a * signum b = signSelect a b

/-! ## Shuffle and permutation -/

/-- R140: VSHUFB picks result byte i from the same half of the table by the low four bits of control byte i, or gives zero
where the control byte's high bit is set. -/
def Obligations.ShuffleStaysInItsHalf : Prop :=
  DistinctSourceRule 0x1E#6 .vshufb (fun a b r => ∀ h i, h < 2 → i < 16 →
    ((b8 b (16 * h + i)).getLsbD 7 = true → b8 r (16 * h + i) = 0#8) ∧
    ((b8 b (16 * h + i)).getLsbD 7 = false →
      b8 r (16 * h + i) = b8 a (16 * h + (b8 b (16 * h + i)).toNat % 16)))

/-- R141: VPERMQ copies to block k the block of a that bits [2k+1:2k] of imm8 select, for all 256 values of imm8. -/
def Obligations.PermuteSelectsBlocks : Prop :=
  FormatRI 0x1F#6 .vpermq (fun _ => True) ∧
  (∀ d s1 imm8 s, s.isValid s1 = true →
    CompletesWriting (.vpermq d s1 imm8) s d
      (fun r => ∀ k, k < 4 → q64 r k = q64 (s.reg s1) (imm8.toNat / 4 ^ k % 4))) ∧
  ∀ d s1 imm8 s, s.isValid s1 = false →
    exec (.vpermq d s1 imm8) s = .next (s.raise .uninitRead (packRI 0x1F#6 d s1 imm8))

/-- R142: VPERMQ moves the 16-bit lanes in groups of four, in order: lanes 4m to 4m+3 of a become lanes 4k to 4k+3 of the
result, with m = imm8[2k+1:2k]. -/
def Obligations.PermuteMovesGroupsOfFourLanes : Prop :=
  ∀ d s1 imm8 s, s.isValid s1 = true → ∃ t, exec (.vpermq d s1 imm8) s = .next t ∧
    ∀ k j, k < 4 → j < 4 → h16 (t.reg d) (4 * k + j) = h16 (s.reg s1) (4 * (imm8.toNat / 4 ^ k % 4) + j)

/-! ## Shifts, absolute value, broadcast -/

/-- R150 to R152: the shifts of each 16-bit lane by 0 to 16, filling with zeros; 16 gives zero and more faults. -/
def Obligations.ShiftsFillWithZeros : Prop :=
  ShiftRule 0x20#6 .vsll16 (fun n a r => ∀ k, k < 16 → (h16 r k).toNat = (h16 a k).toNat * 2 ^ n % 65536) ∧
  ShiftRule 0x21#6 .vsrl16 (fun n a r => ∀ k, k < 16 → (h16 r k).toNat = (h16 a k).toNat / 2 ^ n)

/-- R153 and R154: the branchless and the conditional form agree; VABS16 negates the negative lanes and keeps the others, so
only the least value gives a negative lane, and the operation is idempotent. -/
def Obligations.AbsoluteValueWrapsAtTheMinimum : Prop :=
  OneSourceRule 0x22#6 .vabs16 (fun a r => ∀ k, k < 16 →
    h16 r k = (if (h16 a k).toInt < 0 then 0#16 - h16 a k else h16 a k) ∧
    ((h16 r k).toInt < 0 ↔ h16 a k = 0x8000#16)) ∧
  (∀ x : Half, (x ^^^ x.sshiftRight 15) - x.sshiftRight 15 = if x.toInt < 0 then 0#16 - x else x) ∧
  (∀ x : Half, absLane x = if x.toInt < 0 then 0#16 - x else x) ∧
  ∀ x : Half, absLane (absLane x) = absLane x

/-- R155: VBCST128 copies the low half into both halves; the high half of the source is ignored. -/
def Obligations.BroadcastCopiesTheLowHalf : Prop :=
  OneSourceRule 0x23#6 .vbcst128 (fun a r => lo128 r = lo128 a ∧ hi128 r = lo128 a)

/-! ## PRNG -/

/-- R160: VPRNG writes the new pair of `PrngStep` to V[s1] and its output, zero-extended, to V[d]. R162 and R163: on the MCG
path both state values are multiplied by PRNG_MULT mod 2^128 and the output is their high 64 bits. -/
def Obligations.McgDraw : Prop :=
  FormatR2 0x24#6 .vprng ∧
  (∀ d s1 s, d ≠ s1 → s.isValid s1 = true →
    ∃ t, exec (.vprng d s1) s = .next t ∧
      t.reg s1 = (prngStep s.build (lo128 (s.reg s1)) (hi128 (s.reg s1))).pair ∧
      t.reg d = (prngStep s.build (lo128 (s.reg s1)) (hi128 (s.reg s1))).out.setWidth 256 ∧
      t.isValid d = true ∧ t.isValid s1 = true ∧ t.pc = s.pc + 1#16 ∧ WritesOnly s t [d, s1]) ∧
  (∀ d s1 s, s.build.prngPath = .mcg → d ≠ s1 → s.isValid s1 = true →
    ∃ t, exec (.vprng d s1) s = .next t ∧
      (lo128 (t.reg s1)).toNat = (lo128 (s.reg s1)).toNat * s.build.prngMult.toNat % 2 ^ 128 ∧
      (hi128 (t.reg s1)).toNat = (hi128 (s.reg s1)).toNat * s.build.prngMult.toNat % 2 ^ 128 ∧
      q64 (t.reg d) 0 = q64 (t.reg s1) 1 ∧ q64 (t.reg d) 1 = q64 (t.reg s1) 3 ∧ hi128 (t.reg d) = 0#128 ∧
      t.isValid d = true ∧ t.isValid s1 = true ∧ t.pc = s.pc + 1#16 ∧ WritesOnly s t [d, s1]) ∧
  (∀ r s, exec (.vprng r r) s = .next (s.raise .operandAlias (packR2 0x24#6 r r))) ∧
  ∀ d s1 s, d ≠ s1 → s.isValid s1 = false →
    exec (.vprng d s1) s = .next (s.raise .uninitRead (packR2 0x24#6 d s1))

/-- R164: on the AES path the draw is one round of s0 under key s1v, the new low half is the output and the new high half
the old low half. -/
def Obligations.AesDraw : Prop :=
  ∀ d s1 s, s.build.prngPath = .aes → d ≠ s1 → s.isValid s1 = true →
    ∃ t, exec (.vprng d s1) s = .next t ∧
      lo128 (t.reg s1) = aesenc (lo128 (s.reg s1)) (hi128 (s.reg s1)) ∧
      hi128 (t.reg s1) = lo128 (s.reg s1) ∧
      lo128 (t.reg d) = aesenc (lo128 (s.reg s1)) (hi128 (s.reg s1)) ∧ hi128 (t.reg d) = 0#128 ∧
      t.isValid d = true ∧ t.isValid s1 = true ∧ t.pc = s.pc + 1#16 ∧ WritesOnly s t [d, s1]

/-- R165, R166, R168: each byte of a round is the MixColumns sum of the S-box bytes that ShiftRows brings together, plus
the key byte; and the published vector. -/
def Obligations.AesRoundByteByByte : Prop :=
  (∀ (x key : V128) (r c : Nat), r < 4 → c < 4 →
    stateByte (aesenc x key) r c =
      gfDouble (sbox (stateByte x r ((c + r) % 4))) ^^^
      gfTriple (sbox (stateByte x ((r + 1) % 4) ((c + (r + 1) % 4) % 4))) ^^^
      sbox (stateByte x ((r + 2) % 4) ((c + (r + 2) % 4) % 4)) ^^^
      sbox (stateByte x ((r + 3) % 4) ((c + (r + 3) % 4) % 4)) ^^^ stateByte key r c) ∧
  (∀ x : Byte, gfDouble x = (x <<< 1) ^^^ (if x.getLsbD 7 then 0x1B#8 else 0#8) ∧ gfTriple x = gfDouble x ^^^ x) ∧
  aesenc 0x7B5B54657374566563746F725D53475D#128 0x48692853686179295B477565726F6E5D#128 =
    0xA8311C2F9FDBA3C58B104B58DED7E595#128

/-- R167: the S-box is the inverse in GF(2^8), 0 for 0, followed by the affine map; and the check values. -/
def Obligations.SboxIsInverseThenAffine : Prop :=
  (∀ x : Byte, ∃ y : Byte, (x = 0#8 → y = 0#8) ∧ (x ≠ 0#8 → gfMul x y = 1#8) ∧
    ∀ i, i < 8 → (sbox x).getLsbD i =
      (y.getLsbD i ^^ y.getLsbD ((i + 4) % 8) ^^ y.getLsbD ((i + 5) % 8) ^^ y.getLsbD ((i + 6) % 8) ^^
        y.getLsbD ((i + 7) % 8) ^^ (0x63#8).getLsbD i)) ∧
  [sbox 0x00#8, sbox 0x01#8, sbox 0x53#8, sbox 0xFF#8] = [0x63#8, 0x7C#8, 0xED#8, 0x16#8] ∧
  (List.range 16).map (fun n => sbox (BitVec.ofNat 8 n)) =
    [0x63#8, 0x7C#8, 0x77#8, 0x7B#8, 0xF2#8, 0x6B#8, 0x6F#8, 0xC5#8,
     0x30#8, 0x01#8, 0x67#8, 0x2B#8, 0xFE#8, 0xD7#8, 0xAB#8, 0x76#8]

/-- R169: what VPRNG writes depends on the state pair's old value and on PRNG_PATH and PRNG_MULT alone: two states that
agree on them agree on the output and on the new pair, whatever else they hold. -/
def Obligations.DrawDependsOnTheStatePairAlone : Prop :=
  ∀ (d s1 d' s1' : Reg) (s s' : State), d ≠ s1 → d' ≠ s1' → s.isValid s1 = true → s'.isValid s1' = true →
    s.reg s1 = s'.reg s1' → s.build.prngPath = s'.build.prngPath → s.build.prngMult = s'.build.prngMult →
    ∃ t t', exec (.vprng d s1) s = .next t ∧ exec (.vprng d' s1') s' = .next t' ∧
      t.reg d = t'.reg d' ∧ t.reg s1 = t'.reg s1'

/-- R170: on the MCG path the zero pair stays zero and gives 0, and each state value keeps its parity where PRNG_MULT is
odd; on the AES path the zero pair gives 0x6363…63. Neither faults. -/
def Obligations.ZeroPairAndParity : Prop :=
  (∀ b : Config.Build, b.prngPath = .mcg → drawFrom b 0#256 = { out := 0#128, pair := 0#256 }) ∧
  (∀ (b : Config.Build) (p : V256), b.legal = true → b.prngPath = .mcg →
    (lo128 (drawFrom b p).pair).getLsbD 0 = (lo128 p).getLsbD 0 ∧
    (hi128 (drawFrom b p).pair).getLsbD 0 = (hi128 p).getLsbD 0) ∧
  (∀ b : Config.Build, b.prngPath = .aes →
    (drawFrom b 0#256).out = 0x63636363636363636363636363636363#128) ∧
  ∀ (d s1 : Reg) (s : State), d ≠ s1 → s.isValid s1 = true → s.reg s1 = 0#256 →
    ∃ t, exec (.vprng d s1) s = .next t ∧ t.state = s.state ∧ t.cause = s.cause ∧
      (s.build.prngPath = .mcg → t.reg s1 = 0#256 ∧ t.reg d = 0#256) ∧
      (s.build.prngPath = .aes → t.reg d = 0x63636363636363636363636363636363#256)

/-! ## Memory -/

/-- R180: VLD loads the 32 bytes at imm16 × 32, little-endian, and sets VALID[d], whatever VALID held; outside DMEM it
takes DMEM_RANGE. -/
def Obligations.LoadReadsThirtyTwoBytes : Prop :=
  FormatB 0x06#6 .vld ∧
  (∀ d imm16 s, effectiveAddress imm16 + 32 ≤ s.build.dmemBytes →
    CompletesWriting (.vld d imm16) s d
      (fun r => ∀ j, j < 32 → b8 r j = s.dmemByte (effectiveAddress imm16 + j))) ∧
  (∀ d imm16 s, s.build.dmemBytes < effectiveAddress imm16 + 32 →
    exec (.vld d imm16) s = .next (s.raise .dmemRange (packB 0x06#6 d imm16))) ∧
  ∀ imm16 : BitVec 16, effectiveAddress imm16 = imm16.toNat * 32

/-- R181: VST stores the 32 bytes of V[d] at imm16 × 32 and nothing else; UNINIT_READ comes before DMEM_RANGE and neither
writes a byte. -/
def Obligations.StoreWritesThirtyTwoBytes : Prop :=
  FormatB 0x07#6 .vst ∧
  (∀ d imm16 s, s.isValid d = true → effectiveAddress imm16 + 32 ≤ s.build.dmemBytes →
    ∃ t, exec (.vst d imm16) s = .next t ∧
      (∀ j, j < 32 → t.dmemByte (effectiveAddress imm16 + j) = b8 (s.reg d) j) ∧
      KeepsDmemOutside s t (effectiveAddress imm16) ∧
      t.pc = s.pc + 1#16 ∧ KeepsRegs s t [] ∧ KeepsRunStatus s t ∧ KeepsOutside s t) ∧
  (∀ d imm16 s, s.isValid d = false →
    exec (.vst d imm16) s = .next (s.raise .uninitRead (packB 0x07#6 d imm16))) ∧
  (∀ d imm16 s, s.isValid d = true → s.build.dmemBytes < effectiveAddress imm16 + 32 →
    exec (.vst d imm16) s = .next (s.raise .dmemRange (packB 0x07#6 d imm16))) ∧
  ∀ imm16 : BitVec 16, effectiveAddress imm16 = imm16.toNat * 32

/-- R54: a register stored and read back is the same, a 16-bit lane's low byte is at EA + 2k, a 64-bit lane's bytes are at
EA + 8k, lowest first, and four 16-bit lanes read as one 64-bit lane in order. -/
def Obligations.StoreThenLoadKeepsEveryView : Prop :=
  (∀ d e imm16 s, s.isValid d = true → effectiveAddress imm16 + 32 ≤ s.build.dmemBytes →
    ∃ t u, exec (.vst d imm16) s = .next t ∧ exec (.vld e imm16) t = .next u ∧ u.reg e = s.reg d ∧
      (∀ k, k < 16 →
        t.dmemByte (effectiveAddress imm16 + 2 * k) = (h16 (s.reg d) k).extractLsb' 0 8 ∧
        t.dmemByte (effectiveAddress imm16 + 2 * k + 1) = (h16 (s.reg d) k).extractLsb' 8 8) ∧
      ∀ k j, k < 4 → j < 8 →
        t.dmemByte (effectiveAddress imm16 + 8 * k + j) = (q64 (s.reg d) k).extractLsb' (8 * j) 8) ∧
  ∀ (x : V256) (k : Nat), k < 4 →
    q64 x k = (h16 x (4 * k + 3) ++ h16 x (4 * k + 2) ++ h16 x (4 * k + 1) ++ h16 x (4 * k) :
      BitVec (16 + 16 + 16 + 16))

/-! ## Control transfer -/

/-- R190: NOP advances the PC and changes nothing else. -/
def Obligations.NopOnlyAdvances : Prop :=
  decode 0x04000000#32 = .ok .nop ∧
  (∀ w, opField w = 0x01#6 → w.extractLsb' 0 26 ≠ 0#26 → decode w = .error .reservedField) ∧
  ∀ s : State, ∃ t, exec .nop s = .next t ∧ t.pc = s.pc + 1#16 ∧ WritesOnly s t []

/-- HALT (R191) makes STATE HALTED, raises DONE and leaves everything else as it is, the PC at its own index. After it the core
takes no further step: that a core turn passes with nothing changed, and that with no turn left the step answers a named
fault, is how the model says so and its choice (notes/assumptions/8 and 10). -/
def Obligations.HaltEndsTheRun : Prop :=
  decode 0x08000000#32 = .ok .halt ∧
  (∀ w, opField w = 0x02#6 → w.extractLsb' 0 26 ≠ 0#26 → decode w = .error .reservedField) ∧
  ∀ s : State, ∃ t, exec .halt s = .next t ∧ t.state = .halted ∧ t.done = true ∧ t.pc = s.pc ∧
    t.cause = s.cause ∧ t.faultPc = s.faultPc ∧ t.faultInsn = s.faultInsn ∧
    KeepsRegs s t [] ∧ KeepsDmem s t ∧ KeepsOutside s t ∧ (s.turns = [] → step t = .fault .coreHalted) ∧
    ∀ rest, s.turns = .core :: rest → step t = .next (turnTaken t rest)

/-- R192: JMP sets the PC to PC plus the signed offset mod 2^16; the target is checked only at the next fetch. -/
def Obligations.JumpAddsTheSignedOffset : Prop :=
  (∀ imm16, decode (packJ 0x03#6 imm16) = .ok (.jmp imm16)) ∧
  (∀ w, opField w = 0x03#6 → w.extractLsb' 16 10 ≠ 0#10 → decode w = .error .reservedField) ∧
  ∀ (imm16 : BitVec 16) (s : State), ∃ t, exec (.jmp imm16) s = .next t ∧
    (t.pc.toNat : Int) = ((s.pc.toNat : Int) + imm16.toInt) % 65536 ∧ WritesOnly s t [] ∧
    (CoreMoves s → s.build.imemWords ≤ t.pc.toNat → step t = .next (t.raise .fetchRange 0#32))

/-- R193 and R194: BZ branches when all 256 bits of V[d] are zero and BNZ when any is one. -/
def Obligations.BranchesTestAllBits : Prop :=
  BranchRule 0x04#6 .bz (fun x => ∀ i, i < 256 → x.getLsbD i = false) ∧
  BranchRule 0x05#6 .bnz (fun x => ∃ i, i < 256 ∧ x.getLsbD i = true)

/-! ## Steps and faults -/

/-- The core's step is the meaning of the word at PC where that decodes, FETCH_RANGE where there is no such word, and the
decoder's fault otherwise, which records what R206 says and changes nothing else (R81, R82, R205, R207); the host's step is
its transaction (R44, R216). Three things are the model's own devices and its choice: the core steps where no turn is left
and where a core turn comes first, which is then used up, and a host turn at the head is that transaction
(notes/assumptions/8), and a word that State.withFetchWord places is the one that runs (notes/assumptions/14). -/
def Obligations.StepRunsTheDecodedInstruction : Prop :=
  (∀ (s u : State) (i : Instr), CoreTurn s u → u.pc.toNat < u.build.imemWords →
    decode (u.imemWord u.pc.toNat) = .ok i → step s = exec i u) ∧
  (∀ s u : State, CoreTurn s u → u.build.imemWords ≤ u.pc.toNat →
    ∃ t, step s = .next t ∧ FaultTaken u t .fetchRange 0#32) ∧
  (∀ (s u : State) (e : DecodeFault), CoreTurn s u → u.pc.toNat < u.build.imemWords →
    decode (u.imemWord u.pc.toNat) = .error e →
    ∃ t, step s = .next t ∧ FaultTaken u t
      (match e with
        | .illegalOpcode => .illegalOpcode
        | .reservedField => .reservedField
        | .immRange => .immRange) (u.imemWord u.pc.toNat)) ∧
  (∀ (s : State) (t : HostTxn) (rest : List Turn), step (withTurn s t rest) = hostAct t (turnTaken s rest)) ∧
  ∀ (s : State) (w : Nat) (i : Instr), 1 ≤ s.build.imemWords → w < 2 ^ 32 →
    decode (BitVec.ofNat 32 w) = .ok i → step (s.withFetchWord 32 w) = exec i (s.withFetchWord 32 w)

/-- R205: a fetch at or above IMEM_WORDS raises FETCH_RANGE with FAULT_PC that PC and FAULT_INSN 0; VLD and VST past the end
of DMEM raise DMEM_RANGE with their own word in FAULT_INSN. -/
def Obligations.RangeFaults : Prop :=
  (∀ s : State, CoreMoves s → s.build.imemWords ≤ s.pc.toNat →
    ∃ t, step s = .next t ∧ t.state = .faulted ∧ t.cause = .fetchRange ∧ t.faultPc = s.pc ∧ t.faultInsn = 0#32) ∧
  ∀ (s : State) (d : Reg) (imm16 : BitVec 16), CoreMoves s → s.pc.toNat < s.build.imemWords →
    s.build.dmemBytes < effectiveAddress imm16 + 32 →
    (s.imemWord s.pc.toNat = packB 0x06#6 d imm16 ∨
      (s.imemWord s.pc.toNat = packB 0x07#6 d imm16 ∧ s.isValid d = true)) →
    ∃ t, step s = .next t ∧ t.state = .faulted ∧ t.cause = .dmemRange ∧ t.faultPc = s.pc ∧
      t.faultInsn = s.imemWord s.pc.toNat

/-- R206 and R207: a core step that ends FAULTED wrote STATE, CAUSE, FAULT_PC and FAULT_INSN as R206 says, with the fetched
word or 0 for FETCH_RANGE, and no vector register, no VALID bit, no DMEM byte and not the PC. The step is any of the core's,
with or without turns left after it, and the list of turns is the model's choice (notes/assumptions/8). -/
def Obligations.FaultsArePrecise : Prop :=
  ∀ s u t : State, CoreTurn s u → step s = .next t → t.state = .faulted →
    t.cause ≠ .none ∧ t.cause ≠ .hostAbort ∧
    FaultTaken u t t.cause (if u.build.imemWords ≤ u.pc.toNat then 0#32 else u.imemWord u.pc.toNat)

/-- R203: OPERAND_ALIAS is raised by VOR, VAND, VSIGN16 and VSHUFB with equal sources and by VPRNG with d = s1, and by no
other instruction and no other registers. -/
def Obligations.OperandAliasExactly : Prop :=
  ∀ (i : Instr) (s t : State), i.wellFormed = true → s.cause ≠ .operandAlias → exec i s = .next t →
    (t.cause = .operandAlias ↔
      (∃ d r, i = .vor d r r) ∨ (∃ d r, i = .vand d r r) ∨ (∃ d r, i = .vsign16 d r r) ∨
      (∃ d r, i = .vshufb d r r) ∨ ∃ r, i = .vprng r r)

/-- R208: of several fault conditions the first of HOST_ABORT, FETCH_RANGE, ILLEGAL_OPCODE, RESERVED_FIELD, IMM_RANGE,
OPERAND_ALIAS, UNINIT_READ and DMEM_RANGE is reported. -/
def Obligations.FaultPriority : Prop :=
  (∀ (s : State) (rest : List Turn) (v : Word), s.state = .running → v.getLsbD 2 = true → v.getLsbD 1 = false →
    v.getLsbD 0 = false →
    step (withTurn s (.writeCr 0x0C v) rest) = .next ((turnTaken s rest).raise .hostAbort 0#32)) ∧
  ∀ s : State, CoreMoves s →
    (s.build.imemWords ≤ s.pc.toNat → step s = .next (s.raise .fetchRange 0#32)) ∧
    ∀ w : Word, s.pc.toNat < s.build.imemWords → s.imemWord s.pc.toNat = w →
      ((∀ op : Op, opField w ≠ op.code) → step s = .next (s.raise .illegalOpcode w)) ∧
      ∀ op : Op, opField w = op.code →
        (w &&& op.format.mask ≠ op.matchWord → step s = .next (s.raise .reservedField w)) ∧
        (w &&& op.format.mask = op.matchWord →
          (op = .vsll16 ∨ op = .vsrl16 → 16 < (imm8Field w).toNat → step s = .next (s.raise .immRange w)) ∧
          ∀ i : Instr, i.wellFormed = true → w = encode i →
            (operandsAlias i = true → step s = .next (s.raise .operandAlias w)) ∧
            (operandsAlias i = false → (∃ r ∈ sources i, s.isValid r = false) →
              step s = .next (s.raise .uninitRead w)) ∧
            ∀ d imm16, i = .vld d imm16 ∨ i = .vst d imm16 → (∀ r ∈ sources i, s.isValid r = true) →
              s.build.dmemBytes < effectiveAddress imm16 + 32 → step s = .next (s.raise .dmemRange w))

/-- R29: a core step changes STATE, CAUSE, FAULT_PC and FAULT_INSN only on HALT or a fault, changes DMEM only by VST and the
registers only by its destinations, and changes nothing outside V, VALID, PC, DMEM and those four. The step is any of the
core's, with or without turns left after it, and the list of turns is the model's choice (notes/assumptions/8). -/
def Obligations.CoreStepsWriteOnlyTheirState : Prop :=
  ∀ s u t : State, CoreTurn s u → step s = .next t →
    KeepsOutside u t ∧
    ((KeepsRunStatus u t ∧ t.state = .running) ∨
      (decode (u.imemWord u.pc.toNat) = .ok .halt ∧ t.state = .halted ∧ t.cause = u.cause ∧
        t.faultPc = u.faultPc ∧ t.faultInsn = u.faultInsn) ∨
      t.state = .faulted) ∧
    (KeepsDmem u t ∨ ∃ d imm16, decode (u.imemWord u.pc.toNat) = .ok (.vst d imm16) ∧
      KeepsDmemOutside u t (effectiveAddress imm16)) ∧
    (KeepsRegs u t [] ∨ ∃ i, decode (u.imemWord u.pc.toNat) = .ok i ∧ KeepsRegs u t (destinations i))

/-- R24: a step that is not a HOST_RESET clears no VALID bit, a register whose contents it changes is valid after it, and a
HOST_RESET clears every bit. -/
def Obligations.OnlyResetClearsValid : Prop :=
  (∀ s t : State, step s = .next t → (∀ rest, s.turns ≠ .host .reset :: rest) →
    ∀ r, (s.isValid r = true → t.isValid r = true) ∧ (t.reg r ≠ s.reg r → t.isValid r = true)) ∧
  ∀ (s : State) (rest : List Turn), ∃ t, step (withTurn s .reset rest) = .next t ∧ ∀ r, t.isValid r = false

/-- R30: the only things that change STATE are reset, START, HALT, a fault or an ABORT, and CLEAR, each to its own value. -/
def Obligations.WhatChangesState : Prop :=
  ∀ s t : State, step s = .next t → t.state ≠ s.state →
    (∃ rest, s.turns = .host .reset :: rest ∧ t.state = .idle) ∨
    (∃ v rest, s.turns = .host (.writeCr 0x0C v) :: rest ∧
      ((v.getLsbD 0 = true ∧ t.state = .running) ∨
        (v.getLsbD 1 = true ∧ s.state ≠ .idle ∧ t.state = .idle) ∨
        (v.getLsbD 2 = true ∧ s.state = .running ∧ t.state = .faulted))) ∨
    (s.state = .running ∧ (∀ h rest, s.turns ≠ .host h :: rest) ∧
      ((decode (s.imemWord s.pc.toNat) = .ok .halt ∧ t.state = .halted) ∨ (t.state = .faulted ∧ t.cause ≠ .none)))

/-- IDLE, HALTED and FAULTED are quiescent: the core takes no step in them (R209, R227). How the model says so is its choice:
with no turn left the step answers a named fault (notes/assumptions/10), and a core turn passes with all other state
unchanged (notes/assumptions/8). -/
def Obligations.QuiescentStatesTakeNoCoreStep : Prop :=
  ∀ s : State, s.state ≠ .running →
    (s.turns = [] → ∃ f, step s = .fault f ∧
      f = (match s.state with
        | .idle => Fault.coreIdle
        | .halted => Fault.coreHalted
        | _ => Fault.coreFaulted s.cause)) ∧
    ∀ rest, s.turns = .core :: rest → step s = .next (turnTaken s rest)

/-! ## The host -/

/-- R218: START acts only from IDLE, HALTED or FAULTED: PC from ENTRY_PC, CAUSE NONE, STATE RUNNING, all else kept; while
RUNNING it has no effect. -/
def Obligations.StartBeginsARun : Prop :=
  ∀ (s : State) (rest : List Turn) (v : Word), v.getLsbD 0 = true → v.getLsbD 1 = false → v.getLsbD 2 = false →
    (s.state = .running → step (withTurn s (.writeCr 0x0C v) rest) = .next (turnTaken s rest)) ∧
    (s.state ≠ .running → ∃ t, step (withTurn s (.writeCr 0x0C v) rest) = .next t ∧
      t.pc = s.entryPc ∧ t.cause = .none ∧ t.state = .running ∧ t.faultPc = s.faultPc ∧
      t.faultInsn = s.faultInsn ∧ t.v = s.v ∧ t.valid = s.valid ∧ t.imem = s.imem ∧ t.dmem = s.dmem ∧
      t.entryPc = s.entryPc ∧ t.epoch = s.epoch ∧ t.build = s.build)

/-- R219: CLEAR acts only from HALTED or FAULTED: STATE IDLE and CAUSE NONE, nothing else; otherwise no effect. -/
def Obligations.ClearReturnsToIdle : Prop :=
  ∀ (s : State) (rest : List Turn) (v : Word), v.getLsbD 0 = false → v.getLsbD 1 = true → v.getLsbD 2 = false →
    (s.state = .idle ∨ s.state = .running →
      step (withTurn s (.writeCr 0x0C v) rest) = .next (turnTaken s rest)) ∧
    (s.state = .halted ∨ s.state = .faulted →
      step (withTurn s (.writeCr 0x0C v) rest) =
        .next { turnTaken s rest with state := .idle, cause := .none })

/-- R220: ABORT while RUNNING raises HOST_ABORT at once, with FAULT_PC the next instruction and FAULT_INSN 0; in any other
state it has no effect. -/
def Obligations.AbortFaultsAtTheBoundary : Prop :=
  ∀ (s : State) (rest : List Turn) (v : Word), v.getLsbD 0 = false → v.getLsbD 1 = false → v.getLsbD 2 = true →
    (s.state = .running → ∃ t, step (withTurn s (.writeCr 0x0C v) rest) = .next t ∧
      t.state = .faulted ∧ t.cause = .hostAbort ∧ t.faultPc = s.pc ∧ t.faultInsn = 0#32 ∧ t.pc = s.pc ∧
      t.v = s.v ∧ t.valid = s.valid ∧ t.imem = s.imem ∧ t.dmem = s.dmem ∧ t.entryPc = s.entryPc) ∧
    (s.state ≠ .running → step (withTurn s (.writeCr 0x0C v) rest) = .next (turnTaken s rest))

/-- R38: a write of CTRL acts as the writes of its bits one after the other, ABORT, then CLEAR, then START; a bit written
as 0 and bits [31:3] have no effect; CTRL reads 0. -/
def Obligations.CtrlActsBitByBit : Prop :=
  (∀ (s : State) (v : Word), ∃ a c, hostAct (.writeCr 0x0C (v &&& 4#32)) s = .next a ∧
    hostAct (.writeCr 0x0C (v &&& 2#32)) a = .next c ∧
    hostAct (.writeCr 0x0C (v &&& 1#32)) c = hostAct (.writeCr 0x0C v) s) ∧
  (∀ (s : State) (v : Word), v &&& 7#32 = 0#32 → hostAct (.writeCr 0x0C v) s = .next s) ∧
  ∀ s : State, s.readCr 0x0C = 0#32

/-- What the host reads at every offset, for every legal build (R35 to R37, R39 to R42, the causes by the numbers of R201),
which writes have no effect, and the write of ENTRY_PC (R34). That every unlisted multiple of 4 reads 0, without an end of
the window, and that a misaligned access is refused by name is the model's choice (notes/assumptions/16). -/
def Obligations.ControlRegisterReads : Prop :=
  (∀ s : State, s.build.legal = true →
    s.readCr 0x00 = (if s.build.prngPath = .aes then 1#32 else 0#32) ∧
    (s.readCr 0x04).toNat = s.build.imemWords ∧ (s.readCr 0x08).toNat = s.build.dmemBytes ∧
    s.readCr 0x0C = 0#32 ∧
    (s.readCr 0x10).toNat = (match s.state with
      | .idle => 0
      | .running => 1
      | .halted => 2
      | .faulted => 3) ∧
    (s.readCr 0x14).toNat = (match s.cause with
      | .none => 0
      | .illegalOpcode => 1
      | .reservedField => 2
      | .immRange => 3
      | .operandAlias => 4
      | .uninitRead => 5
      | .fetchRange => 6
      | .dmemRange => 7
      | .hostAbort => 8) ∧
    (s.readCr 0x18).toNat = s.entryPc.toNat ∧
    (s.readCr 0x1C).toNat = s.pc.toNat ∧ (s.readCr 0x20).toNat = s.faultPc.toNat ∧ s.readCr 0x24 = s.faultInsn ∧
    (∀ i, i < 32 → (s.readCr 0x28).getLsbD i = if h : i < 16 then s.isValid ⟨i, h⟩ else false) ∧
    (s.readCr 0x2C).toNat = s.build.prngMult.toNat % 2 ^ 32 ∧
    (s.readCr 0x30).toNat = s.build.prngMult.toNat / 2 ^ 32 ∧ (s.readCr 0x2C).getLsbD 0 = true ∧
    ∀ o, 0x30 < o → s.readCr o = 0#32) ∧
  (∀ (s : State) (o : Nat), o % 4 = 0 → hostAct (.readCr o) s = .next (s.reply (.cr (s.readCr o)))) ∧
  (∀ (s : State) (o : Nat) (v : Word), o % 4 = 0 → o ≠ 0x0C → o ≠ 0x18 → hostAct (.writeCr o v) s = .next s) ∧
  (∀ (s : State) (v : Word), s.state ≠ .running →
    hostAct (.writeCr 0x18 v) s = .next { s with entryPc := v.setWidth 16 }) ∧
  ∀ (s : State) (o : Nat) (v : Word), o % 4 ≠ 0 →
    hostAct (.readCr o) s = .refused (.misalignedControlAccess o) ∧
    hostAct (.writeCr o v) s = .refused (.misalignedControlAccess o)

/-- R221: while RUNNING, writes of IMEM, DMEM, V and ENTRY_PC have no effect, reads of IMEM, DMEM and V return 0, and
control-register reads and CTRL writes act normally. -/
def Obligations.RunningCoreIsUndisturbed : Prop :=
  ∀ s : State, s.state = .running →
    (∀ i w, hostAct (.writeImem i w) s = .next s) ∧ (∀ a b, hostAct (.writeDmem a b) s = .next s) ∧
    (∀ i x, hostAct (.writeV i x) s = .next s) ∧ (∀ v, hostAct (.writeCr 0x18 v) s = .next s) ∧
    (∀ i, hostAct (.readImem i) s = .next (s.reply (.imem 0#32))) ∧
    (∀ a, hostAct (.readDmem a) s = .next (s.reply (.dmem 0#8))) ∧
    (∀ i, hostAct (.readV i) s = .next (s.reply (.v 0#256))) ∧
    (∀ o, o % 4 = 0 → hostAct (.readCr o) s = .next (s.reply (.cr (s.readCr o)))) ∧
    (∀ v, hostAct (.writeCr 0x0C v) s = .next (s.writeCtrl v)) ∧
    ∃ t, hostAct (.writeCr 0x0C 4#32) s = .next t ∧ t.state = .faulted ∧ t.cause = .hostAbort

/-- R216 and R217: while the core is not RUNNING, a word, a byte or a register the host writes is what its read transaction
returns after it, and nothing else changes. A read in range returns the word, the byte or the register that stands there.
A register with VALID = 0 is read too, and its value is left free. -/
def Obligations.HostWritesReadBack : Prop :=
  ∀ s : State, s.state ≠ .running →
    (∀ i w, i < s.build.imemWords → ∃ t, hostAct (.writeImem i w) s = .next t ∧
      hostAct (.readImem i) t = .next (t.reply (.imem w)) ∧ t.imemWord i = w ∧
      (∀ j, j ≠ i → t.imemWord j = s.imemWord j) ∧ KeepsDmem s t ∧ KeepsRegs s t [] ∧ t.pc = s.pc ∧
      KeepsRunStatus s t ∧ t.entryPc = s.entryPc ∧ t.build = s.build ∧ t.turns = s.turns ∧
      t.replies = s.replies ∧ t.epoch = s.epoch) ∧
    (∀ a b, a < s.build.dmemBytes → ∃ t, hostAct (.writeDmem a b) s = .next t ∧
      hostAct (.readDmem a) t = .next (t.reply (.dmem b)) ∧ t.dmemByte a = b ∧
      (∀ c, c ≠ a → t.dmemByte c = s.dmemByte c) ∧ KeepsRegs s t [] ∧ t.pc = s.pc ∧
      KeepsRunStatus s t ∧ KeepsOutside s t) ∧
    (∀ (r : Reg) (x : V256), ∃ t, hostAct (.writeV r.val x) s = .next t ∧
      hostAct (.readV r.val) t = .next (t.reply (.v x)) ∧ t.reg r = x ∧ t.isValid r = true ∧ t.pc = s.pc ∧
      WritesOnly s t [r]) ∧
    (∀ i, i < s.build.imemWords → hostAct (.readImem i) s = .next (s.reply (.imem (s.imemWord i)))) ∧
    (∀ a, a < s.build.dmemBytes → hostAct (.readDmem a) s = .next (s.reply (.dmem (s.dmemByte a)))) ∧
    (∀ r : Reg, s.isValid r = true → hostAct (.readV r.val) s = .next (s.reply (.v (s.reg r)))) ∧
    (∀ r : Reg, s.isValid r = false → ∃ x, hostAct (.readV r.val) s = .next (s.reply (.v x))) ∧
    ∀ x : Reply, (s.reply x).replies = x :: s.replies ∧ KeepsRegs s (s.reply x) [] ∧ KeepsDmem s (s.reply x) ∧
      KeepsRunStatus s (s.reply x) ∧ (s.reply x).pc = s.pc ∧ (s.reply x).entryPc = s.entryPc ∧
      (∀ i, (s.reply x).imemWord i = s.imemWord i) ∧ (s.reply x).build = s.build ∧
      (s.reply x).turns = s.turns ∧ (s.reply x).epoch = s.epoch

/-- R217: an index, an address or a register number out of range writes nothing and reads 0. -/
def Obligations.HostAccessOutOfRange : Prop :=
  ∀ s : State, s.state ≠ .running →
    (∀ i w, s.build.imemWords ≤ i → hostAct (.writeImem i w) s = .next s ∧
      hostAct (.readImem i) s = .next (s.reply (.imem 0#32))) ∧
    (∀ a b, s.build.dmemBytes ≤ a → hostAct (.writeDmem a b) s = .next s ∧
      hostAct (.readDmem a) s = .next (s.reply (.dmem 0#8))) ∧
    ∀ i x, 15 < i → hostAct (.writeV i x) s = .next s ∧ hostAct (.readV i) s = .next (s.reply (.v 0#256))

/-- R46: the state after reset, for every build: every value the rule gives. The build parameters are hardwired. -/
def Obligations.ResetValues : Prop :=
  ∀ (b : Config.Build) (n : Nat),
    (State.resetOf b n).valid = 0#16 ∧ (State.resetOf b n).pc = 0#16 ∧ (State.resetOf b n).state = .idle ∧
    (State.resetOf b n).cause = .none ∧ (State.resetOf b n).faultPc = 0#16 ∧
    (State.resetOf b n).faultInsn = 0#32 ∧ (State.resetOf b n).entryPc = 0#16 ∧
    (State.resetOf b n).build = b ∧ (∀ r, (State.resetOf b n).isValid r = false)

/-- R240: HOST_RESET in any STATE gives every piece of state its reset value, abandons the run with no fault recorded and
leaves the build parameters. No byte or word keeps a value the host or a VST wrote: each is a new free value, which is the
model's reading of R242 and R68 (notes/assumptions/15). -/
def Obligations.HostResetFromAnyState : Prop :=
  ∀ (s : State) (rest : List Turn), ∃ t, step (withTurn s .reset rest) = .next t ∧
    t.valid = 0#16 ∧ t.pc = 0#16 ∧ t.state = .idle ∧ t.cause = .none ∧ t.faultPc = 0#16 ∧ t.faultInsn = 0#32 ∧
    t.entryPc = 0#16 ∧ t.build = s.build ∧ (∀ r, t.isValid r = false) ∧
    (∀ a, t.dmemByte a = Config.dmemAtReset (s.epoch + 1) a) ∧
    ∀ i, t.imemWord i = Config.imemAtReset (s.epoch + 1) i

/-- R243: from reset, the boot sequence brings the machine to RUNNING at the entry point with the program's words in IMEM from
0 on, the bytes in DMEM from `base` on, and every register of step 4 as its last HOST_WRITE_V wrote it, no other register
valid. The list of turns that stands for the sequence, in one order of its steps 2 to 5, is the model's choice
(notes/assumptions/14). -/
def Obligations.BootSequenceStartsTheProgram : Prop :=
  ∀ (b : Config.Build) (words : List Word) (base : Nat) (bytes : List Byte) (regs : List (Nat × V256)) (entry : Pc),
    words.length ≤ b.imemWords → base + bytes.length ≤ b.dmemBytes →
    ∃ t, Sys2Proof.core.run (bootTurns words base bytes regs entry).length
        { State.resetOf b 0 with turns := bootTurns words base bytes regs entry } = .next t ∧
      CoreMoves t ∧ t.pc = entry ∧ t.entryPc = entry ∧ t.cause = .none ∧ t.build = b ∧
      (∀ i, i < words.length → t.imemWord i = words[i]?.getD 0#32) ∧
      (∀ j, j < bytes.length → t.dmemByte (base + j) = bytes[j]?.getD 0#8) ∧
      (∀ r : Reg, t.isValid r = regs.any fun p => p.1 == r.val) ∧
      ∀ (r : Reg) (p : Nat × V256), (regs.reverse.find? fun q => q.1 == r.val) = some p → t.reg r = p.2

/-! ## The assembler -/

/-- R87: the expansions; `vmov` copies, each `vneg*` computes 0 − a mod 2^w in every lane, so the least value maps to
itself, and leaves vT zero unless T = D; a `vneg*` with T = A is refused. -/
def Obligations.PseudoInstructionsComputeWhatTheyName : Prop :=
  (∀ (d a : Reg) (s : State), s.isValid a = true →
    CompletesWriting (.vpermq d a 0xE4#8) s d (fun r => r = s.reg a)) ∧
  ∀ (imemWords pc : Nat) (labels : List (Name × Nat)) (d a t : Reg),
    (expand imemWords labels pc .vzero [.reg d.val]).toOption = some [.vxor d d d] ∧
    (expand imemWords labels pc .vmov [.reg d.val, .reg a.val]).toOption = some [.vpermq d a 0xE4#8] ∧
    (∀ n, n < 256 → (expand imemWords labels pc .vperm4x16 [.reg d.val, .reg a.val, .num n]).toOption =
      some [.vpermq d a (BitVec.ofNat 8 n)]) ∧
    (∀ target, expand imemWords labels pc .b [target] = expand imemWords labels pc (.op .jmp) [target]) ∧
    (∀ m, m = .vneg8 ∨ m = .vneg16 ∨ m = .vneg64 →
      expand imemWords labels pc m [.reg d.val, .reg a.val, .reg a.val] = .error .negAlias) ∧
    (t ≠ a →
      (expand imemWords labels pc .vneg8 [.reg d.val, .reg a.val, .reg t.val]).toOption =
        some [.vxor t t t, .vsub8 d t a] ∧
      (expand imemWords labels pc .vneg16 [.reg d.val, .reg a.val, .reg t.val]).toOption =
        some [.vxor t t t, .vsub16 d t a] ∧
      (expand imemWords labels pc .vneg64 [.reg d.val, .reg a.val, .reg t.val]).toOption =
        some [.vxor t t t, .vsub64 d t a] ∧
      ∀ s : State, s.isValid a = true → ∃ u v8 v16 v64, exec (.vxor t t t) s = .next u ∧
        exec (.vsub8 d t a) u = .next v8 ∧ (∀ k, k < 32 → b8 (v8.reg d) k = 0#8 - b8 (s.reg a) k) ∧
        exec (.vsub16 d t a) u = .next v16 ∧ (∀ k, k < 16 → h16 (v16.reg d) k = 0#16 - h16 (s.reg a) k) ∧
        exec (.vsub64 d t a) u = .next v64 ∧ (∀ k, k < 4 → q64 (v64.reg d) k = 0#64 - q64 (s.reg a) k) ∧
        (t ≠ d → v8.reg t = 0#256 ∧ v16.reg t = 0#256 ∧ v64.reg t = 0#256))

/-- R86: a target is accepted exactly when it can be encoded, and an accepted target is the one the branch reaches, the offset
taken mod 2^16. In an IMEM of at most 32768 words the signed difference must have 16 bits, and in a larger one any target
of 16 bits is accepted. -/
def Obligations.AssembledTargetsAreReached : Prop :=
  (∀ (imemWords pc : Nat) (labels : List (Name × Nat)) (a : Arg) (n : Nat), targetIndex labels a = .ok n →
    ((∃ imm16, asmTarget imemWords labels pc a = .ok imm16) ↔
      if imemWords ≤ 32768 then -32768 ≤ (n : Int) - pc ∧ (n : Int) - pc ≤ 32767 else n ≤ 65535) ∧
    ((¬∃ imm16, asmTarget imemWords labels pc a = .ok imm16) →
      asmTarget imemWords labels pc a = .error .targetRange)) ∧
  ∀ (imemWords pc : Nat) (labels : List (Name × Nat)) (a : Arg) (imm16 : BitVec 16) (n : Nat),
    pc < 65536 → n < 65536 → targetIndex labels a = .ok n → asmTarget imemWords labels pc a = .ok imm16 →
    branchTarget (BitVec.ofNat 16 pc) imm16 = BitVec.ofNat 16 n

/-- For the 28 instructions: every operand form of R84 and R85 is accepted where R88 lets it be and refused by name where it
does not, and every mnemonic has its name (R83); `vperm4x16` bounds its immediate alike, and no line of an instruction or a
pseudo-instruction that names a register outside v0 to v15 is accepted. Unlabelled lines that each hold one of the 28
instructions assemble to the list of their instructions when each is accepted, and else the first that is not is refused by
name and line (R88). That the first instruction has word index 0 is the model's choice (notes/assumptions/23), and so are
the counting of lines from 1 and that a program may be longer than IMEM (notes/assumptions/19), and which refusal is named
where a line or a program has several (notes/assumptions/24). No instruction of a program
that `assemble` accepts, whatever its lines, is one whose word the decoder or the alias check refuses (R88): each decodes
back and has distinct operands where they must be. -/
def Obligations.AssembledProgramsNeverFaultStatically : Prop :=
  (∀ (imemWords pc : Nat) (labels : List (Name × Nat)) (o : Op),
    AcceptsOperandForms imemWords pc labels o ∧ RefusesOperandForms imemWords pc labels o) ∧
  (∀ (imemWords pc : Nat) (labels : List (Name × Nat)) (d a : Reg) (n : Nat), 255 < n →
    expand imemWords labels pc .vperm4x16 [.reg d.val, .reg a.val, .num n] = .error .immRange) ∧
  (∀ (imemWords pc : Nat) (labels : List (Name × Nat)) (m : Mnemonic) (args : List Arg) (n : Nat),
    .reg n ∈ args → 15 < n → ∃ e, expand imemWords labels pc m args = .error e) ∧
  (∀ o : Op, Mnemonic.ofName (opName o).toList = some (.op o)) ∧
  (∀ (imemWords : Nat) (lines : List (Op × List Arg)) (is : List Instr), is.length = lines.length →
    (∀ k (h : k < lines.length) (h' : k < is.length),
      asmOp imemWords [] k lines[k].1 lines[k].2 = .ok is[k]) →
    assemble imemWords (plainLines lines) = .ok is) ∧
  (∀ (imemWords : Nat) (lines : List (Op × List Arg)) (k : Nat) (h : k < lines.length) (e : AsmError),
    (∀ j (hj : j < k), ∃ i, asmOp imemWords [] j lines[j].1 lines[j].2 = .ok i) →
    asmOp imemWords [] k lines[k].1 lines[k].2 = .error e →
    assemble imemWords (plainLines lines) = .error (k + 1, e)) ∧
  ∀ (imemWords : Nat) (ls : List AsmLine) (is : List Instr), assemble imemWords ls = .ok is →
    ∀ i ∈ is, decode (encode i) = .ok i ∧ operandsAlias i = false

/-! ## Headlines -/

/-- The state after reset meets the invariant, for every legal build; State.reset is that of the reference build, which is
the model's choice (notes/assumptions/2). -/
def Obligations.ResetMeetsTheInvariant : Prop :=
  (∀ (b : Config.Build) (n : Nat), b.legal = true → (State.resetOf b n).Inv) ∧ State.reset.Inv ∧
  State.reset = State.resetOf Config.Build.reference 0

/-- Every step, of the core or of the host, keeps the invariant: a legal build, both memories in canonical form within
their bounds, and CAUSE NONE exactly when STATE is not FAULTED (R8, R31, R51, R52). -/
def Obligations.StepKeepsTheInvariant : Prop := ∀ s t : State, s.Inv → step s = .next t → t.Inv

/-- What a register holds while its VALID bit is 0 reaches nothing: two states that differ in such contents alone step to
outcomes that differ so alone (R25, R46). The spec leaves the contents and the host's read of them unspecified (R217): that
HOST_READ_V answers one free value in both states, and not the contents, is the model's choice (notes/assumptions/6, and 3
for the contents at reset). -/
def Obligations.UnwrittenRegistersAreInvisible : Prop :=
  ∀ s t : State, SameWhereValid s t → OutcomesSameWhereValid (step s) (step t)
end

