-- ==== Sys2Proof/Laws/Assembler.lean ====
section
/-! SUPPORT. What the assembler's operand functions answer (30_encoding.md R83 to R88). -/

namespace Sys2Proof.Machine

@[simp] theorem asmReg_val (r : Reg) : asmReg r.val = .ok r := by simp [asmReg]

/-- A register name outside v0 to v15 is refused (R88). -/
theorem asmReg_of_gt {n : Nat} (h : 15 < n) : asmReg n = .error .registerName := by
  simp only [asmReg, dif_neg (show ¬n < 16 by omega)]

theorem asmReg_eq_ok {n : Nat} {r : Reg} (h : asmReg n = .ok r) : n = r.val := by
  unfold asmReg at h
  split at h
  · cases h; rfl
  · cases h

theorem asmDistinct_eq_ok {i j : Instr} (h : asmDistinct i = .ok j) : j = i ∧ operandsAlias i = false := by
  unfold asmDistinct at h
  split at h
  · cases h
  · cases h; exact ⟨rfl, Bool.eq_false_of_not_eq_true ‹_›⟩

/-- A line's instruction is built from its fields, and its operands are distinct where they must be. -/
theorem asmOp_eq_ok {imemWords pc : Nat} {labels : List (Name × Nat)} {o : Op} {args : List Arg} {i : Instr}
    (h : asmOp imemWords labels pc o args = .ok i) :
    ∃ f, asmFields imemWords labels pc o args = .ok f ∧ i = o.build f ∧ operandsAlias i = false := by
  simp only [asmOp, bind, Except.bind] at h
  split at h
  · cases h
  · obtain ⟨rfl, hd⟩ := asmDistinct_eq_ok h
    exact ⟨_, ‹_›, rfl, hd⟩

/-- Text that reads as a register is `v` and the digits of its number, with no leading zero. -/
theorem parseArg_eq_reg {cs : List Char} {n : Nat} (h : parseArg cs = .ok (.reg n)) :
    ∃ ds, cs = 'v' :: ds ∧ digits 10 ds = some n ∧ isPlainNumeral ds = true := by
  unfold parseArg at h
  split at h
  · split at h
    · split at h
      · cases h; exact ⟨_, rfl, ‹_›, ‹_›⟩
      · cases h
    · split at h <;> cases h
  · split at h
    · cases h
    · split at h <;> cases h

end Sys2Proof.Machine
end

