-- ==== Sys2Proof/Laws/Lanes.lean ====
section
/-! SUPPORT. Lanes: the bits of a value built lane by lane, each lane of it, and that a value is its lanes. -/

namespace Sys2Proof.Machine

@[simp] theorem getLsbD_laneOf {W : Nat} (w : Nat) (x : BitVec W) (k i : Nat) :
    (laneOf w x k).getLsbD i = (decide (i < w) && x.getLsbD (w * k + i)) := by
  simp [laneOf, BitVec.getLsbD_extractLsb']

/-- Bit i of a value built from lanes is bit `i % w` of lane `i / w`. -/
theorem getLsbD_lanesOf (W w : Nat) (hw : 0 < w) (f : Nat → BitVec w) (n i : Nat) :
    (lanesOf W w f n).getLsbD i = (decide (i < W) && (decide (i < w * n) && (f (i / w)).getLsbD (i % w))) := by
  induction n with
  | zero => simp [lanesOf]
  | succ n ih =>
    have hdiv := Nat.div_add_mod i w
    have hmod := Nat.mod_lt i hw
    have hmul : w * (n + 1) = w * n + w := Nat.mul_succ w n
    rw [lanesOf, BitVec.getLsbD_or, ih, BitVec.getLsbD_shiftLeft, BitVec.getLsbD_setWidth]
    by_cases hW : i < W
    · by_cases h1 : i < w * n
      · have h2 : i < w * (n + 1) := by omega
        simp [hW, h1, h2]
      · by_cases h2 : i < w * (n + 1)
        · have hq : i / w = n := Nat.div_eq_of_lt_le (by rw [Nat.mul_comm]; omega) (by rw [Nat.mul_comm]; omega)
          have hr : i - w * n = i % w := by rw [hq] at hdiv; omega
          have hlt : i % w < W := by omega
          simp [hW, h1, h2, hq, hr, hlt]
        · have h3 : w ≤ i - w * n := by omega
          simp [hW, h1, h2, BitVec.getLsbD_of_ge _ _ h3]
    · simp [hW]

/-- Lane k of a value built from lanes is the lane it was built from. -/
theorem laneOf_lanesOf (W w : Nat) (f : Nat → BitVec w) (n k : Nat) (hk : k < n) (hn : w * n ≤ W) :
    laneOf w (lanesOf W w f n) k = f k := by
  apply BitVec.eq_of_getLsbD_eq
  intro i hi
  have hw : 0 < w := by omega
  have hkn : w * k + w ≤ w * n := by rw [← Nat.mul_succ]; exact Nat.mul_le_mul_left w hk
  have hq : (w * k + i) / w = k := by rw [Nat.mul_add_div hw, Nat.div_eq_of_lt hi, Nat.add_zero]
  have hr : (w * k + i) % w = i := by rw [Nat.mul_add_mod, Nat.mod_eq_of_lt hi]
  rw [getLsbD_laneOf, getLsbD_lanesOf W w hw, hq, hr]
  have h1 : w * k + i < W := by omega
  have h2 : w * k + i < w * n := by omega
  simp [hi, h1, h2]

@[simp] theorem b8_lanes8 (f : Nat → Byte) (k : Nat) (h : k < 32) : b8 (lanes8 f) k = f k :=
  laneOf_lanesOf 256 8 f 32 k h (by decide)

@[simp] theorem h16_lanes16 (f : Nat → Half) (k : Nat) (h : k < 16) : h16 (lanes16 f) k = f k :=
  laneOf_lanesOf 256 16 f 16 k h (by decide)

@[simp] theorem q64_lanes64 (f : Nat → Quad) (k : Nat) (h : k < 4) : q64 (lanes64 f) k = f k :=
  laneOf_lanesOf 256 64 f 4 k h (by decide)

/-- Two values with the same lanes are equal. -/
theorem eq_of_lanes (W w n : Nat) (hw : 0 < w) (hn : w * n = W) (x y : BitVec W)
    (h : ∀ k, k < n → laneOf w x k = laneOf w y k) : x = y := by
  apply BitVec.eq_of_getLsbD_eq
  intro i hi
  have hq : i / w < n := Nat.div_lt_of_lt_mul (by omega)
  have hbit := congrArg (fun z => z.getLsbD (i % w)) (h (i / w) hq)
  have hmod := Nat.mod_lt i hw
  simp only [getLsbD_laneOf, hmod, decide_true, Bool.true_and, Nat.div_add_mod] at hbit
  exact hbit

/-- A value is built from its own lanes. -/
theorem lanesOf_laneOf (W w n : Nat) (hw : 0 < w) (hn : w * n = W) (x : BitVec W) :
    lanesOf W w (fun k => laneOf w x k) n = x :=
  eq_of_lanes W w n hw hn _ _ fun k hk => laneOf_lanesOf W w _ n k hk (by omega)

/-- The bits of a value joined from two halves. -/
theorem getLsbD_joinHalves (hi lo : V128) (i : Nat) :
    (joinHalves hi lo).getLsbD i = if i < 128 then lo.getLsbD i else hi.getLsbD (i - 128) :=
  BitVec.getLsbD_append

@[simp] theorem lo128_joinHalves (hi lo : V128) : lo128 (joinHalves hi lo) = lo := by
  apply BitVec.eq_of_getLsbD_eq
  intro i h
  simp only [lo128, BitVec.getLsbD_extractLsb', getLsbD_joinHalves, Nat.zero_add, h, decide_true, Bool.true_and, if_true]

@[simp] theorem hi128_joinHalves (hi lo : V128) : hi128 (joinHalves hi lo) = hi := by
  apply BitVec.eq_of_getLsbD_eq
  intro i h
  have h1 : ¬128 + i < 128 := by omega
  simp only [hi128, BitVec.getLsbD_extractLsb', getLsbD_joinHalves, h1, h, decide_true, Bool.true_and, if_false,
    Nat.add_sub_cancel_left]

/-- The branch target is the sum mod 2^16. -/
theorem branchTarget_eq_add (pc : Pc) (imm16 : BitVec 16) : branchTarget pc imm16 = pc + imm16 := by
  simp [branchTarget, BitVec.ofInt_add]

end Sys2Proof.Machine
end

