-- ==== Sys2Proof/Laws/Encoding.lean ====
section
/-! SUPPORT. The layouts of 30_encoding.md R72 read back: each field of a packed word is the field it was packed from, its
must-be-zero bits are zero, and the opcode map finds each opcode. -/

namespace Sys2Proof

@[simp] theorem toFin_regBits (r : Reg) : (regBits r).toFin = r := rfl

theorem Op.ofCode_code (op : Op) : Op.ofCode op.code = some op := by
  cases op <;> rfl

theorem Op.code_of_ofCode {c : BitVec 6} {op : Op} (h : Op.ofCode c = some op) : op.code = c := by
  have := List.find?_some h
  simpa using this

/-- Format B and format M have one layout and one set of must-be-zero bits (R72). -/
theorem reservedClear_m (w : Word) : reservedClear .m w = reservedClear .b w := rfl

/-! ## Format N -/

/-- Each bit of a format N word. -/
theorem getLsbD_packN (op : BitVec 6) (i : Nat) :
    (packN op).getLsbD i =
      if i < 26 then false else op.getLsbD (i - 26) := by
  unfold packN
  refine BitVec.getLsbD_append.trans ?_
  split_ifs <;> simp_all

@[simp] theorem opField_packN (op : BitVec 6) : opField (packN op) = op := by
  apply BitVec.eq_of_getLsbD_eq
  intro i h
  simp only [opField, BitVec.getLsbD_extractLsb', getLsbD_packN]
  split_ifs <;> simp_all

@[simp] theorem reservedClear_packN (op : BitVec 6) : reservedClear .n (packN op) = true := by
  simp only [reservedClear, beq_iff_eq]
  apply BitVec.eq_of_getLsbD_eq
  intro i h
  simp only [BitVec.getLsbD_extractLsb', getLsbD_packN]
  split_ifs <;> simp_all

/-! ## Format J -/

/-- Each bit of a format J word. -/
theorem getLsbD_packJ (op : BitVec 6) (imm16 : BitVec 16) (i : Nat) :
    (packJ op imm16).getLsbD i =
      if i < 16 then imm16.getLsbD i else if i < 26 then false else op.getLsbD (i - 26) := by
  unfold packJ
  refine BitVec.getLsbD_append.trans ?_
  simp only [BitVec.getLsbD_append]
  split_ifs <;> simp_all [Nat.sub_sub] <;> omega

@[simp] theorem opField_packJ (op : BitVec 6) (imm16 : BitVec 16) : opField (packJ op imm16) = op := by
  apply BitVec.eq_of_getLsbD_eq
  intro i h
  simp only [opField, BitVec.getLsbD_extractLsb', getLsbD_packJ]
  split_ifs <;> simp_all <;> omega

@[simp] theorem imm16Field_packJ (op : BitVec 6) (imm16 : BitVec 16) : imm16Field (packJ op imm16) = imm16 := by
  apply BitVec.eq_of_getLsbD_eq
  intro i h
  simp only [imm16Field, BitVec.getLsbD_extractLsb', getLsbD_packJ]
  split_ifs <;> simp_all

@[simp] theorem reservedClear_packJ (op : BitVec 6) (imm16 : BitVec 16) : reservedClear .j (packJ op imm16) = true := by
  simp only [reservedClear, beq_iff_eq]
  apply BitVec.eq_of_getLsbD_eq
  intro i h
  simp only [BitVec.getLsbD_extractLsb', getLsbD_packJ]
  split_ifs <;> simp_all <;> omega

/-! ## Format B -/

/-- Each bit of a format B word. -/
theorem getLsbD_packB (op : BitVec 6) (d : Reg) (imm16 : BitVec 16) (i : Nat) :
    (packB op d imm16).getLsbD i =
      if i < 16 then imm16.getLsbD i else if i < 22 then false else if i < 26 then (regBits d).getLsbD (i - 22) else op.getLsbD (i - 26) := by
  unfold packB
  refine BitVec.getLsbD_append.trans ?_
  simp only [BitVec.getLsbD_append]
  split_ifs <;> simp_all [Nat.sub_sub] <;> omega

@[simp] theorem opField_packB (op : BitVec 6) (d : Reg) (imm16 : BitVec 16) : opField (packB op d imm16) = op := by
  apply BitVec.eq_of_getLsbD_eq
  intro i h
  simp only [opField, BitVec.getLsbD_extractLsb', getLsbD_packB]
  split_ifs <;> simp_all <;> omega

@[simp] theorem dField_packB (op : BitVec 6) (d : Reg) (imm16 : BitVec 16) : dField (packB op d imm16) = d := by
  apply congrArg BitVec.toFin (a₂ := regBits d)
  apply BitVec.eq_of_getLsbD_eq
  intro i h
  simp only [BitVec.getLsbD_extractLsb', getLsbD_packB]
  split_ifs <;> simp_all <;> omega

@[simp] theorem imm16Field_packB (op : BitVec 6) (d : Reg) (imm16 : BitVec 16) : imm16Field (packB op d imm16) = imm16 := by
  apply BitVec.eq_of_getLsbD_eq
  intro i h
  simp only [imm16Field, BitVec.getLsbD_extractLsb', getLsbD_packB]
  split_ifs <;> simp_all

@[simp] theorem reservedClear_packB (op : BitVec 6) (d : Reg) (imm16 : BitVec 16) : reservedClear .b (packB op d imm16) = true := by
  simp only [reservedClear, beq_iff_eq]
  apply BitVec.eq_of_getLsbD_eq
  intro i h
  simp only [BitVec.getLsbD_extractLsb', getLsbD_packB]
  split_ifs <;> simp_all <;> omega

/-! ## Format R3 -/

/-- Each bit of a format R3 word. -/
theorem getLsbD_packR3 (op : BitVec 6) (d s1 s2 : Reg) (i : Nat) :
    (packR3 op d s1 s2).getLsbD i =
      if i < 14 then false else if i < 18 then (regBits s2).getLsbD (i - 14) else if i < 22 then (regBits s1).getLsbD (i - 18) else if i < 26 then (regBits d).getLsbD (i - 22) else op.getLsbD (i - 26) := by
  unfold packR3
  refine BitVec.getLsbD_append.trans ?_
  simp only [BitVec.getLsbD_append]
  split_ifs <;> simp_all [Nat.sub_sub] <;> omega

@[simp] theorem opField_packR3 (op : BitVec 6) (d s1 s2 : Reg) : opField (packR3 op d s1 s2) = op := by
  apply BitVec.eq_of_getLsbD_eq
  intro i h
  simp only [opField, BitVec.getLsbD_extractLsb', getLsbD_packR3]
  split_ifs <;> simp_all <;> omega

@[simp] theorem dField_packR3 (op : BitVec 6) (d s1 s2 : Reg) : dField (packR3 op d s1 s2) = d := by
  apply congrArg BitVec.toFin (a₂ := regBits d)
  apply BitVec.eq_of_getLsbD_eq
  intro i h
  simp only [BitVec.getLsbD_extractLsb', getLsbD_packR3]
  split_ifs <;> simp_all <;> omega

@[simp] theorem s1Field_packR3 (op : BitVec 6) (d s1 s2 : Reg) : s1Field (packR3 op d s1 s2) = s1 := by
  apply congrArg BitVec.toFin (a₂ := regBits s1)
  apply BitVec.eq_of_getLsbD_eq
  intro i h
  simp only [BitVec.getLsbD_extractLsb', getLsbD_packR3]
  split_ifs <;> simp_all <;> omega

@[simp] theorem s2Field_packR3 (op : BitVec 6) (d s1 s2 : Reg) : s2Field (packR3 op d s1 s2) = s2 := by
  apply congrArg BitVec.toFin (a₂ := regBits s2)
  apply BitVec.eq_of_getLsbD_eq
  intro i h
  simp only [BitVec.getLsbD_extractLsb', getLsbD_packR3]
  split_ifs <;> simp_all <;> omega

@[simp] theorem reservedClear_packR3 (op : BitVec 6) (d s1 s2 : Reg) : reservedClear .r3 (packR3 op d s1 s2) = true := by
  simp only [reservedClear, beq_iff_eq]
  apply BitVec.eq_of_getLsbD_eq
  intro i h
  simp only [BitVec.getLsbD_extractLsb', getLsbD_packR3]
  split_ifs <;> simp_all

/-! ## Format R2 -/

/-- Each bit of a format R2 word. -/
theorem getLsbD_packR2 (op : BitVec 6) (d s1 : Reg) (i : Nat) :
    (packR2 op d s1).getLsbD i =
      if i < 18 then false else if i < 22 then (regBits s1).getLsbD (i - 18) else if i < 26 then (regBits d).getLsbD (i - 22) else op.getLsbD (i - 26) := by
  unfold packR2
  refine BitVec.getLsbD_append.trans ?_
  simp only [BitVec.getLsbD_append]
  split_ifs <;> simp_all [Nat.sub_sub] <;> omega

@[simp] theorem opField_packR2 (op : BitVec 6) (d s1 : Reg) : opField (packR2 op d s1) = op := by
  apply BitVec.eq_of_getLsbD_eq
  intro i h
  simp only [opField, BitVec.getLsbD_extractLsb', getLsbD_packR2]
  split_ifs <;> simp_all <;> omega

@[simp] theorem dField_packR2 (op : BitVec 6) (d s1 : Reg) : dField (packR2 op d s1) = d := by
  apply congrArg BitVec.toFin (a₂ := regBits d)
  apply BitVec.eq_of_getLsbD_eq
  intro i h
  simp only [BitVec.getLsbD_extractLsb', getLsbD_packR2]
  split_ifs <;> simp_all <;> omega

@[simp] theorem s1Field_packR2 (op : BitVec 6) (d s1 : Reg) : s1Field (packR2 op d s1) = s1 := by
  apply congrArg BitVec.toFin (a₂ := regBits s1)
  apply BitVec.eq_of_getLsbD_eq
  intro i h
  simp only [BitVec.getLsbD_extractLsb', getLsbD_packR2]
  split_ifs <;> simp_all <;> omega

@[simp] theorem reservedClear_packR2 (op : BitVec 6) (d s1 : Reg) : reservedClear .r2 (packR2 op d s1) = true := by
  simp only [reservedClear, beq_iff_eq]
  apply BitVec.eq_of_getLsbD_eq
  intro i h
  simp only [BitVec.getLsbD_extractLsb', getLsbD_packR2]
  split_ifs <;> simp_all

/-! ## Format RI -/

/-- Each bit of a format RI word. -/
theorem getLsbD_packRI (op : BitVec 6) (d s1 : Reg) (imm8 : BitVec 8) (i : Nat) :
    (packRI op d s1 imm8).getLsbD i =
      if i < 8 then imm8.getLsbD i else if i < 18 then false else if i < 22 then (regBits s1).getLsbD (i - 18) else if i < 26 then (regBits d).getLsbD (i - 22) else op.getLsbD (i - 26) := by
  unfold packRI
  refine BitVec.getLsbD_append.trans ?_
  simp only [BitVec.getLsbD_append]
  split_ifs <;> simp_all [Nat.sub_sub] <;> omega

@[simp] theorem opField_packRI (op : BitVec 6) (d s1 : Reg) (imm8 : BitVec 8) : opField (packRI op d s1 imm8) = op := by
  apply BitVec.eq_of_getLsbD_eq
  intro i h
  simp only [opField, BitVec.getLsbD_extractLsb', getLsbD_packRI]
  split_ifs <;> simp_all <;> omega

@[simp] theorem dField_packRI (op : BitVec 6) (d s1 : Reg) (imm8 : BitVec 8) : dField (packRI op d s1 imm8) = d := by
  apply congrArg BitVec.toFin (a₂ := regBits d)
  apply BitVec.eq_of_getLsbD_eq
  intro i h
  simp only [BitVec.getLsbD_extractLsb', getLsbD_packRI]
  split_ifs <;> simp_all <;> omega

@[simp] theorem s1Field_packRI (op : BitVec 6) (d s1 : Reg) (imm8 : BitVec 8) : s1Field (packRI op d s1 imm8) = s1 := by
  apply congrArg BitVec.toFin (a₂ := regBits s1)
  apply BitVec.eq_of_getLsbD_eq
  intro i h
  simp only [BitVec.getLsbD_extractLsb', getLsbD_packRI]
  split_ifs <;> simp_all <;> omega

@[simp] theorem imm8Field_packRI (op : BitVec 6) (d s1 : Reg) (imm8 : BitVec 8) : imm8Field (packRI op d s1 imm8) = imm8 := by
  apply BitVec.eq_of_getLsbD_eq
  intro i h
  simp only [imm8Field, BitVec.getLsbD_extractLsb', getLsbD_packRI]
  split_ifs <;> simp_all

@[simp] theorem reservedClear_packRI (op : BitVec 6) (d s1 : Reg) (imm8 : BitVec 8) : reservedClear .ri (packRI op d s1 imm8) = true := by
  simp only [reservedClear, beq_iff_eq]
  apply BitVec.eq_of_getLsbD_eq
  intro i h
  simp only [BitVec.getLsbD_extractLsb', getLsbD_packRI]
  split_ifs <;> simp_all <;> omega

end Sys2Proof
end

