-- ==== Sys2Proof/Laws/State.lean ====
section
/-! SUPPORT. One lemma per field of State and per update of it, so that no later proof unfolds a record update. -/

namespace Sys2Proof.Machine

/-! ## writeV -/

@[simp] theorem State.writeV_v (s : State) (r : Reg) (x : V256) : (s.writeV r x).v = s.v.set r.val x r.isLt := rfl
@[simp] theorem State.writeV_valid (s : State) (r : Reg) (x : V256) : (s.writeV r x).valid = s.valid ||| (1#16 <<< r.val) := rfl
@[simp] theorem State.writeV_pc (s : State) (r : Reg) (x : V256) : (s.writeV r x).pc = s.pc := rfl
@[simp] theorem State.writeV_state (s : State) (r : Reg) (x : V256) : (s.writeV r x).state = s.state := rfl
@[simp] theorem State.writeV_cause (s : State) (r : Reg) (x : V256) : (s.writeV r x).cause = s.cause := rfl
@[simp] theorem State.writeV_faultPc (s : State) (r : Reg) (x : V256) : (s.writeV r x).faultPc = s.faultPc := rfl
@[simp] theorem State.writeV_faultInsn (s : State) (r : Reg) (x : V256) : (s.writeV r x).faultInsn = s.faultInsn := rfl
@[simp] theorem State.writeV_entryPc (s : State) (r : Reg) (x : V256) : (s.writeV r x).entryPc = s.entryPc := rfl
@[simp] theorem State.writeV_imem (s : State) (r : Reg) (x : V256) : (s.writeV r x).imem = s.imem := rfl
@[simp] theorem State.writeV_dmem (s : State) (r : Reg) (x : V256) : (s.writeV r x).dmem = s.dmem := rfl
@[simp] theorem State.writeV_turns (s : State) (r : Reg) (x : V256) : (s.writeV r x).turns = s.turns := rfl
@[simp] theorem State.writeV_replies (s : State) (r : Reg) (x : V256) : (s.writeV r x).replies = s.replies := rfl
@[simp] theorem State.writeV_epoch (s : State) (r : Reg) (x : V256) : (s.writeV r x).epoch = s.epoch := rfl
@[simp] theorem State.writeV_build (s : State) (r : Reg) (x : V256) : (s.writeV r x).build = s.build := rfl

/-! ## setPc -/

@[simp] theorem State.setPc_v (s : State) (p : Pc) : (s.setPc p).v = s.v := rfl
@[simp] theorem State.setPc_valid (s : State) (p : Pc) : (s.setPc p).valid = s.valid := rfl
@[simp] theorem State.setPc_pc (s : State) (p : Pc) : (s.setPc p).pc = p := rfl
@[simp] theorem State.setPc_state (s : State) (p : Pc) : (s.setPc p).state = s.state := rfl
@[simp] theorem State.setPc_cause (s : State) (p : Pc) : (s.setPc p).cause = s.cause := rfl
@[simp] theorem State.setPc_faultPc (s : State) (p : Pc) : (s.setPc p).faultPc = s.faultPc := rfl
@[simp] theorem State.setPc_faultInsn (s : State) (p : Pc) : (s.setPc p).faultInsn = s.faultInsn := rfl
@[simp] theorem State.setPc_entryPc (s : State) (p : Pc) : (s.setPc p).entryPc = s.entryPc := rfl
@[simp] theorem State.setPc_imem (s : State) (p : Pc) : (s.setPc p).imem = s.imem := rfl
@[simp] theorem State.setPc_dmem (s : State) (p : Pc) : (s.setPc p).dmem = s.dmem := rfl
@[simp] theorem State.setPc_turns (s : State) (p : Pc) : (s.setPc p).turns = s.turns := rfl
@[simp] theorem State.setPc_replies (s : State) (p : Pc) : (s.setPc p).replies = s.replies := rfl
@[simp] theorem State.setPc_epoch (s : State) (p : Pc) : (s.setPc p).epoch = s.epoch := rfl
@[simp] theorem State.setPc_build (s : State) (p : Pc) : (s.setPc p).build = s.build := rfl

/-! ## advance -/

@[simp] theorem State.advance_v (s : State) : (s.advance).v = s.v := rfl
@[simp] theorem State.advance_valid (s : State) : (s.advance).valid = s.valid := rfl
@[simp] theorem State.advance_pc (s : State) : (s.advance).pc = s.pc + 1#16 := rfl
@[simp] theorem State.advance_state (s : State) : (s.advance).state = s.state := rfl
@[simp] theorem State.advance_cause (s : State) : (s.advance).cause = s.cause := rfl
@[simp] theorem State.advance_faultPc (s : State) : (s.advance).faultPc = s.faultPc := rfl
@[simp] theorem State.advance_faultInsn (s : State) : (s.advance).faultInsn = s.faultInsn := rfl
@[simp] theorem State.advance_entryPc (s : State) : (s.advance).entryPc = s.entryPc := rfl
@[simp] theorem State.advance_imem (s : State) : (s.advance).imem = s.imem := rfl
@[simp] theorem State.advance_dmem (s : State) : (s.advance).dmem = s.dmem := rfl
@[simp] theorem State.advance_turns (s : State) : (s.advance).turns = s.turns := rfl
@[simp] theorem State.advance_replies (s : State) : (s.advance).replies = s.replies := rfl
@[simp] theorem State.advance_epoch (s : State) : (s.advance).epoch = s.epoch := rfl
@[simp] theorem State.advance_build (s : State) : (s.advance).build = s.build := rfl

/-! ## storeByte -/

@[simp] theorem State.storeByte_v (s : State) (a : Nat) (b : Byte) : (s.storeByte a b).v = s.v := rfl
@[simp] theorem State.storeByte_valid (s : State) (a : Nat) (b : Byte) : (s.storeByte a b).valid = s.valid := rfl
@[simp] theorem State.storeByte_pc (s : State) (a : Nat) (b : Byte) : (s.storeByte a b).pc = s.pc := rfl
@[simp] theorem State.storeByte_state (s : State) (a : Nat) (b : Byte) : (s.storeByte a b).state = s.state := rfl
@[simp] theorem State.storeByte_cause (s : State) (a : Nat) (b : Byte) : (s.storeByte a b).cause = s.cause := rfl
@[simp] theorem State.storeByte_faultPc (s : State) (a : Nat) (b : Byte) : (s.storeByte a b).faultPc = s.faultPc := rfl
@[simp] theorem State.storeByte_faultInsn (s : State) (a : Nat) (b : Byte) : (s.storeByte a b).faultInsn = s.faultInsn := rfl
@[simp] theorem State.storeByte_entryPc (s : State) (a : Nat) (b : Byte) : (s.storeByte a b).entryPc = s.entryPc := rfl
@[simp] theorem State.storeByte_imem (s : State) (a : Nat) (b : Byte) : (s.storeByte a b).imem = s.imem := rfl
@[simp] theorem State.storeByte_dmem (s : State) (a : Nat) (b : Byte) : (s.storeByte a b).dmem = Memory.store (w := 8) s.dmem a b := rfl
@[simp] theorem State.storeByte_turns (s : State) (a : Nat) (b : Byte) : (s.storeByte a b).turns = s.turns := rfl
@[simp] theorem State.storeByte_replies (s : State) (a : Nat) (b : Byte) : (s.storeByte a b).replies = s.replies := rfl
@[simp] theorem State.storeByte_epoch (s : State) (a : Nat) (b : Byte) : (s.storeByte a b).epoch = s.epoch := rfl
@[simp] theorem State.storeByte_build (s : State) (a : Nat) (b : Byte) : (s.storeByte a b).build = s.build := rfl

/-! ## storeWord -/

@[simp] theorem State.storeWord_v (s : State) (i : Nat) (x : Word) : (s.storeWord i x).v = s.v := rfl
@[simp] theorem State.storeWord_valid (s : State) (i : Nat) (x : Word) : (s.storeWord i x).valid = s.valid := rfl
@[simp] theorem State.storeWord_pc (s : State) (i : Nat) (x : Word) : (s.storeWord i x).pc = s.pc := rfl
@[simp] theorem State.storeWord_state (s : State) (i : Nat) (x : Word) : (s.storeWord i x).state = s.state := rfl
@[simp] theorem State.storeWord_cause (s : State) (i : Nat) (x : Word) : (s.storeWord i x).cause = s.cause := rfl
@[simp] theorem State.storeWord_faultPc (s : State) (i : Nat) (x : Word) : (s.storeWord i x).faultPc = s.faultPc := rfl
@[simp] theorem State.storeWord_faultInsn (s : State) (i : Nat) (x : Word) : (s.storeWord i x).faultInsn = s.faultInsn := rfl
@[simp] theorem State.storeWord_entryPc (s : State) (i : Nat) (x : Word) : (s.storeWord i x).entryPc = s.entryPc := rfl
@[simp] theorem State.storeWord_imem (s : State) (i : Nat) (x : Word) : (s.storeWord i x).imem = Memory.store s.imem i x := rfl
@[simp] theorem State.storeWord_dmem (s : State) (i : Nat) (x : Word) : (s.storeWord i x).dmem = s.dmem := rfl
@[simp] theorem State.storeWord_turns (s : State) (i : Nat) (x : Word) : (s.storeWord i x).turns = s.turns := rfl
@[simp] theorem State.storeWord_replies (s : State) (i : Nat) (x : Word) : (s.storeWord i x).replies = s.replies := rfl
@[simp] theorem State.storeWord_epoch (s : State) (i : Nat) (x : Word) : (s.storeWord i x).epoch = s.epoch := rfl
@[simp] theorem State.storeWord_build (s : State) (i : Nat) (x : Word) : (s.storeWord i x).build = s.build := rfl

/-! ## raise -/

@[simp] theorem State.raise_v (s : State) (c : Cause) (w : Word) : (s.raise c w).v = s.v := rfl
@[simp] theorem State.raise_valid (s : State) (c : Cause) (w : Word) : (s.raise c w).valid = s.valid := rfl
@[simp] theorem State.raise_pc (s : State) (c : Cause) (w : Word) : (s.raise c w).pc = s.pc := rfl
@[simp] theorem State.raise_state (s : State) (c : Cause) (w : Word) : (s.raise c w).state = .faulted := rfl
@[simp] theorem State.raise_cause (s : State) (c : Cause) (w : Word) : (s.raise c w).cause = c := rfl
@[simp] theorem State.raise_faultPc (s : State) (c : Cause) (w : Word) : (s.raise c w).faultPc = s.pc := rfl
@[simp] theorem State.raise_faultInsn (s : State) (c : Cause) (w : Word) : (s.raise c w).faultInsn = w := rfl
@[simp] theorem State.raise_entryPc (s : State) (c : Cause) (w : Word) : (s.raise c w).entryPc = s.entryPc := rfl
@[simp] theorem State.raise_imem (s : State) (c : Cause) (w : Word) : (s.raise c w).imem = s.imem := rfl
@[simp] theorem State.raise_dmem (s : State) (c : Cause) (w : Word) : (s.raise c w).dmem = s.dmem := rfl
@[simp] theorem State.raise_turns (s : State) (c : Cause) (w : Word) : (s.raise c w).turns = s.turns := rfl
@[simp] theorem State.raise_replies (s : State) (c : Cause) (w : Word) : (s.raise c w).replies = s.replies := rfl
@[simp] theorem State.raise_epoch (s : State) (c : Cause) (w : Word) : (s.raise c w).epoch = s.epoch := rfl
@[simp] theorem State.raise_build (s : State) (c : Cause) (w : Word) : (s.raise c w).build = s.build := rfl

/-! ## raiseAt -/

@[simp] theorem State.raiseAt_v (s : State) (c : Cause) (i : Instr) : (s.raiseAt c i).v = s.v := rfl
@[simp] theorem State.raiseAt_valid (s : State) (c : Cause) (i : Instr) : (s.raiseAt c i).valid = s.valid := rfl
@[simp] theorem State.raiseAt_pc (s : State) (c : Cause) (i : Instr) : (s.raiseAt c i).pc = s.pc := rfl
@[simp] theorem State.raiseAt_state (s : State) (c : Cause) (i : Instr) : (s.raiseAt c i).state = .faulted := rfl
@[simp] theorem State.raiseAt_cause (s : State) (c : Cause) (i : Instr) : (s.raiseAt c i).cause = c := rfl
@[simp] theorem State.raiseAt_faultPc (s : State) (c : Cause) (i : Instr) : (s.raiseAt c i).faultPc = s.pc := rfl
@[simp] theorem State.raiseAt_faultInsn (s : State) (c : Cause) (i : Instr) : (s.raiseAt c i).faultInsn = encode i := rfl
@[simp] theorem State.raiseAt_entryPc (s : State) (c : Cause) (i : Instr) : (s.raiseAt c i).entryPc = s.entryPc := rfl
@[simp] theorem State.raiseAt_imem (s : State) (c : Cause) (i : Instr) : (s.raiseAt c i).imem = s.imem := rfl
@[simp] theorem State.raiseAt_dmem (s : State) (c : Cause) (i : Instr) : (s.raiseAt c i).dmem = s.dmem := rfl
@[simp] theorem State.raiseAt_turns (s : State) (c : Cause) (i : Instr) : (s.raiseAt c i).turns = s.turns := rfl
@[simp] theorem State.raiseAt_replies (s : State) (c : Cause) (i : Instr) : (s.raiseAt c i).replies = s.replies := rfl
@[simp] theorem State.raiseAt_epoch (s : State) (c : Cause) (i : Instr) : (s.raiseAt c i).epoch = s.epoch := rfl
@[simp] theorem State.raiseAt_build (s : State) (c : Cause) (i : Instr) : (s.raiseAt c i).build = s.build := rfl

/-! ## halt -/

@[simp] theorem State.halt_v (s : State) : (s.halt).v = s.v := rfl
@[simp] theorem State.halt_valid (s : State) : (s.halt).valid = s.valid := rfl
@[simp] theorem State.halt_pc (s : State) : (s.halt).pc = s.pc := rfl
@[simp] theorem State.halt_state (s : State) : (s.halt).state = .halted := rfl
@[simp] theorem State.halt_cause (s : State) : (s.halt).cause = s.cause := rfl
@[simp] theorem State.halt_faultPc (s : State) : (s.halt).faultPc = s.faultPc := rfl
@[simp] theorem State.halt_faultInsn (s : State) : (s.halt).faultInsn = s.faultInsn := rfl
@[simp] theorem State.halt_entryPc (s : State) : (s.halt).entryPc = s.entryPc := rfl
@[simp] theorem State.halt_imem (s : State) : (s.halt).imem = s.imem := rfl
@[simp] theorem State.halt_dmem (s : State) : (s.halt).dmem = s.dmem := rfl
@[simp] theorem State.halt_turns (s : State) : (s.halt).turns = s.turns := rfl
@[simp] theorem State.halt_replies (s : State) : (s.halt).replies = s.replies := rfl
@[simp] theorem State.halt_epoch (s : State) : (s.halt).epoch = s.epoch := rfl
@[simp] theorem State.halt_build (s : State) : (s.halt).build = s.build := rfl

/-! ## reply -/

@[simp] theorem State.reply_v (s : State) (r : Reply) : (s.reply r).v = s.v := rfl
@[simp] theorem State.reply_valid (s : State) (r : Reply) : (s.reply r).valid = s.valid := rfl
@[simp] theorem State.reply_pc (s : State) (r : Reply) : (s.reply r).pc = s.pc := rfl
@[simp] theorem State.reply_state (s : State) (r : Reply) : (s.reply r).state = s.state := rfl
@[simp] theorem State.reply_cause (s : State) (r : Reply) : (s.reply r).cause = s.cause := rfl
@[simp] theorem State.reply_faultPc (s : State) (r : Reply) : (s.reply r).faultPc = s.faultPc := rfl
@[simp] theorem State.reply_faultInsn (s : State) (r : Reply) : (s.reply r).faultInsn = s.faultInsn := rfl
@[simp] theorem State.reply_entryPc (s : State) (r : Reply) : (s.reply r).entryPc = s.entryPc := rfl
@[simp] theorem State.reply_imem (s : State) (r : Reply) : (s.reply r).imem = s.imem := rfl
@[simp] theorem State.reply_dmem (s : State) (r : Reply) : (s.reply r).dmem = s.dmem := rfl
@[simp] theorem State.reply_turns (s : State) (r : Reply) : (s.reply r).turns = s.turns := rfl
@[simp] theorem State.reply_replies (s : State) (r : Reply) : (s.reply r).replies = r :: s.replies := rfl
@[simp] theorem State.reply_epoch (s : State) (r : Reply) : (s.reply r).epoch = s.epoch := rfl
@[simp] theorem State.reply_build (s : State) (r : Reply) : (s.reply r).build = s.build := rfl

/-! ## finish -/

@[simp] theorem State.finish_v (s : State) (d : Reg) (x : V256) : (s.finish d x).v = s.v.set d.val x d.isLt := rfl
@[simp] theorem State.finish_valid (s : State) (d : Reg) (x : V256) : (s.finish d x).valid = s.valid ||| (1#16 <<< d.val) := rfl
@[simp] theorem State.finish_pc (s : State) (d : Reg) (x : V256) : (s.finish d x).pc = s.pc + 1#16 := rfl
@[simp] theorem State.finish_state (s : State) (d : Reg) (x : V256) : (s.finish d x).state = s.state := rfl
@[simp] theorem State.finish_cause (s : State) (d : Reg) (x : V256) : (s.finish d x).cause = s.cause := rfl
@[simp] theorem State.finish_faultPc (s : State) (d : Reg) (x : V256) : (s.finish d x).faultPc = s.faultPc := rfl
@[simp] theorem State.finish_faultInsn (s : State) (d : Reg) (x : V256) : (s.finish d x).faultInsn = s.faultInsn := rfl
@[simp] theorem State.finish_entryPc (s : State) (d : Reg) (x : V256) : (s.finish d x).entryPc = s.entryPc := rfl
@[simp] theorem State.finish_imem (s : State) (d : Reg) (x : V256) : (s.finish d x).imem = s.imem := rfl
@[simp] theorem State.finish_dmem (s : State) (d : Reg) (x : V256) : (s.finish d x).dmem = s.dmem := rfl
@[simp] theorem State.finish_turns (s : State) (d : Reg) (x : V256) : (s.finish d x).turns = s.turns := rfl
@[simp] theorem State.finish_replies (s : State) (d : Reg) (x : V256) : (s.finish d x).replies = s.replies := rfl
@[simp] theorem State.finish_epoch (s : State) (d : Reg) (x : V256) : (s.finish d x).epoch = s.epoch := rfl
@[simp] theorem State.finish_build (s : State) (d : Reg) (x : V256) : (s.finish d x).build = s.build := rfl

/-! ## memWrite -/

@[simp] theorem State.memWrite_v (s : State) (a n : Nat) (x : V256) : (s.memWrite a n x).v = s.v := by
  induction n with
  | zero => rfl
  | succ n ih => simpa [State.memWrite] using ih
@[simp] theorem State.memWrite_valid (s : State) (a n : Nat) (x : V256) : (s.memWrite a n x).valid = s.valid := by
  induction n with
  | zero => rfl
  | succ n ih => simpa [State.memWrite] using ih
@[simp] theorem State.memWrite_pc (s : State) (a n : Nat) (x : V256) : (s.memWrite a n x).pc = s.pc := by
  induction n with
  | zero => rfl
  | succ n ih => simpa [State.memWrite] using ih
@[simp] theorem State.memWrite_state (s : State) (a n : Nat) (x : V256) : (s.memWrite a n x).state = s.state := by
  induction n with
  | zero => rfl
  | succ n ih => simpa [State.memWrite] using ih
@[simp] theorem State.memWrite_cause (s : State) (a n : Nat) (x : V256) : (s.memWrite a n x).cause = s.cause := by
  induction n with
  | zero => rfl
  | succ n ih => simpa [State.memWrite] using ih
@[simp] theorem State.memWrite_faultPc (s : State) (a n : Nat) (x : V256) : (s.memWrite a n x).faultPc = s.faultPc := by
  induction n with
  | zero => rfl
  | succ n ih => simpa [State.memWrite] using ih
@[simp] theorem State.memWrite_faultInsn (s : State) (a n : Nat) (x : V256) : (s.memWrite a n x).faultInsn = s.faultInsn := by
  induction n with
  | zero => rfl
  | succ n ih => simpa [State.memWrite] using ih
@[simp] theorem State.memWrite_entryPc (s : State) (a n : Nat) (x : V256) : (s.memWrite a n x).entryPc = s.entryPc := by
  induction n with
  | zero => rfl
  | succ n ih => simpa [State.memWrite] using ih
@[simp] theorem State.memWrite_imem (s : State) (a n : Nat) (x : V256) : (s.memWrite a n x).imem = s.imem := by
  induction n with
  | zero => rfl
  | succ n ih => simpa [State.memWrite] using ih
@[simp] theorem State.memWrite_turns (s : State) (a n : Nat) (x : V256) : (s.memWrite a n x).turns = s.turns := by
  induction n with
  | zero => rfl
  | succ n ih => simpa [State.memWrite] using ih
@[simp] theorem State.memWrite_replies (s : State) (a n : Nat) (x : V256) : (s.memWrite a n x).replies = s.replies := by
  induction n with
  | zero => rfl
  | succ n ih => simpa [State.memWrite] using ih
@[simp] theorem State.memWrite_epoch (s : State) (a n : Nat) (x : V256) : (s.memWrite a n x).epoch = s.epoch := by
  induction n with
  | zero => rfl
  | succ n ih => simpa [State.memWrite] using ih
@[simp] theorem State.memWrite_build (s : State) (a n : Nat) (x : V256) : (s.memWrite a n x).build = s.build := by
  induction n with
  | zero => rfl
  | succ n ih => simpa [State.memWrite] using ih

end Sys2Proof.Machine
end

