-- ==== Sys2Proof/Laws/Memory.lean ====
section
/-! SUPPORT. Memory in canonical form: what a read after a write gives, and that every write keeps the form and the bound;
then the same for the bytes of DMEM, the words of IMEM and the registers. -/

namespace Sys2Proof.Machine

/-! ## Cells -/

@[simp] theorem Memory.find_nil {w : Nat} (a : Nat) : Memory.find ([] : Memory w) a = none := rfl

theorem Memory.find_cons {w : Nat} (k : Nat) (x : BitVec w) (m : Memory w) (a : Nat) :
    Memory.find ((k, x) :: m) a = if k = a then some x else Memory.find m a := rfl

@[simp] theorem Memory.find_store_same {w : Nat} (m : Memory w) (a : Nat) (x : BitVec w) :
    Memory.find (Memory.store m a x) a = some x := by
  induction m with
  | nil => simp [Memory.store, Memory.find]
  | cons c m ih =>
    obtain ⟨k, y⟩ := c
    by_cases h1 : a < k
    · simp [Memory.store, Memory.find, h1]
    · by_cases h2 : a = k
      · simp [Memory.store, Memory.find, h2]
      · simp [Memory.store, Memory.find, h1, h2, Ne.symm h2, ih]

theorem Memory.find_store_ne {w : Nat} (m : Memory w) (a b : Nat) (x : BitVec w) (h : b ≠ a) :
    Memory.find (Memory.store m a x) b = Memory.find m b := by
  induction m with
  | nil => simp [Memory.store, Memory.find, Ne.symm h]
  | cons c m ih =>
    obtain ⟨k, y⟩ := c
    by_cases h1 : a < k
    · simp [Memory.store, Memory.find, h1, Ne.symm h]
    · by_cases h2 : a = k
      · subst h2; simp [Memory.store, Memory.find, Ne.symm h]
      · simp [Memory.store, Memory.find, h1, h2, ih]

theorem Memory.risesFrom_mono {w : Nat} (m : Memory w) {lo lo' : Nat} (h : lo' ≤ lo)
    (hm : Memory.risesFrom lo m = true) : Memory.risesFrom lo' m = true := by
  cases m with
  | nil => rfl
  | cons c m =>
    simp only [Memory.risesFrom, Bool.and_eq_true, decide_eq_true_eq] at hm ⊢
    exact ⟨by omega, hm.2⟩

theorem Memory.risesFrom_store {w : Nat} (m : Memory w) (lo a : Nat) (x : BitVec w) (h : lo ≤ a)
    (hm : Memory.risesFrom lo m = true) : Memory.risesFrom lo (Memory.store m a x) = true := by
  induction m generalizing lo with
  | nil => simp [Memory.store, Memory.risesFrom, h]
  | cons c m ih =>
    obtain ⟨k, y⟩ := c
    simp only [Memory.risesFrom, Bool.and_eq_true, decide_eq_true_eq] at hm
    by_cases h1 : a < k
    · simp [Memory.store, Memory.risesFrom, h1, h, hm.2]
    · by_cases h2 : a = k
      · subst h2; simp [Memory.store, Memory.risesFrom, hm.1, hm.2]
      · simp only [Memory.store, h1, h2, if_false, Memory.risesFrom, Bool.and_eq_true, decide_eq_true_eq]
        exact ⟨hm.1, ih (k + 1) (by omega) hm.2⟩

/-- A write keeps the canonical form. -/
theorem Memory.wf_store {w : Nat} (m : Memory w) (a : Nat) (x : BitVec w) (hm : Memory.wf m = true) :
    Memory.wf (Memory.store m a x) = true :=
  Memory.risesFrom_store m 0 a x (Nat.zero_le a) hm

/-- A write inside the bound keeps every cell inside it. -/
theorem Memory.within_store {w : Nat} (m : Memory w) (size a : Nat) (x : BitVec w) (ha : a < size)
    (hm : Memory.within size m = true) : Memory.within size (Memory.store m a x) = true := by
  induction m with
  | nil => simp [Memory.store, Memory.within, ha]
  | cons c m ih =>
    obtain ⟨k, y⟩ := c
    simp only [Memory.within, List.all_cons, Bool.and_eq_true, decide_eq_true_eq] at hm ih
    by_cases h1 : a < k
    · simp [Memory.store, Memory.within, h1, ha, hm.1, hm.2]
    · by_cases h2 : a = k
      · subst h2; simp [Memory.store, Memory.within, ha, hm.2]
      · simpa [Memory.store, Memory.within, h1, h2, hm.1] using ih hm.2

/-! ## Bytes of DMEM -/

@[simp] theorem State.dmemByte_storeByte_same (s : State) (a : Nat) (b : Byte) :
    (s.storeByte a b).dmemByte a = b := by
  simp [State.dmemByte]

theorem State.dmemByte_storeByte_ne (s : State) (a c : Nat) (b : Byte) (h : c ≠ a) :
    (s.storeByte a b).dmemByte c = s.dmemByte c := by
  simp [State.dmemByte, Memory.find_store_ne _ _ _ _ h]

/-- A byte outside the bytes stored reads as before. -/
theorem State.dmemByte_memWrite_outside (s : State) (addr n : Nat) (x : V256) (c : Nat)
    (h : c < addr ∨ addr + n ≤ c) : (s.memWrite addr n x).dmemByte c = s.dmemByte c := by
  induction n with
  | zero => rfl
  | succ n ih =>
    rw [State.memWrite, State.dmemByte_storeByte_ne _ _ _ _ (by omega)]
    exact ih (by omega)

/-- Byte j of the value stands at `addr + j`. -/
theorem State.dmemByte_memWrite_inside (s : State) (addr n : Nat) (x : V256) (j : Nat) (h : j < n) :
    (s.memWrite addr n x).dmemByte (addr + j) = x.extractLsb' (8 * j) 8 := by
  induction n with
  | zero => omega
  | succ n ih =>
    rw [State.memWrite]
    by_cases hj : j = n
    · subst hj; simp
    · rw [State.dmemByte_storeByte_ne _ _ _ _ (by omega)]
      exact ih (by omega)

theorem State.wf_memWrite (s : State) (addr n : Nat) (x : V256) (h : Memory.wf (w := 8) s.dmem = true) :
    Memory.wf (w := 8) (s.memWrite addr n x).dmem = true := by
  induction n with
  | zero => exact h
  | succ n ih => simpa [State.memWrite] using Memory.wf_store _ _ _ ih

theorem State.within_memWrite (s : State) (size addr n : Nat) (x : V256) (hn : addr + n ≤ size)
    (h : Memory.within (w := 8) size s.dmem = true) :
    Memory.within (w := 8) size (s.memWrite addr n x).dmem = true := by
  induction n with
  | zero => exact h
  | succ n ih =>
    simpa [State.memWrite] using Memory.within_store _ size _ _ (by omega) (ih (by omega))

/-- The bytes of DMEM depend on the list of written bytes and on the number of resets alone. -/
theorem State.dmemByte_congr {s t : State} (h : t.dmem = s.dmem) (he : t.epoch = s.epoch) (a : Nat) :
    t.dmemByte a = s.dmemByte a := by
  simp [State.dmemByte, h, he]

/-- The words of IMEM depend on the list of written words and on the number of resets alone. -/
theorem State.imemWord_congr {s t : State} (h : t.imem = s.imem) (he : t.epoch = s.epoch) (i : Nat) :
    t.imemWord i = s.imemWord i := by
  simp [State.imemWord, h, he]

/-! ## Words of IMEM -/

@[simp] theorem State.imemWord_storeWord_same (s : State) (i : Nat) (w : Word) :
    (s.storeWord i w).imemWord i = w := by
  simp [State.imemWord, State.storeWord]

theorem State.imemWord_storeWord_ne (s : State) (i j : Nat) (w : Word) (h : j ≠ i) :
    (s.storeWord i w).imemWord j = s.imemWord j := by
  simp [State.imemWord, State.storeWord, Memory.find_store_ne _ _ _ _ h]

@[simp] theorem State.imemWord_storeByte (s : State) (a : Nat) (b : Byte) (i : Nat) :
    (s.storeByte a b).imemWord i = s.imemWord i := rfl
@[simp] theorem State.dmemByte_storeWord (s : State) (i : Nat) (w : Word) (a : Nat) :
    (s.storeWord i w).dmemByte a = s.dmemByte a := rfl

/-! ## Updates that leave the bytes and the words alone -/

@[simp] theorem State.dmemByte_setPc (s : State) (p : Pc) (a : Nat) : (s.setPc p).dmemByte a = s.dmemByte a := rfl
@[simp] theorem State.dmemByte_advance (s : State) (a : Nat) : s.advance.dmemByte a = s.dmemByte a := rfl
@[simp] theorem State.dmemByte_writeV (s : State) (r : Reg) (x : V256) (a : Nat) :
    (s.writeV r x).dmemByte a = s.dmemByte a := rfl
@[simp] theorem State.dmemByte_finish (s : State) (d : Reg) (x : V256) (a : Nat) :
    (s.finish d x).dmemByte a = s.dmemByte a := rfl
@[simp] theorem State.dmemByte_raise (s : State) (c : Cause) (w : Word) (a : Nat) :
    (s.raise c w).dmemByte a = s.dmemByte a := rfl
@[simp] theorem State.imemWord_setPc (s : State) (p : Pc) (i : Nat) : (s.setPc p).imemWord i = s.imemWord i := rfl
@[simp] theorem State.imemWord_advance (s : State) (i : Nat) : s.advance.imemWord i = s.imemWord i := rfl
@[simp] theorem State.imemWord_writeV (s : State) (r : Reg) (x : V256) (i : Nat) :
    (s.writeV r x).imemWord i = s.imemWord i := rfl
@[simp] theorem State.imemWord_finish (s : State) (d : Reg) (x : V256) (i : Nat) :
    (s.finish d x).imemWord i = s.imemWord i := rfl
@[simp] theorem State.imemWord_raise (s : State) (c : Cause) (w : Word) (i : Nat) :
    (s.raise c w).imemWord i = s.imemWord i := rfl
@[simp] theorem State.imemWord_memWrite (s : State) (a n : Nat) (x : V256) (i : Nat) :
    (s.memWrite a n x).imemWord i = s.imemWord i := State.imemWord_congr (by simp) (by simp) i

/-! ## Registers -/

@[simp] theorem State.reg_writeV_same (s : State) (r : Reg) (x : V256) : (s.writeV r x).reg r = x := by
  simp [State.reg, State.writeV, Vector.get_eq_getElem]

theorem State.reg_writeV_ne (s : State) (r q : Reg) (x : V256) (h : q ≠ r) : (s.writeV r x).reg q = s.reg q := by
  have hv : r.val ≠ q.val := fun e => h (Fin.ext e.symm)
  simp [State.reg, State.writeV, Vector.get_eq_getElem, hv]

@[simp] theorem State.isValid_writeV_same (s : State) (r : Reg) (x : V256) : (s.writeV r x).isValid r = true := by
  have := r.isLt
  simp [State.isValid, State.writeV, this]

theorem State.isValid_writeV_ne (s : State) (r q : Reg) (x : V256) (h : q ≠ r) :
    (s.writeV r x).isValid q = s.isValid q := by
  have hv : q.val ≠ r.val := fun e => h (Fin.ext e)
  have := q.isLt
  rcases Nat.lt_or_gt_of_ne hv with h1 | h1
  · simp [State.isValid, State.writeV, h1]
  · have : q.val - r.val ≠ 0 := by omega
    simp [State.isValid, State.writeV, this]

@[simp] theorem State.reg_setPc (s : State) (p : Pc) (r : Reg) : (s.setPc p).reg r = s.reg r := rfl
@[simp] theorem State.isValid_setPc (s : State) (p : Pc) (r : Reg) : (s.setPc p).isValid r = s.isValid r := rfl
@[simp] theorem State.reg_advance (s : State) (r : Reg) : s.advance.reg r = s.reg r := rfl
@[simp] theorem State.isValid_advance (s : State) (r : Reg) : s.advance.isValid r = s.isValid r := rfl
@[simp] theorem State.reg_raise (s : State) (c : Cause) (w : Word) (r : Reg) : (s.raise c w).reg r = s.reg r := rfl
@[simp] theorem State.isValid_raise (s : State) (c : Cause) (w : Word) (r : Reg) :
    (s.raise c w).isValid r = s.isValid r := rfl
@[simp] theorem State.reg_memWrite (s : State) (a n : Nat) (x : V256) (r : Reg) :
    (s.memWrite a n x).reg r = s.reg r := by simp [State.reg]
@[simp] theorem State.isValid_memWrite (s : State) (a n : Nat) (x : V256) (r : Reg) :
    (s.memWrite a n x).isValid r = s.isValid r := by simp [State.isValid]
@[simp] theorem State.reg_finish_same (s : State) (d : Reg) (x : V256) : (s.finish d x).reg d = x :=
  State.reg_writeV_same s d x
@[simp] theorem State.isValid_finish_same (s : State) (d : Reg) (x : V256) : (s.finish d x).isValid d = true :=
  State.isValid_writeV_same s d x

/-- A data instruction's write changes its destination and the PC alone. -/
theorem State.writesOnly_finish (s : State) (d : Reg) (x : V256) : WritesOnly s (s.finish d x) [d] := by
  refine ⟨fun r hr => ?_, fun a => rfl, ⟨rfl, rfl, rfl, rfl⟩, rfl, fun i => rfl, rfl, rfl, rfl, rfl⟩
  have hne : r ≠ d := by simpa using hr
  exact ⟨State.reg_writeV_ne s d r x hne, State.isValid_writeV_ne s d r x hne⟩

/-- A jump of the PC changes nothing else. -/
theorem State.writesOnly_setPc (s : State) (p : Pc) : WritesOnly s (s.setPc p) [] :=
  ⟨fun _ _ => ⟨rfl, rfl⟩, fun _ => rfl, ⟨rfl, rfl, rfl, rfl⟩, rfl, fun _ => rfl, rfl, rfl, rfl, rfl⟩

end Sys2Proof.Machine
end

