-- ==== Sys2Proof/Laws/Guard.lean ====
section
/-! SUPPORT. Everything the checks before an instruction's effect can do (30_encoding.md R82): the outcome is always a next
state, it is the effect exactly when every check passes, and otherwise it is the fault of the first check that fails. -/

namespace Sys2Proof.Machine

/-- All the checks of R82 that come before an instruction's effect pass. -/
def ChecksPass (i : Instr) (s : State) : Prop :=
  i.wellFormed = true ∧ operandsAlias i = false ∧ ∀ r ∈ sources i, s.isValid r = true

/-- When every check passes the effect happens. -/
theorem guarded_of_pass {i : Instr} {s : State} (effect : State) (h : ChecksPass i s) :
    guarded i s effect = .next effect := by
  obtain ⟨h1, h2, h3⟩ := h
  have h4 : (sources i).all s.isValid = true := List.all_eq_true.mpr h3
  simp [guarded, h1, h2, h4]

/-- A shift out of range takes IMM_RANGE, whatever the registers hold. -/
theorem guarded_of_immRange {i : Instr} {s : State} (effect : State) (h : i.wellFormed = false) :
    guarded i s effect = .next (s.raiseAt .immRange i) := by
  simp [guarded, h]

/-- Operands that must be distinct and are not take OPERAND_ALIAS, whatever the registers hold. -/
theorem guarded_of_alias {i : Instr} {s : State} (effect : State) (h : i.wellFormed = true)
    (ha : operandsAlias i = true) : guarded i s effect = .next (s.raiseAt .operandAlias i) := by
  simp [guarded, h, ha]

/-- An unwritten source register takes UNINIT_READ. -/
theorem guarded_of_uninit {i : Instr} {s : State} (effect : State) (h : i.wellFormed = true)
    (ha : operandsAlias i = false) {r : Reg} (hr : r ∈ sources i) (hv : s.isValid r = false) :
    guarded i s effect = .next (s.raiseAt .uninitRead i) := by
  have h4 : (sources i).all s.isValid = false := by
    rw [List.all_eq_false]
    exact ⟨r, hr, by simp [hv]⟩
  simp [guarded, h, ha, h4]

/-- Everything the checks can do. -/
theorem guarded_cases (i : Instr) (s effect : State) :
    (ChecksPass i s ∧ guarded i s effect = .next effect) ∨
    (i.wellFormed = false ∧ guarded i s effect = .next (s.raiseAt .immRange i)) ∨
    (i.wellFormed = true ∧ operandsAlias i = true ∧ guarded i s effect = .next (s.raiseAt .operandAlias i)) ∨
    (i.wellFormed = true ∧ operandsAlias i = false ∧ (∃ r ∈ sources i, s.isValid r = false) ∧
      guarded i s effect = .next (s.raiseAt .uninitRead i)) := by
  rcases hw : i.wellFormed with _ | _
  · exact .inr (.inl ⟨rfl, guarded_of_immRange effect hw⟩)
  · rcases ha : operandsAlias i with _ | _
    · by_cases hv : ∀ r ∈ sources i, s.isValid r = true
      · exact .inl ⟨⟨hw, ha, hv⟩, guarded_of_pass effect ⟨hw, ha, hv⟩⟩
      · push Not at hv
        obtain ⟨r, hr, hrv⟩ := hv
        have hrv' : s.isValid r = false := by simpa using hrv
        exact .inr (.inr (.inr ⟨rfl, rfl, ⟨r, hr, hrv'⟩, guarded_of_uninit effect hw ha hr hrv'⟩))
    · exact .inr (.inr (.inl ⟨rfl, rfl, guarded_of_alias effect hw ha⟩))

/-- The outcome is a next state: the effect, or the state with a fault taken. -/
theorem guarded_next {i : Instr} {s effect t : State} (h : guarded i s effect = .next t) :
    t = effect ∨ ∃ c, t = s.raiseAt c i := by
  rcases guarded_cases i s effect with ⟨_, h1⟩ | ⟨_, h1⟩ | ⟨_, _, h1⟩ | ⟨_, _, _, h1⟩ <;>
    (rw [h1] at h; cases h)
  · exact .inl rfl
  all_goals exact .inr ⟨_, rfl⟩

end Sys2Proof.Machine
end

