-- ==== Sys2Proof/Laws/Exec.lean ====
section
/-! SUPPORT. Everything an instruction and a step can do, said once: an instruction takes a fault for one of four reasons,
or halts, or stores, or writes its destinations and the PC; a step is the core's or the host's. -/

namespace Sys2Proof.Machine

/-- The state `t` differs from `s` in the destinations of `i`, which are valid in it, and in the PC alone. -/
structure WritesDestinations (i : Instr) (s t : State) : Prop where
  only : WritesOnly s t (destinations i)
  dmem : t.dmem = s.dmem
  imem : t.imem = s.imem
  valid : ∀ r ∈ destinations i, t.isValid r = true

/-- Why an instruction takes the fault `c` (30_encoding.md R82). -/
inductive TakesFault (i : Instr) (s : State) : Cause → Prop where
  | immRange (h : i.wellFormed = false) : TakesFault i s .immRange
  | operandAlias (hw : i.wellFormed = true) (ha : operandsAlias i = true) : TakesFault i s .operandAlias
  | uninitRead (hw : i.wellFormed = true) (ha : operandsAlias i = false) (r : Reg) (hr : r ∈ sources i)
      (hv : s.isValid r = false) : TakesFault i s .uninitRead
  | dmemRange (hc : ChecksPass i s) (d : Reg) (imm16 : BitVec 16) (hi : i = .vld d imm16 ∨ i = .vst d imm16)
      (hr : s.inDmem (effectiveAddress imm16) = false) : TakesFault i s .dmemRange

/-- Everything an instruction can do. -/
inductive ExecCase (i : Instr) (s : State) : Result → Prop where
  | fault (c : Cause) (h : TakesFault i s c) : ExecCase i s (.next (s.raiseAt c i))
  | halt (h : i = .halt) : ExecCase i s (.next s.halt)
  | store (d : Reg) (imm16 : BitVec 16) (h : i = .vst d imm16) (hv : s.isValid d = true)
      (hr : s.inDmem (effectiveAddress imm16) = true) :
      ExecCase i s (.next (s.memWrite (effectiveAddress imm16) 32 (s.reg d)).advance)
  | write (t : State) (hc : ChecksPass i s) (h : WritesDestinations i s t) : ExecCase i s (.next t)

theorem WritesDestinations.of_finish {i : Instr} {d : Reg} (s : State) (x : V256) (h : destinations i = [d]) :
    WritesDestinations i s (s.finish d x) :=
  ⟨h ▸ State.writesOnly_finish s d x, rfl, rfl, by simp [h]⟩

theorem WritesDestinations.of_setPc {i : Instr} (s : State) (p : Pc) (h : destinations i = []) :
    WritesDestinations i s (s.setPc p) :=
  ⟨h ▸ State.writesOnly_setPc s p, rfl, rfl, by simp [h]⟩

/-- A checked instruction does one of these if its effect, once the checks pass, is one of these. -/
theorem ExecCase.of_guarded {i : Instr} {s effect : State} (h : ChecksPass i s → ExecCase i s (.next effect)) :
    ExecCase i s (guarded i s effect) := by
  rcases guarded_cases i s effect with ⟨hc, e⟩ | ⟨hw, e⟩ | ⟨hw, ha, e⟩ | ⟨hw, ha, ⟨r, hr, hv⟩, e⟩ <;> rw [e]
  · exact h hc
  · exact .fault _ (.immRange hw)
  · exact .fault _ (.operandAlias hw ha)
  · exact .fault _ (.uninitRead hw ha r hr hv)

/-- The shape of every data instruction with one destination. -/
theorem ExecCase.of_finish {i : Instr} {s : State} {d : Reg} {x : V256} (h : destinations i = [d]) :
    ExecCase i s (guarded i s (s.finish d x)) :=
  .of_guarded fun hc => .write _ hc (.of_finish s x h)

/-- The shape of every instruction that writes the PC alone. -/
theorem ExecCase.of_setPc {i : Instr} {s : State} {p : Pc} (h : destinations i = []) :
    ExecCase i s (guarded i s (s.setPc p)) :=
  .of_guarded fun hc => .write _ hc (.of_setPc s p h)

/-- A draw writes its two destinations. -/
theorem WritesDestinations.of_draw {d s1 : Reg} (s : State) (p x : V256) :
    WritesDestinations (.vprng d s1) s ((s.writeV s1 p).finish d x) := by
  have hreg : ∀ r, r ≠ d → ((s.writeV s1 p).finish d x).reg r = (s.writeV s1 p).reg r :=
    fun r h => State.reg_writeV_ne (s.writeV s1 p) d r x h
  have hval : ∀ r, r ≠ d → ((s.writeV s1 p).finish d x).isValid r = (s.writeV s1 p).isValid r :=
    fun r h => State.isValid_writeV_ne (s.writeV s1 p) d r x h
  refine ⟨⟨fun r hr => ?_, fun a => rfl, ⟨rfl, rfl, rfl, rfl⟩, rfl, fun i => rfl, rfl, rfl, rfl, rfl⟩, rfl, rfl,
    fun r hr => ?_⟩
  · simp only [destinations, List.mem_cons, List.not_mem_nil, or_false, not_or] at hr
    rw [hreg r hr.1, hval r hr.1, State.reg_writeV_ne _ _ _ _ hr.2, State.isValid_writeV_ne _ _ _ _ hr.2]
    exact ⟨rfl, rfl⟩
  · by_cases h : r = d
    · subst h; simp
    · simp only [destinations, List.mem_cons, List.not_mem_nil, or_false, h, false_or] at hr
      subst hr
      rw [hval r h, State.isValid_writeV_same]

/-- Everything an instruction can do: `cases` on this, never on the meanings. -/
theorem exec_cases (i : Instr) (s : State) : ExecCase i s (exec i s) := by
  cases i
  case nop => exact .of_setPc rfl
  case halt => exact .of_guarded fun _ => .halt rfl
  case jmp => exact .of_setPc rfl
  case bz =>
    refine .of_guarded fun hc => ?_
    split
    · exact .write _ hc (.of_setPc s _ rfl)
    · exact .write _ hc (.of_setPc s _ rfl)
  case bnz =>
    refine .of_guarded fun hc => ?_
    split
    · exact .write _ hc (.of_setPc s _ rfl)
    · exact .write _ hc (.of_setPc s _ rfl)
  case vld d imm16 =>
    refine .of_guarded fun hc => ?_
    split
    · exact .write _ hc (.of_finish s _ rfl)
    · exact .fault _ (.dmemRange hc d imm16 (.inl rfl) (Bool.eq_false_of_not_eq_true ‹¬_›))
  case vst d imm16 =>
    refine .of_guarded fun hc => ?_
    split
    · exact .store d imm16 rfl (hc.2.2 d (by simp [sources])) ‹_›
    · exact .fault _ (.dmemRange hc d imm16 (.inr rfl) (Bool.eq_false_of_not_eq_true ‹¬_›))
  case vprng => exact .of_guarded fun hc => .write _ hc (.of_draw s _ _)
  all_goals exact .of_finish rfl

/-- Every instruction makes the checks of R82 first. -/
theorem exec_guarded (i : Instr) (s : State) : ∃ effect, exec i s = guarded i s effect := by
  cases i <;> exact ⟨_, rfl⟩

/-! ## Steps -/

/-- When the core moves, the step is fetch and run. -/
theorem step_of_coreMoves {s : State} (ht : s.turns = []) (hs : s.state = .running) : step s = fetchAndRun s := by
  simp [step, takeTurn, ht, coreStep, hs]

/-- Everything fetch and run can do. -/
theorem fetchAndRun_cases (s : State) :
    (s.build.imemWords ≤ s.pc.toNat ∧ fetchAndRun s = .next (s.raise .fetchRange 0#32)) ∨
    (s.pc.toNat < s.build.imemWords ∧ ∃ c, decode (s.imemWord s.pc.toNat) = .error c ∧
      fetchAndRun s = .next (s.raise (causeOf c) (s.imemWord s.pc.toNat))) ∨
    (s.pc.toNat < s.build.imemWords ∧ ∃ i, decode (s.imemWord s.pc.toNat) = .ok i ∧ fetchAndRun s = exec i s) := by
  by_cases h : s.pc.toNat < s.build.imemWords
  · right
    rcases hd : decode (s.imemWord s.pc.toNat) with c | i
    · exact .inl ⟨h, c, rfl, by simp [fetchAndRun, h, runWord, hd]⟩
    · exact .inr ⟨h, i, rfl, by simp [fetchAndRun, h, runWord, hd]⟩
  · exact .inl ⟨by omega, by simp [fetchAndRun, h]⟩

/-- Everything a step can do, by whose turn it is. -/
theorem step_cases (s : State) :
    (s.turns = [] ∧ step s = coreStep s) ∨
    (∃ rest, s.turns = .core :: rest ∧ s.state = .running ∧ step s = fetchAndRun { s with turns := rest }) ∨
    (∃ rest, s.turns = .core :: rest ∧ s.state ≠ .running ∧ step s = .next { s with turns := rest }) ∨
    ∃ t rest, s.turns = .host t :: rest ∧ step s = hostAct t { s with turns := rest } := by
  rcases h : s.turns with _ | ⟨_ | t, rest⟩
  · exact .inl ⟨rfl, by simp [step, takeTurn, h]⟩
  · by_cases hs : s.state = .running
    · exact .inr (.inl ⟨rest, rfl, hs, by simp [step, takeTurn, h, hs]⟩)
    · exact .inr (.inr (.inl ⟨rest, rfl, hs, by simp [step, takeTurn, h, hs]⟩))
  · exact .inr (.inr (.inr ⟨t, rest, rfl, by simp [step, takeTurn, h]⟩))

end Sys2Proof.Machine
end

