-- ==== Sys2Proof/Laws/Host.lean ====
section
/-! SUPPORT. The host's transactions: a turn of the host is its transaction, what each control register reads, the two that
can be written, and what one transaction can do to the memories, the registers and the run. -/

namespace Sys2Proof.Machine

/-- The host's turn is its transaction. -/
theorem step_of_hostTurn {s : State} {t : HostTxn} {rest : List Turn} (h : s.turns = .host t :: rest) :
    step s = hostAct t { s with turns := rest } := by
  simp [step, takeTurn, h]

@[simp] theorem hostAct_reset (s : State) : hostAct .reset s = .next s.hostReset := rfl
@[simp] theorem hostAct_writeImem (i : Nat) (w : Word) (s : State) :
    hostAct (.writeImem i w) s = .next (s.hostWriteImem i w) := rfl
@[simp] theorem hostAct_readImem (i : Nat) (s : State) :
    hostAct (.readImem i) s = .next (s.reply (.imem (s.hostReadImem i))) := rfl
@[simp] theorem hostAct_writeDmem (a : Nat) (b : Byte) (s : State) :
    hostAct (.writeDmem a b) s = .next (s.hostWriteDmem a b) := rfl
@[simp] theorem hostAct_readDmem (a : Nat) (s : State) :
    hostAct (.readDmem a) s = .next (s.reply (.dmem (s.hostReadDmem a))) := rfl
@[simp] theorem hostAct_writeV (i : Nat) (x : V256) (s : State) :
    hostAct (.writeV i x) s = .next (s.hostWriteV i x) := rfl
@[simp] theorem hostAct_readV (i : Nat) (s : State) :
    hostAct (.readV i) s = .next (s.reply (.v (s.hostReadV i))) := rfl
theorem hostAct_readCr {o : Nat} (h : o % 4 = 0) (s : State) :
    hostAct (.readCr o) s = .next (s.reply (.cr (s.readCr o))) := by
  simp [hostAct, h]
theorem hostAct_writeCr {o : Nat} (h : o % 4 = 0) (v : Word) (s : State) :
    hostAct (.writeCr o v) s = .next (s.writeCr o v) := by
  simp [hostAct, h]

/-- A write of CTRL. -/
theorem State.writeCr_ctrl (s : State) (v : Word) : s.writeCr 0x0C v = s.writeCtrl v := rfl

/-- A write of ENTRY_PC. -/
theorem State.writeCr_entryPc (s : State) (v : Word) : s.writeCr 0x18 v = s.writeEntryPc v := rfl

/-- Only two registers can be written. -/
theorem State.writeCr_cases (s : State) (o : Nat) (v : Word) :
    (o = 0x0C ∧ s.writeCr o v = s.writeCtrl v) ∨ (o = 0x18 ∧ s.writeCr o v = s.writeEntryPc v) ∨
    (o ≠ 0x0C ∧ o ≠ 0x18 ∧ s.writeCr o v = s) := by
  rcases h : ControlReg.ofOffset o with _ | r
  · refine .inr (.inr ⟨?_, ?_, by simp [State.writeCr, h]⟩) <;> rintro rfl <;> cases h
  · have ho : o = r.offset := by
      have hr := List.find?_some h
      simpa using (eq_of_beq hr).symm
    subst ho
    cases r
    case ctrl => exact .inl ⟨rfl, rfl⟩
    case entryPc => exact .inr (.inl ⟨rfl, rfl⟩)
    all_goals exact .inr (.inr ⟨by decide, by decide, rfl⟩)

/-- START leaves everything but the PC, CAUSE and STATE. -/
theorem State.start_cases (s : State) :
    (s.state = .running ∧ s.start = s) ∨
    (s.state ≠ .running ∧ s.start = { s with pc := s.entryPc, cause := .none, state := .running }) := by
  by_cases h : s.state = .running
  · exact .inl ⟨h, by simp [State.start, h]⟩
  · exact .inr ⟨h, by simp [State.start, h]⟩

/-- CLEAR leaves everything but CAUSE and STATE. -/
theorem State.clear_cases (s : State) :
    ((s.state = .halted ∨ s.state = .faulted) ∧ s.clear = { s with state := .idle, cause := .none }) ∨
    ((s.state = .idle ∨ s.state = .running) ∧ s.clear = s) := by
  rcases h : s.state with _ | _ | _ | _ <;> simp [State.clear, h]

/-- ABORT acts while RUNNING alone. -/
theorem State.abort_cases (s : State) :
    (s.state = .running ∧ s.abort = s.raise .hostAbort 0#32) ∨ (s.state ≠ .running ∧ s.abort = s) := by
  by_cases h : s.state = .running
  · exact .inl ⟨h, by simp [State.abort, h]⟩
  · exact .inr ⟨h, by simp [State.abort, h]⟩

/-! ## Several turns -/

@[simp] theorem run_zero (s : State) : Sys2Proof.core.run 0 s = .next s := rfl

/-- A run whose first step answers a next state goes on from there. -/
theorem run_succ {s t : State} (k : Nat) (h : step s = .next t) :
    Sys2Proof.core.run (k + 1) s = Sys2Proof.core.run k t := by
  have h' : Sys2Proof.core.step s = .next t := h
  simp only [Host.Core.run, h']

/-- A run that answers a next state had a first step that does. -/
theorem run_succ_next {s t : State} {k : Nat} (h : Sys2Proof.core.run (k + 1) s = .next t) :
    ∃ u, step s = .next u ∧ Sys2Proof.core.run k u = .next t := by
  rcases hs : step s with u | f | r
  · exact ⟨u, rfl, (run_succ k hs).symm.trans h⟩
  all_goals
    have h' : Sys2Proof.core.step s = _ := hs
    simp only [Host.Core.run, h', reduceCtorEq] at h

/-- A run of `k + l` steps is one of `k` and then one of `l`. -/
theorem run_add {s t : State} (k l : Nat) (h : Sys2Proof.core.run k s = .next t) :
    Sys2Proof.core.run (k + l) s = Sys2Proof.core.run l t := by
  induction k generalizing s with
  | zero => cases h; rw [Nat.zero_add]
  | succ k ih =>
    obtain ⟨u, hu, hk⟩ := run_succ_next h
    rw [show k + 1 + l = k + l + 1 by omega, run_succ (k + l) hu]
    exact ih hk

end Sys2Proof.Machine
end

