-- ==== Sys2Proof/Laws/PerInstr.lean ====
section
/-! SUPPORT. Facts about every instruction as syntax, one lemma per constructor: the opcode field of its word is its
opcode (30_encoding.md R77), and the must-be-zero bits of its word are zero (R72, R79). -/

namespace Sys2Proof.Laws

/-- The opcode field of the encoded word is the instruction's opcode (R77). -/
def EncodeOpcode.Statement (i : Instr) : Prop := opField (encode i) = i.op.code

/-- The must-be-zero bits of the encoded word are zero (R72). -/
def EncodeReserved.Statement (i : Instr) : Prop := reservedClear i.op.format (encode i) = true

theorem EncodeOpcode.nop : EncodeOpcode.Statement (.nop) :=
  opField_packN _
theorem EncodeOpcode.halt : EncodeOpcode.Statement (.halt) :=
  opField_packN _
theorem EncodeOpcode.jmp (imm16 : BitVec 16) : EncodeOpcode.Statement (.jmp imm16) :=
  opField_packJ _ _
theorem EncodeOpcode.bz (d : Reg) (imm16 : BitVec 16) : EncodeOpcode.Statement (.bz d imm16) :=
  opField_packB _ _ _
theorem EncodeOpcode.bnz (d : Reg) (imm16 : BitVec 16) : EncodeOpcode.Statement (.bnz d imm16) :=
  opField_packB _ _ _
theorem EncodeOpcode.vld (d : Reg) (imm16 : BitVec 16) : EncodeOpcode.Statement (.vld d imm16) :=
  opField_packB _ _ _
theorem EncodeOpcode.vst (d : Reg) (imm16 : BitVec 16) : EncodeOpcode.Statement (.vst d imm16) :=
  opField_packB _ _ _
theorem EncodeOpcode.vadd8 (d s1 s2 : Reg) : EncodeOpcode.Statement (.vadd8 d s1 s2) :=
  opField_packR3 _ _ _ _
theorem EncodeOpcode.vadd16 (d s1 s2 : Reg) : EncodeOpcode.Statement (.vadd16 d s1 s2) :=
  opField_packR3 _ _ _ _
theorem EncodeOpcode.vadd64 (d s1 s2 : Reg) : EncodeOpcode.Statement (.vadd64 d s1 s2) :=
  opField_packR3 _ _ _ _
theorem EncodeOpcode.vsub8 (d s1 s2 : Reg) : EncodeOpcode.Statement (.vsub8 d s1 s2) :=
  opField_packR3 _ _ _ _
theorem EncodeOpcode.vsub16 (d s1 s2 : Reg) : EncodeOpcode.Statement (.vsub16 d s1 s2) :=
  opField_packR3 _ _ _ _
theorem EncodeOpcode.vsub64 (d s1 s2 : Reg) : EncodeOpcode.Statement (.vsub64 d s1 s2) :=
  opField_packR3 _ _ _ _
theorem EncodeOpcode.vxor (d s1 s2 : Reg) : EncodeOpcode.Statement (.vxor d s1 s2) :=
  opField_packR3 _ _ _ _
theorem EncodeOpcode.vor (d s1 s2 : Reg) : EncodeOpcode.Statement (.vor d s1 s2) :=
  opField_packR3 _ _ _ _
theorem EncodeOpcode.vand (d s1 s2 : Reg) : EncodeOpcode.Statement (.vand d s1 s2) :=
  opField_packR3 _ _ _ _
theorem EncodeOpcode.vcmpgt8 (d s1 s2 : Reg) : EncodeOpcode.Statement (.vcmpgt8 d s1 s2) :=
  opField_packR3 _ _ _ _
theorem EncodeOpcode.vcmpgt16 (d s1 s2 : Reg) : EncodeOpcode.Statement (.vcmpgt16 d s1 s2) :=
  opField_packR3 _ _ _ _
theorem EncodeOpcode.vcmpgt64 (d s1 s2 : Reg) : EncodeOpcode.Statement (.vcmpgt64 d s1 s2) :=
  opField_packR3 _ _ _ _
theorem EncodeOpcode.vhadd16 (d s1 s2 : Reg) : EncodeOpcode.Statement (.vhadd16 d s1 s2) :=
  opField_packR3 _ _ _ _
theorem EncodeOpcode.vsign16 (d s1 s2 : Reg) : EncodeOpcode.Statement (.vsign16 d s1 s2) :=
  opField_packR3 _ _ _ _
theorem EncodeOpcode.vshufb (d s1 s2 : Reg) : EncodeOpcode.Statement (.vshufb d s1 s2) :=
  opField_packR3 _ _ _ _
theorem EncodeOpcode.vpermq (d s1 : Reg) (imm8 : BitVec 8) : EncodeOpcode.Statement (.vpermq d s1 imm8) :=
  opField_packRI _ _ _ _
theorem EncodeOpcode.vsll16 (d s1 : Reg) (imm8 : BitVec 8) : EncodeOpcode.Statement (.vsll16 d s1 imm8) :=
  opField_packRI _ _ _ _
theorem EncodeOpcode.vsrl16 (d s1 : Reg) (imm8 : BitVec 8) : EncodeOpcode.Statement (.vsrl16 d s1 imm8) :=
  opField_packRI _ _ _ _
theorem EncodeOpcode.vabs16 (d s1 : Reg) : EncodeOpcode.Statement (.vabs16 d s1) :=
  opField_packR2 _ _ _
theorem EncodeOpcode.vbcst128 (d s1 : Reg) : EncodeOpcode.Statement (.vbcst128 d s1) :=
  opField_packR2 _ _ _
theorem EncodeOpcode.vprng (d s1 : Reg) : EncodeOpcode.Statement (.vprng d s1) :=
  opField_packR2 _ _ _

theorem EncodeReserved.nop : EncodeReserved.Statement (.nop) :=
  reservedClear_packN _
theorem EncodeReserved.halt : EncodeReserved.Statement (.halt) :=
  reservedClear_packN _
theorem EncodeReserved.jmp (imm16 : BitVec 16) : EncodeReserved.Statement (.jmp imm16) :=
  reservedClear_packJ _ _
theorem EncodeReserved.bz (d : Reg) (imm16 : BitVec 16) : EncodeReserved.Statement (.bz d imm16) :=
  reservedClear_packB _ _ _
theorem EncodeReserved.bnz (d : Reg) (imm16 : BitVec 16) : EncodeReserved.Statement (.bnz d imm16) :=
  reservedClear_packB _ _ _
theorem EncodeReserved.vld (d : Reg) (imm16 : BitVec 16) : EncodeReserved.Statement (.vld d imm16) :=
  reservedClear_packB _ _ _
theorem EncodeReserved.vst (d : Reg) (imm16 : BitVec 16) : EncodeReserved.Statement (.vst d imm16) :=
  reservedClear_packB _ _ _
theorem EncodeReserved.vadd8 (d s1 s2 : Reg) : EncodeReserved.Statement (.vadd8 d s1 s2) :=
  reservedClear_packR3 _ _ _ _
theorem EncodeReserved.vadd16 (d s1 s2 : Reg) : EncodeReserved.Statement (.vadd16 d s1 s2) :=
  reservedClear_packR3 _ _ _ _
theorem EncodeReserved.vadd64 (d s1 s2 : Reg) : EncodeReserved.Statement (.vadd64 d s1 s2) :=
  reservedClear_packR3 _ _ _ _
theorem EncodeReserved.vsub8 (d s1 s2 : Reg) : EncodeReserved.Statement (.vsub8 d s1 s2) :=
  reservedClear_packR3 _ _ _ _
theorem EncodeReserved.vsub16 (d s1 s2 : Reg) : EncodeReserved.Statement (.vsub16 d s1 s2) :=
  reservedClear_packR3 _ _ _ _
theorem EncodeReserved.vsub64 (d s1 s2 : Reg) : EncodeReserved.Statement (.vsub64 d s1 s2) :=
  reservedClear_packR3 _ _ _ _
theorem EncodeReserved.vxor (d s1 s2 : Reg) : EncodeReserved.Statement (.vxor d s1 s2) :=
  reservedClear_packR3 _ _ _ _
theorem EncodeReserved.vor (d s1 s2 : Reg) : EncodeReserved.Statement (.vor d s1 s2) :=
  reservedClear_packR3 _ _ _ _
theorem EncodeReserved.vand (d s1 s2 : Reg) : EncodeReserved.Statement (.vand d s1 s2) :=
  reservedClear_packR3 _ _ _ _
theorem EncodeReserved.vcmpgt8 (d s1 s2 : Reg) : EncodeReserved.Statement (.vcmpgt8 d s1 s2) :=
  reservedClear_packR3 _ _ _ _
theorem EncodeReserved.vcmpgt16 (d s1 s2 : Reg) : EncodeReserved.Statement (.vcmpgt16 d s1 s2) :=
  reservedClear_packR3 _ _ _ _
theorem EncodeReserved.vcmpgt64 (d s1 s2 : Reg) : EncodeReserved.Statement (.vcmpgt64 d s1 s2) :=
  reservedClear_packR3 _ _ _ _
theorem EncodeReserved.vhadd16 (d s1 s2 : Reg) : EncodeReserved.Statement (.vhadd16 d s1 s2) :=
  reservedClear_packR3 _ _ _ _
theorem EncodeReserved.vsign16 (d s1 s2 : Reg) : EncodeReserved.Statement (.vsign16 d s1 s2) :=
  reservedClear_packR3 _ _ _ _
theorem EncodeReserved.vshufb (d s1 s2 : Reg) : EncodeReserved.Statement (.vshufb d s1 s2) :=
  reservedClear_packR3 _ _ _ _
theorem EncodeReserved.vpermq (d s1 : Reg) (imm8 : BitVec 8) : EncodeReserved.Statement (.vpermq d s1 imm8) :=
  reservedClear_packRI _ _ _ _
theorem EncodeReserved.vsll16 (d s1 : Reg) (imm8 : BitVec 8) : EncodeReserved.Statement (.vsll16 d s1 imm8) :=
  reservedClear_packRI _ _ _ _
theorem EncodeReserved.vsrl16 (d s1 : Reg) (imm8 : BitVec 8) : EncodeReserved.Statement (.vsrl16 d s1 imm8) :=
  reservedClear_packRI _ _ _ _
theorem EncodeReserved.vabs16 (d s1 : Reg) : EncodeReserved.Statement (.vabs16 d s1) :=
  reservedClear_packR2 _ _ _
theorem EncodeReserved.vbcst128 (d s1 : Reg) : EncodeReserved.Statement (.vbcst128 d s1) :=
  reservedClear_packR2 _ _ _
theorem EncodeReserved.vprng (d s1 : Reg) : EncodeReserved.Statement (.vprng d s1) :=
  reservedClear_packR2 _ _ _

end Sys2Proof.Laws
end

