-- ==== Sys2Proof/Tests/Slice0.lean ====
section
/-! SUPPORT. The model's own tests: the well-formedness smoke test, words written out from the spec's encodings and what they
decode to, one or two steps per instruction, the faults, the host and the assembler, with expected values from
spec/95_test_vectors.md, and a witness for the hypotheses of every obligation that has any. -/

namespace Sys2Proof.Tests

open Sys2Proof.Machine

set_option Elab.async false

/-! ## Well-formedness -/

theorem test_wellFormed_shift_sixteen : (Instr.vsll16 1 2 16#8).wellFormed = true ∧
    (Instr.vsrl16 1 2 16#8).wellFormed = true := by decide

theorem test_illFormed_vsll16_seventeen : (Instr.vsll16 1 2 17#8).wellFormed = false := by decide

theorem test_illFormed_vsrl16_seventeen : (Instr.vsrl16 1 2 17#8).wellFormed = false := by decide

/-! ## Decoding: each word is written out field by field from R72 and R77 -/

/-- Format N, then formats J, B and M (R72): opcode, d, zeros, imm16. -/
theorem test_decode_control_and_memory :
    decode 0b000001_00000000000000000000000000#32 = .ok .nop ∧
    decode 0b000010_00000000000000000000000000#32 = .ok .halt ∧
    decode 0b000011_0000000000_1111111111111100#32 = .ok (.jmp 0xFFFC#16) ∧
    decode 0b000100_0010_000000_1111111111111010#32 = .ok (.bz 2 0xFFFA#16) ∧
    decode 0b000101_1000_000000_0000000000000001#32 = .ok (.bnz 8 1#16) ∧
    decode 0b000110_0001_000000_0000000000000010#32 = .ok (.vld 1 2#16) ∧
    decode 0b000111_0011_000000_1000000000000011#32 = .ok (.vst 3 0x8003#16) :=
  ⟨rfl, rfl, rfl, rfl, rfl, rfl, rfl⟩

/-- Format R3 (R72): opcode, d, s1, s2, zeros; registers 1, 2 and 4, or 8, 4 and 1. -/
theorem test_decode_lanewise :
    decode 0b010000_0001_0010_0100_00000000000000#32 = .ok (.vadd8 1 2 4) ∧
    decode 0b010001_0001_0010_0011_00000000000000#32 = .ok (.vadd16 1 2 3) ∧
    decode 0b010010_1000_0100_0001_00000000000000#32 = .ok (.vadd64 8 4 1) ∧
    decode 0b010011_0001_0010_0100_00000000000000#32 = .ok (.vsub8 1 2 4) ∧
    decode 0b010100_0001_0010_0100_00000000000000#32 = .ok (.vsub16 1 2 4) ∧
    decode 0b010101_1000_0100_0001_00000000000000#32 = .ok (.vsub64 8 4 1) ∧
    decode 0b010110_0001_0010_0100_00000000000000#32 = .ok (.vxor 1 2 4) ∧
    decode 0b010111_0001_0010_0100_00000000000000#32 = .ok (.vor 1 2 4) ∧
    decode 0b011000_1111_0100_0001_00000000000000#32 = .ok (.vand 15 4 1) ∧
    decode 0b011001_0001_0010_0100_00000000000000#32 = .ok (.vcmpgt8 1 2 4) ∧
    decode 0b011010_0011_0001_0010_00000000000000#32 = .ok (.vcmpgt16 3 1 2) ∧
    decode 0b011011_1000_0100_0001_00000000000000#32 = .ok (.vcmpgt64 8 4 1) :=
  ⟨rfl, rfl, rfl, rfl, rfl, rfl, rfl, rfl, rfl, rfl, rfl, rfl⟩

theorem test_decode_hadd_sign_shuffle :
    decode 0b011100_0011_0001_0010_00000000000000#32 = .ok (.vhadd16 3 1 2) ∧
    decode 0b011101_1000_0100_0001_00000000000000#32 = .ok (.vsign16 8 4 1) ∧
    decode 0b011110_0001_0010_0100_00000000000000#32 = .ok (.vshufb 1 2 4) :=
  ⟨rfl, rfl, rfl⟩

/-- Formats RI and R2 (R72): opcode, d, s1, zeros, imm8. -/
theorem test_decode_permute_shift_unary :
    decode 0b011111_0001_0010_0000000000_11100100#32 = .ok (.vpermq 1 2 0xE4#8) ∧
    decode 0b100000_0001_0010_0000000000_00010000#32 = .ok (.vsll16 1 2 16#8) ∧
    decode 0b100001_1000_0100_0000000000_00000001#32 = .ok (.vsrl16 8 4 1#8) ∧
    decode 0b100010_0001_0010_000000000000000000#32 = .ok (.vabs16 1 2) ∧
    decode 0b100011_1000_0100_000000000000000000#32 = .ok (.vbcst128 8 4) ∧
    decode 0b100100_0010_0001_000000000000000000#32 = .ok (.vprng 2 1) :=
  ⟨rfl, rfl, rfl, rfl, rfl, rfl⟩

/-- 95_test_vectors.md section 2.10: the words that decode to no instruction, each with its fault. -/
theorem test_decode_faults :
    decode 0x00000000#32 = .error .illegalOpcode ∧ decode 0xFFFFFFFF#32 = .error .illegalOpcode ∧
    decode 0x20000000#32 = .error .illegalOpcode ∧ decode 0x94000000#32 = .error .illegalOpcode ∧
    decode 0x4448C001#32 = .error .reservedField ∧ decode 0x80440011#32 = .error .immRange ∧
    decode 0x80450011#32 = .error .reservedField ∧ decode 0x7C480100#32 = .error .reservedField ∧
    decode 0x18410002#32 = .error .reservedField ∧ decode 0x04000001#32 = .error .reservedField ∧
    decode 0x90840001#32 = .error .reservedField :=
  ⟨rfl, rfl, rfl, rfl, rfl, rfl, rfl, rfl, rfl, rfl, rfl⟩

/-- 95_test_vectors.md section 2.11 and R53: the bytes of `vmov v1, v2`, lowest first. -/
theorem test_decodeBytes : decodeBytes [0xE4#8, 0x00#8, 0x48#8, 0x7C#8, 0x01#8] =
    some (.ok (.vpermq 1 2 0xE4#8), [0x01#8]) := rfl

/-- The whole word of the opcode table decodes, and bits above `nbits` count as 0. -/
theorem test_decodeTableWord : decodeTableWord 32 0x90840000 = some (.vprng 2 1) ∧
    decodeTableWord 32 0x194000000 = none ∧ decodeTableWord 32 0x104000000 = some .nop := ⟨rfl, rfl, rfl⟩

/-! ## Small states -/

/-- 95_test_vectors.md section 2.1. -/
def VA : V256 := 0xFFFE0002C0004000FF0000FFFFFB00057FFF80001234FFFF80007FFF00010000#256

/-- 95_test_vectors.md section 2.1. -/
def VB : V256 := 0x0002FFFF40004000800000070000FFFD80008000432100010001000100010001#256

/-- A running core at PC 0 whose V[1] and V[2] are written and no other register is. -/
def two (a b : V256) : State :=
  { State.reset with
    v := ((Vector.replicate 16 0#256).set 1 a).set 2 b
    valid := 0x0006#16
    state := .running }

/-- The same core at another PC. -/
def twoAt (pc : Pc) (a b : V256) : State := { two a b with pc := pc }

/-- The same core of an AES build. -/
def twoAes (a b : V256) : State :=
  { two a b with build := { Config.Build.reference with prngPath := .aes } }

/-- The same core in another STATE. -/
def twoIn (r : RunState) (c : Cause) : State := { two VA VB with state := r, cause := c }

/-- The instruction completes and leaves `x` in V[3], which was unwritten, and the PC at 1. -/
def writesV3 (i : Instr) (a b x : V256) : Bool :=
  match exec i (two a b) with
  | .next t => t.reg 3 == x && t.isValid 3 && t.pc == 1#16 && t.state == .running
  | _ => false

/-- The fetched word takes the fault `c` at the state's PC and leaves V, VALID, DMEM and the PC as they are. -/
def faultsWith (w : Word) (s : State) (c : Cause) : Bool :=
  match step (placeWord s w) with
  | .next t => t == { placeWord s w with state := .faulted, cause := c, faultPc := s.pc, faultInsn := w }
  | _ => false

/-- The fetched word leaves the core RUNNING at the PC `p` with nothing else changed. -/
def goesTo (w : Word) (s : State) (p : Pc) : Bool :=
  match step (placeWord s w) with
  | .next t => t == { placeWord s w with pc := p }
  | _ => false

/-- What a test sees of an outcome. -/
def after (r : Result) (p : State → Bool) : Bool :=
  match r with
  | .next t => p t
  | _ => false

/-- A core about to fetch a VADD16 in its turn, with a reset by the host after it. -/
def fetchTurn : State := { placeWord (two VA VB) 0x4448C000#32 with turns := [.core, .host .reset] }

/-! ## Data instructions -/

/-- 95_test_vectors.md section 2, R101. -/
theorem test_vadd8_wraps : writesV3 (.vadd8 3 1 2) VA VB
    0xFF00FF01000080007F000006FFFBFF02FFFF00005555FF0080017F0000020001#256 = true := by decide +kernel

/-- 95_test_vectors.md section 2, R102. -/
theorem test_vadd16_wraps : writesV3 (.vadd16 3 1 2) VA VB
    0x00000001000080007F000106FFFB0002FFFF0000555500008001800000020001#256 = true := by decide +kernel

/-- 95_test_vectors.md section 2, R103. -/
theorem test_vadd64_carries_inside_the_lane : writesV3 (.vadd64 3 1 2) VA VB
    0x00010002000080007F000106FFFC000200000000555600008001800000020001#256 = true := by decide +kernel

/-- 95_test_vectors.md section 2, R104. -/
theorem test_vsub8_order : writesV3 (.vsub8 3 2 1) VA VB
    0x0104FFFD80000000810000080105FFF80101000031ED01028001810200000001#256 = true := by decide +kernel

/-- 95_test_vectors.md section 2, R105. -/
theorem test_vsub16_order : writesV3 (.vsub16 3 2 1) VA VB
    0x0004FFFD800000008100FF080005FFF80001000030ED00028001800200000001#256 = true := by decide +kernel

/-- 95_test_vectors.md section 2, R106. -/
theorem test_vsub64_order : writesV3 (.vsub64 3 2 1) VA VB
    0x0004FFFC8000000080FFFF070005FFF80001000030EC00028000800200000001#256 = true := by decide +kernel

/-- 95_test_vectors.md section 2, R107. -/
theorem test_vxor_distinct : writesV3 (.vxor 3 1 2) VA VB
    0xFFFCFFFD800000007F0000F8FFFBFFF8FFFF00005115FFFE80017FFE00000001#256 = true := by decide +kernel

/-- 95_test_vectors.md section 2, R108. -/
theorem test_vor_bits : writesV3 (.vor 3 1 2) VA VB
    0xFFFEFFFFC0004000FF0000FFFFFBFFFDFFFF80005335FFFF80017FFF00010001#256 = true := by decide +kernel

/-- 95_test_vectors.md section 2, R109. -/
theorem test_vand_bits : writesV3 (.vand 3 1 2) VA VB
    0x0002000240004000800000070000000500008000022000010000000100010000#256 = true := by decide +kernel

/-- 95_test_vectors.md section 2, R110. -/
theorem test_vcmpgt8_signed : writesV3 (.vcmpgt8 3 1 2) VA VB
    0x0000FFFF00000000FF0000000000FFFFFF00000000FF00000000FF0000000000#256 = true := by decide +kernel

/-- 95_test_vectors.md section 2, R111. -/
theorem test_vcmpgt16_signed : writesV3 (.vcmpgt16 3 1 2) VA VB
    0x0000FFFF00000000FFFFFFFF0000FFFFFFFF0000000000000000FFFF00000000#256 = true := by decide +kernel

/-- 95_test_vectors.md section 2, R112. -/
theorem test_vcmpgt64_signed : writesV3 (.vcmpgt64 3 1 2) VA VB
    0x0000000000000000FFFFFFFFFFFFFFFFFFFFFFFFFFFFFFFF0000000000000000#256 = true := by decide +kernel

/-- 95_test_vectors.md section 2, R130. -/
theorem test_vhadd16_layout : writesV3 (.vhadd16 3 1 2) VA VB
    0x000180008007FFFD00000000FFFF00000000432200020002FFFF1233FFFF0001#256 = true := by decide +kernel

/-- 95_test_vectors.md section 2, R130. -/
theorem test_vhadd16_same_register : writesV3 (.vhadd16 3 1 1) VA VB
    0x00000000FFFF000000000000FFFF0000FFFF1233FFFF0001FFFF1233FFFF0001#256 = true := by decide +kernel

/-- 95_test_vectors.md section 2, R133. -/
theorem test_vsign16_magnitude_first : writesV3 (.vsign16 3 1 2) VA VB
    0xFFFEFFFEC0004000010000FF0000FFFB800180001234FFFF80007FFF00010000#256 = true := by decide +kernel

/-- 95_test_vectors.md section 2, R133. -/
theorem test_vsign16_swapped : writesV3 (.vsign16 3 2 1) VA VB
    0xFFFEFFFFC0004000800000070000FFFD800080004321FFFFFFFF000100010000#256 = true := by decide +kernel

/-- 95_test_vectors.md section 2, R140. -/
theorem test_vshufb_halves : writesV3 (.vshufb 3 1 2)
    0xBFBEBDBCBBBAB9B8B7B6B5B4B3B2B1B0AFAEADACABAAA9A8A7A6A5A4A3A2A1A0#256
    0x030C08704A0E01018F05FF7F10800F00030C08704A0E01018F05FF7F10800F00#256
    0xB3BCB8B0BABEB1B100B500BFB000BFB0A3ACA8A0AAAEA1A100A500AFA000AFA0#256 = true := by decide +kernel

/-- 95_test_vectors.md section 2, R141. -/
theorem test_vpermq_fields : writesV3 (.vpermq 3 1 0x9C#8)
    0x4444444444444444333333333333333322222222222222221111111111111111#256
    VB
    0x3333333333333333222222222222222244444444444444441111111111111111#256 = true := by decide +kernel

/-- 95_test_vectors.md section 2, R142. -/
theorem test_vpermq_groups : writesV3 (.vpermq 3 1 0x1B#8) VA VB
    0x80007FFF000100007FFF80001234FFFFFF0000FFFFFB0005FFFE0002C0004000#256 = true := by decide +kernel

/-- 95_test_vectors.md section 2, R151. -/
theorem test_vsll16_by_4 : writesV3 (.vsll16 3 1 4#8) VA VB
    0xFFE0002000000000F0000FF0FFB00050FFF000002340FFF00000FFF000100000#256 = true := by decide +kernel

/-- 95_test_vectors.md section 2, R151. -/
theorem test_vsll16_by_16 : writesV3 (.vsll16 3 1 16#8) VA VB
    0x0000000000000000000000000000000000000000000000000000000000000000#256 = true := by decide +kernel

/-- 95_test_vectors.md section 2, R152. -/
theorem test_vsrl16_by_1 : writesV3 (.vsrl16 3 1 1#8) VA VB
    0x7FFF0001600020007F80007F7FFD00023FFF4000091A7FFF40003FFF00000000#256 = true := by decide +kernel

/-- 95_test_vectors.md section 2, R152. -/
theorem test_vsrl16_by_15 : writesV3 (.vsrl16 3 1 15#8) VA VB
    0x0001000000010000000100000001000000000001000000010001000000000000#256 = true := by decide +kernel

/-- 95_test_vectors.md section 2, R154. -/
theorem test_vabs16_minimum : writesV3 (.vabs16 3 1) VA VB
    0x0002000240004000010000FF000500057FFF80001234000180007FFF00010000#256 = true := by decide +kernel

/-- 95_test_vectors.md section 2, R155. -/
theorem test_vbcst128_low_half : writesV3 (.vbcst128 3 1) VA VB
    0x7FFF80001234FFFF80007FFF000100007FFF80001234FFFF80007FFF00010000#256 = true := by decide +kernel

/-! ## PRNG -/

/-- 95_test_vectors.md section 2.7, MCG path, seed S2, first draw. -/
theorem test_vprng_mcg : after (exec (.vprng 2 1) (two 0x0F1E2D3C4B5A69788796A5B4C3D2E1F00123456789ABCDEFFEDCBA9876543210#256 VB))
    (fun t => t.reg 2 == 0x27AF36BE45CD54DB749AEC7EED91FA6F#256 &&
      t.reg 1 == 0x27AF36BE45CD54DB894A6A45BDF43EB0749AEC7EED91FA6F8A6C61DE128CE550#256) = true := by decide +kernel

/-- 95_test_vectors.md section 2.7, AES path, seed S2, first draw. -/
theorem test_vprng_aes : after (exec (.vprng 2 1) (twoAes 0x0F1E2D3C4B5A69788796A5B4C3D2E1F00123456789ABCDEFFEDCBA9876543210#256 VB))
    (fun t => t.reg 2 == 0x6B5DD869127DB1F4A669D0FAE8AC0266#256 &&
      t.reg 1 == 0x0123456789ABCDEFFEDCBA98765432106B5DD869127DB1F4A669D0FAE8AC0266#256) = true := by decide +kernel

/-- 95_test_vectors.md section 2.6. -/
theorem test_mixColumns : [0, 1, 2, 3].map (mixRow fun r => ([0xDB#8, 0x13#8, 0x53#8, 0x45#8] : List Byte).getD r 0#8) =
    [0x8E#8, 0x4D#8, 0xA1#8, 0xBC#8] := by decide +kernel

/-! ## Memory, control transfer and faults -/

/-- 95_test_vectors.md section 2.8: byte order, and the last whole unit of DMEM. -/
theorem test_vst_then_vld : after (exec (.vst 1 127#16) (two VA VB)) (fun t =>
    t.dmemByte 4064 == 0x00#8 && t.dmemByte 4066 == 0x01#8 && t.dmemByte 4095 == 0xFF#8 && t.dmem.length == 32 &&
    after (exec (.vld 3 127#16) t) fun u => u.reg 3 == VA && u.isValid 3 && u.dmem == t.dmem) = true := by
  decide +kernel

/-- 95_test_vectors.md section 2.8. -/
theorem test_vld_outside : faultsWith 0x18400080#32 (two VA VB) .dmemRange = true := by decide +kernel

/-- 95_test_vectors.md section 2.8: UNINIT_READ comes before DMEM_RANGE. -/
theorem test_vst_unwritten : faultsWith 0x1CC00080#32 (two VA VB) .uninitRead = true := by decide +kernel

/-- 95_test_vectors.md section 2.9. -/
theorem test_nop : goesTo 0x04000000#32 (twoAt 5#16 VA VB) 6#16 = true := by decide +kernel

theorem test_halt : after (step (placeWord (twoAt 4#16 VA VB) 0x08000000#32))
    (fun t => t.state == .halted && t.pc == 4#16 && t.done && t.cause == .none) = true := by decide +kernel

theorem test_jmp_back : goesTo 0x0C00FFFC#32 (twoAt 7#16 VA VB) 3#16 = true := by decide +kernel

theorem test_jmp_wraps : goesTo 0x0C00FFFF#32 (twoAt 0#16 VA VB) 0xFFFF#16 = true := by decide +kernel

theorem test_bz_taken : goesTo 0x1080FFFA#32 (twoAt 10#16 VA 0#256) 4#16 = true := by decide +kernel

theorem test_bz_not_taken : goesTo 0x1080FFFA#32 (twoAt 10#16 VA VB) 11#16 = true := by decide +kernel

/-- Only bit 255 is set: all 256 bits are tested. -/
theorem test_bnz_top_bit : goesTo 0x1440FFFE#32 (twoAt 6#16 (1#256 <<< 255) VB) 4#16 = true := by decide +kernel

theorem test_bnz_not_taken : goesTo 0x1440FFFE#32 (twoAt 6#16 0#256 VB) 7#16 = true := by decide +kernel

/-- 95_test_vectors.md section 2.2: a word that names one register twice. -/
theorem test_vor_alias : faultsWith 0x5C488000#32 (two VA VB) .operandAlias = true := by decide +kernel

/-- OPERAND_ALIAS comes before UNINIT_READ. -/
theorem test_vand_alias_first : faultsWith 0x60444000#32 { two VA VB with valid := 0#16 } .operandAlias = true := by
  decide +kernel

/-- R26: an unwritten register zeroes itself. -/
theorem test_vxor_zeroes : writesV3 (.vxor 3 3 3) VA VB 0#256 = true := by decide +kernel

/-- 95_test_vectors.md section 2.10: IMM_RANGE comes before UNINIT_READ. -/
theorem test_vsll16_seventeen : faultsWith 0x80440011#32 { two VA VB with valid := 0#16 } .immRange = true := by
  decide +kernel

/-- 95_test_vectors.md section 2.7. -/
theorem test_vprng_alias : faultsWith 0x90440000#32 (two VA VB) .operandAlias = true := by decide +kernel

/-- 95_test_vectors.md, P7a. -/
theorem test_unwritten_sources : faultsWith 0x44D58000#32 (two VA VB) .uninitRead = true := by decide +kernel

/-- The core fetches at IMEM_WORDS, P7b: FAULT_PC is that PC and FAULT_INSN 0. -/
theorem test_fetch_range : after (step (twoAt 1024#16 VA VB)) (fun t => t.state == .faulted && t.cause == .fetchRange &&
    t.faultPc == 1024#16 && t.faultInsn == 0#32 && t.pc == 1024#16) = true := by decide +kernel

/-! ## The host -/

/-- 95_test_vectors.md section 3, step 10: ABORT, then CLEAR, then START in one write. -/
theorem test_ctrl_seven : after (step (withTurn (twoAt 9#16 VA VB) (.writeCr 0x0C 7#32) []))
    (fun t => t.state == .running && t.pc == 0#16 && t.cause == .none && t.faultPc == 9#16) = true := by decide +kernel

/-- 95_test_vectors.md section 3, the control registers after reset; offset 0x34 is listed by no rule. -/
theorem test_control_registers : [0x00, 0x04, 0x08, 0x0C, 0x10, 0x28, 0x2C, 0x30, 0x34].map State.reset.readCr =
    [0#32, 0x400#32, 0x1000#32, 0#32, 0#32, 0#32, 0xE4DD58B5#32, 0xDA942042#32, 0#32] := by decide +kernel

/-- R240: VALID, the PC and the fault registers are cleared, and the epoch of the free values moves on. -/
theorem test_host_reset : step (withTurn { twoIn .faulted .immRange with pc := 7#16, faultPc := 7#16 } .reset []) =
    .next (State.resetOf .reference 1) := rfl

/-- R244, R216: after a run the host reads what it left; a reply is what the turn returns. -/
theorem test_host_reads : after (step (withTurn (twoIn .halted .none) (.readV 1) []))
    (fun t => t.replies == [.v VA]) = true := by decide +kernel

/-! ## The assembler -/

/-- 95_test_vectors.md section 4, P2, as text: labels, comments, hexadecimal, a pseudo-instruction. -/
theorem test_assemble_loop : (assembleText 1024
    ("  vld v1, 0x00 ; counter\nvld v2, 32\nvzero v4\nloop: vadd16 v4, v4, v1\nvsub16 v1, v1, v2\n" ++
     "bnz v1, loop # back\n\nvst v4, 0x40\nhalt").toList).toOption.map (fun is => is.map encode) =
    some [0x18400000#32, 0x18800001#32, 0x59110000#32, 0x45104000#32, 0x50448000#32, 0x1440FFFE#32, 0x1D000002#32,
      0x08000000#32] := by decide +kernel

/-- 95_test_vectors.md section 2.11. -/
theorem test_assemble_vneg16 : (assembleText 1024 "vneg16 v1, v2, v3".toList).toOption.map (fun is => is.map encode) =
    some [0x58CCC000#32, 0x504C8000#32] := by decide +kernel

/-- R88: each of these is refused by name and line. -/
theorem test_assembler_refuses : ["vsll16 v1, v1, 17", "vpermq v1, v2, 256", "nop\nvld v1, 33", "vneg8 v1, v2, v2",
      "vadd8 v1, v2, v16", "vor v1, v2, v2", "jmp 32768",
      "vabs16 v1, v01", "vabs16 v007, v1", "vzero v00"].map
      (fun x => match assembleText 1024 x.toList with
        | .error e => some e
        | .ok _ => none) =
    [some (1, .shiftRange), some (1, .immRange), some (2, .addressRange), some (1, .negAlias), some (1, .registerName),
      some (1, .operandAlias), some (1, .targetRange),
      some (1, .registerName), some (1, .registerName), some (1, .registerName)] := by decide +kernel

/-! ## Witnesses: states and operands that meet the hypotheses of each obligation -/

/-- V[1] and V[2] are written and V[3] is not: what the rules with sources ask of a state. -/
theorem witness_sources : (two VA VB).isValid 1 = true ∧ (two VA VB).isValid 2 = true ∧ (two VA VB).isValid 3 = false ∧
    (1 : Reg) ≠ 2 ∧ (1 : Reg) ≠ 3 := by decide

theorem witness_DecodeOfEncode : (Instr.vsrl16 15 0 16#8).wellFormed = true := by decide

theorem witness_EncodeOfDecode : decode 0x84400010#32 = .ok (.vsrl16 1 0 16#8) := rfl

theorem witness_ReservedOpcodesAreIllegal : CoreMoves (placeWord (two VA VB) 0x94000000#32) ∧
    (placeWord (two VA VB) 0x94000000#32).pc.toNat < (placeWord (two VA VB) 0x94000000#32).build.imemWords ∧
    decode ((placeWord (two VA VB) 0x94000000#32).imemWord 0) = .error .illegalOpcode :=
  ⟨⟨rfl, rfl⟩, by decide, rfl⟩

theorem witness_MaskAndMatchDecideReservedFields : opField 0x4448C001#32 = Op.vadd16.code ∧
    0x4448C001#32 &&& Op.vadd16.format.mask ≠ Op.vadd16.matchWord ∧
    0x4448C000#32 &&& Op.vadd16.format.mask = Op.vadd16.matchWord ∧
    CoreMoves (placeWord (two VA VB) 0x4448C001#32) ∧
    (placeWord (two VA VB) 0x4448C001#32).pc.toNat < (placeWord (two VA VB) 0x4448C001#32).build.imemWords ∧
    decode ((placeWord (two VA VB) 0x4448C001#32).imemWord 0) = .error .reservedField :=
  ⟨by decide, by decide, by decide, ⟨rfl, rfl⟩, by decide, rfl⟩

theorem witness_OnlyShiftsRaiseImmRange : CoreMoves (placeWord (two VA VB) 0x80440011#32) ∧
    (placeWord (two VA VB) 0x80440011#32).pc.toNat < (placeWord (two VA VB) 0x80440011#32).build.imemWords ∧
    decode ((placeWord (two VA VB) 0x80440011#32).imemWord 0) = .error .immRange ∧ 16 < 17 :=
  ⟨⟨rfl, rfl⟩, by decide, rfl, by decide⟩

/-- R53's groups of four, lowest byte first, and an image with a byte left over. -/
theorem witness_ImageBytesBecomeWords :
    [0x00#8, 0xC0#8, 0x48#8, 0x44#8, 0x00#8, 0x00#8, 0x00#8, 0x08#8].length % 4 = 0 ∧
    packImage [0x00#8, 0xC0#8, 0x48#8, 0x44#8, 0x00#8, 0x00#8, 0x00#8, 0x08#8] = some [0x4448C000#32, 0x08000000#32] ∧
    [0x00#8, 0xC0#8, 0x48#8, 0x44#8, 0x00#8].length % 4 ≠ 0 := by decide

/-- A word of each opcode with one must-be-zero bit set: the hypothesis of the format clauses of every instruction rule,
at the lowest and the highest such bit. -/
theorem witness_formats :
    (opField 0x40000001#32 = 0x10#6 ∧ (0x40000001#32).extractLsb' 0 14 ≠ 0#14) ∧
    (opField 0x78002000#32 = 0x1E#6 ∧ (0x78002000#32).extractLsb' 0 14 ≠ 0#14) ∧
    (opField 0x88020000#32 = 0x22#6 ∧ (0x88020000#32).extractLsb' 0 18 ≠ 0#18) ∧
    (opField 0x7C000100#32 = 0x1F#6 ∧ (0x7C000100#32).extractLsb' 8 10 ≠ 0#10) ∧
    (opField 0x80020000#32 = 0x20#6 ∧ (0x80020000#32).extractLsb' 8 10 ≠ 0#10) ∧
    (opField 0x10010000#32 = 0x04#6 ∧ (0x10010000#32).extractLsb' 16 6 ≠ 0#6) ∧
    (opField 0x1C200000#32 = 0x07#6 ∧ (0x1C200000#32).extractLsb' 16 6 ≠ 0#6) ∧
    (opField 0x06000000#32 = 0x01#6 ∧ (0x06000000#32).extractLsb' 0 26 ≠ 0#26) ∧
    (opField 0x08000001#32 = 0x02#6 ∧ (0x08000001#32).extractLsb' 0 26 ≠ 0#26) ∧
    (opField 0x0C010000#32 = 0x03#6 ∧ (0x0C010000#32).extractLsb' 16 10 ≠ 0#10) := by decide

theorem witness_AddsAreLanewise : opField 0x48000001#32 = 0x12#6 ∧ (0x48000001#32).extractLsb' 0 14 ≠ 0#14 ∧
    (two VA VB).isValid 1 = true ∧ (two VA VB).isValid 2 = true ∧ (two VA VB).isValid 3 = false := by decide

theorem witness_SubtractsAreLanewise : opField 0x54000001#32 = 0x15#6 ∧ (0x54000001#32).extractLsb' 0 14 ≠ 0#14 ∧
    (two VB VA).isValid 1 = true ∧ (two VB VA).isValid 2 = true ∧ (two VB VA).isValid 0 = false := by decide

theorem witness_XorAndItsZeroingForm : (1 : Reg) ≠ 2 ∧ (two VA VB).isValid 1 = true ∧ (two VA VB).isValid 2 = true ∧
    (2 : Reg) ≠ 3 ∧ (two VA VB).isValid 3 = false ∧
    opField 0x58000001#32 = 0x16#6 ∧ (0x58000001#32).extractLsb' 0 14 ≠ 0#14 := by decide

theorem witness_OrAndRequireDistinctSources : (1 : Reg) ≠ 2 ∧ (two VA VB).isValid 1 = true ∧
    (two VA VB).isValid 2 = true ∧ (2 : Reg) ≠ 3 ∧ (two VA VB).isValid 3 = false ∧
    opField 0x60000001#32 = 0x18#6 ∧ (0x60000001#32).extractLsb' 0 14 ≠ 0#14 := by decide

theorem witness_ComparesAreSignedLaneMasks : opField 0x6C000001#32 = 0x1B#6 ∧
    (0x6C000001#32).extractLsb' 0 14 ≠ 0#14 ∧ (two VA VB).isValid 1 = true ∧ (two VA VB).isValid 2 = true ∧
    (two VA VB).isValid 15 = false := by decide

theorem witness_HorizontalAddLayout : opField 0x70000001#32 = 0x1C#6 ∧ (0x70000001#32).extractLsb' 0 14 ≠ 0#14 ∧
    (two VA VB).isValid 1 = true ∧ (two VA VB).isValid 0 = false := by decide

/-- A lane of each sign: 0x1234, 0 and 0x8000. -/
theorem witness_SignSelectsKeepZeroOrNegate : (1 : Reg) ≠ 2 ∧ (two VA VB).isValid 1 = true ∧
    (two VA VB).isValid 2 = true ∧ (two VA VB).isValid 3 = false ∧ 0 < (h16 VA 5).toInt ∧ h16 VA 0 = 0#16 ∧
    (h16 VA 3).toInt < 0 := by decide +kernel

theorem witness_SignumFormAgrees : 0 < (0x7FFF#16).toInt ∧ (0x8000#16).toInt < 0 := by decide

/-- Control bytes with the high bit clear and set: 0x7F and 0x80. -/
theorem witness_ShuffleStaysInItsHalf : (1 : Reg) ≠ 2 ∧ (two VA VB).isValid 1 = true ∧ (two VA VB).isValid 2 = true ∧
    (two VA VB).isValid 3 = false ∧ (b8 VA 5).getLsbD 7 = false ∧ (b8 VA 7).getLsbD 7 = true := by decide +kernel

theorem witness_PermuteSelectsBlocks : (two VA VB).isValid 1 = true ∧ (two VA VB).isValid 3 = false := by decide

theorem witness_PermuteMovesGroupsOfFourLanes : (two VA VB).isValid 2 = true := by decide

theorem witness_ShiftsFillWithZeros : (16#8).toNat ≤ 16 ∧ 16 < (17#8).toNat ∧ (two VA VB).isValid 1 = true ∧
    (two VA VB).isValid 3 = false ∧ opField 0x84000100#32 = 0x21#6 ∧ (0x84000100#32).extractLsb' 8 10 ≠ 0#10 := by decide

theorem witness_AbsoluteValueWrapsAtTheMinimum : (two VA VB).isValid 1 = true ∧ (two VA VB).isValid 3 = false := by
  decide

theorem witness_BroadcastCopiesTheLowHalf : (two VA VB).isValid 2 = true ∧ (two VA VB).isValid 15 = false := by decide

theorem witness_McgDraw : (two VA VB).build.prngPath = .mcg ∧ (2 : Reg) ≠ 1 ∧ (two VA VB).isValid 1 = true ∧
    (1 : Reg) ≠ 3 ∧ (two VA VB).isValid 3 = false := by decide

theorem witness_AesDraw : (twoAes VA VB).build.prngPath = .aes ∧ (2 : Reg) ≠ 1 ∧ (twoAes VA VB).isValid 1 = true := by
  decide

/-- Row 3 wraps: its ShiftRows index is (3 + 3) mod 4. -/
theorem witness_AesRoundByteByByte : 3 < 4 ∧ (3 + 3) % 4 = 2 := by decide

theorem witness_SboxIsInverseThenAffine : (1#8 : Byte) ≠ 0#8 := by decide

/-- One pair in V[1] of one state and in V[2] of another that differs in everything else. -/
theorem witness_DrawDependsOnTheStatePairAlone : (2 : Reg) ≠ 1 ∧ (1 : Reg) ≠ 2 ∧ (two VA VB).isValid 1 = true ∧
    (two 0#256 VA).isValid 2 = true ∧ (two VA VB).reg 1 = (two 0#256 VA).reg 2 := by decide +kernel

theorem witness_ZeroPairAndParity : Config.Build.reference.legal = true ∧ Config.Build.reference.prngPath = .mcg ∧
    (twoAes VA VB).build.prngPath = .aes ∧ (2 : Reg) ≠ 1 ∧ (twoAes 0#256 VB).isValid 1 = true ∧
    (twoAes 0#256 VB).reg 1 = 0#256 ∧ (two 0#256 VB).reg 1 = 0#256 := by decide +kernel

/-- The last whole unit of DMEM and the first one outside it. -/
theorem witness_LoadReadsThirtyTwoBytes : effectiveAddress 127#16 + 32 ≤ (two VA VB).build.dmemBytes ∧
    (two VA VB).build.dmemBytes < effectiveAddress 128#16 + 32 := by decide

theorem witness_StoreWritesThirtyTwoBytes : (two VA VB).isValid 1 = true ∧ (two VA VB).isValid 3 = false ∧
    effectiveAddress 127#16 + 32 ≤ (two VA VB).build.dmemBytes ∧
    (two VA VB).build.dmemBytes < effectiveAddress 128#16 + 32 ∧
    (4063 < effectiveAddress 127#16 ∨ effectiveAddress 127#16 + 32 ≤ 4063) := by decide

theorem witness_StoreThenLoadKeepsEveryView : (two VA VB).isValid 2 = true ∧
    effectiveAddress 0#16 + 32 ≤ (two VA VB).build.dmemBytes := by decide

theorem witness_NopOnlyAdvances : opField 0x04000001#32 = 0x01#6 ∧ (0x04000001#32).extractLsb' 0 26 ≠ 0#26 := by decide

theorem witness_HaltEndsTheRun : opField 0x08000001#32 = 0x02#6 ∧ (0x08000001#32).extractLsb' 0 26 ≠ 0#26 ∧
    (two VA VB).turns = [] ∧ { two VA VB with turns := [.core, .host .reset] }.turns = .core :: [.host .reset] := by decide

/-- A jump from the last word of IMEM to the first index outside it. -/
theorem witness_JumpAddsTheSignedOffset : opField 0x0E000000#32 = 0x03#6 ∧ (0x0E000000#32).extractLsb' 16 10 ≠ 0#10 ∧
    CoreMoves (twoAt 1023#16 VA VB) ∧ after (exec (.jmp 1#16) (twoAt 1023#16 VA VB)) (fun t => t.pc == 1024#16) = true :=
  ⟨by decide, by decide, ⟨rfl, rfl⟩, by decide +kernel⟩

/-- A register with every bit 0 and one with only bit 255 set, an unwritten one, and a taken branch out of IMEM. -/
theorem witness_BranchesTestAllBits : (two 0#256 (1#256 <<< 255)).isValid 1 = true ∧
    allZero ((two 0#256 (1#256 <<< 255)).reg 1) = true ∧ ((two 0#256 (1#256 <<< 255)).reg 2).getLsbD 255 = true ∧
    (two VA VB).isValid 3 = false ∧ CoreMoves (twoAt 1023#16 0#256 VB) ∧
    after (exec (.bz 1 1#16) (twoAt 1023#16 0#256 VB)) (fun t => t.pc == 1024#16) = true :=
  ⟨by decide, by decide +kernel, by decide +kernel, by decide, ⟨rfl, rfl⟩, by decide +kernel⟩

/-- A fetched VADD16 with no turn left and in a core turn with a host turn after it, a core turn at the first index outside
IMEM and one of a word that does not decode, and the word that is placed. -/
theorem witness_StepRunsTheDecodedInstruction :
    CoreTurn (placeWord (two VA VB) 0x4448C000#32) (placeWord (two VA VB) 0x4448C000#32) ∧
    decode ((placeWord (two VA VB) 0x4448C000#32).imemWord 0) = .ok (.vadd16 1 2 3) ∧
    CoreTurn fetchTurn (turnTaken fetchTurn [.host .reset]) ∧ fetchTurn.pc.toNat < fetchTurn.build.imemWords ∧
    decode (fetchTurn.imemWord 0) = .ok (.vadd16 1 2 3) ∧
    CoreTurn { twoAt 1024#16 VA VB with turns := [.core, .host (.readCr 0x14)] }
      (turnTaken (twoAt 1024#16 VA VB) [.host (.readCr 0x14)]) ∧
    (twoAt 1024#16 VA VB).build.imemWords ≤ (twoAt 1024#16 VA VB).pc.toNat ∧
    CoreTurn { placeWord (two VA VB) 0x80440011#32 with turns := [.core, .host (.readCr 0x14)] }
      (turnTaken (placeWord (two VA VB) 0x80440011#32) [.host (.readCr 0x14)]) ∧
    decode ((placeWord (two VA VB) 0x80440011#32).imemWord 0) = .error .immRange ∧
    1 ≤ (two VA VB).build.imemWords ∧ 0x4448C000 < 2 ^ 32 ∧
    decode (BitVec.ofNat 32 0x4448C000) = .ok (.vadd16 1 2 3) :=
  ⟨⟨rfl, .inl ⟨rfl, rfl⟩⟩, rfl, ⟨rfl, .inr ⟨_, rfl, rfl⟩⟩, by decide, rfl, ⟨rfl, .inr ⟨_, rfl, rfl⟩⟩, by decide,
    ⟨rfl, .inr ⟨_, rfl, rfl⟩⟩, rfl, by decide, by decide, rfl⟩

/-- R44 and R216: a host turn that reads CAUSE of a core that took a fault in its own turn before it returns the code, by
R201 FETCH_RANGE = 6. -/
theorem test_hostTurn_reads_cause : after (Sys2Proof.core.run 2
    { twoAt 1024#16 VA VB with turns := [.core, .host (.readCr 0x14)] })
    (fun t => t.replies == [.cr 6#32] && t.turns == []) = true := by decide +kernel

theorem witness_RangeFaults : CoreMoves (twoAt 1024#16 VA VB) ∧
    (twoAt 1024#16 VA VB).build.imemWords ≤ (twoAt 1024#16 VA VB).pc.toNat ∧
    CoreMoves (placeWord (two VA VB) 0x18400080#32) ∧
    (placeWord (two VA VB) 0x18400080#32).imemWord 0 = packB 0x06#6 1 128#16 ∧
    (placeWord (two VA VB) 0x1C400080#32).imemWord 0 = packB 0x07#6 1 128#16 ∧
    (placeWord (two VA VB) 0x1C400080#32).isValid 1 = true ∧
    (two VA VB).build.dmemBytes < effectiveAddress 128#16 + 32 :=
  ⟨⟨rfl, rfl⟩, by decide, ⟨rfl, rfl⟩, rfl, rfl, by decide, by decide⟩

/-- With no turn left, and with a host turn after the core's. -/
theorem witness_FaultsArePrecise : CoreTurn (twoAt 1024#16 VA VB) (twoAt 1024#16 VA VB) ∧
    (∃ t, step (twoAt 1024#16 VA VB) = .next t ∧ t.state = .faulted) ∧
    CoreTurn { twoAt 1024#16 VA VB with turns := [.core, .host .reset] } (turnTaken (twoAt 1024#16 VA VB) [.host .reset]) ∧
    ∃ t, step { twoAt 1024#16 VA VB with turns := [.core, .host .reset] } = .next t ∧ t.state = .faulted :=
  ⟨⟨rfl, .inl ⟨rfl, rfl⟩⟩, ⟨_, rfl, rfl⟩, ⟨rfl, .inr ⟨_, rfl, rfl⟩⟩, _, rfl, rfl⟩

theorem witness_OperandAliasExactly : (Instr.vor 1 2 2).wellFormed = true ∧ (two VA VB).cause ≠ .operandAlias ∧
    ∃ t, exec (.vor 1 2 2) (two VA VB) = .next t := ⟨by decide, by decide, _, rfl⟩

/-- One input for each place of the priority list. -/
theorem witness_FaultPriority : (two VA VB).state = .running ∧ (4#32).getLsbD 2 = true ∧ (4#32).getLsbD 1 = false ∧
    (4#32).getLsbD 0 = false ∧ CoreMoves (twoAt 1024#16 VA VB) ∧
    (twoAt 1024#16 VA VB).build.imemWords ≤ (twoAt 1024#16 VA VB).pc.toNat ∧
    (∀ op : Op, opField 0x20000000#32 ≠ op.code) ∧
    0x80450011#32 &&& Op.vsll16.format.mask ≠ Op.vsll16.matchWord ∧
    0x80440011#32 &&& Op.vsll16.format.mask = Op.vsll16.matchWord ∧ 16 < (imm8Field 0x80440011#32).toNat ∧
    operandsAlias (.vand 1 1 1) = true ∧ operandsAlias (.vst 3 128#16) = false ∧ sources (.vst 3 128#16) = [3] ∧
    (two VA VB).isValid 3 = false ∧ (two VA VB).isValid 1 = true ∧
    (two VA VB).build.dmemBytes < effectiveAddress 128#16 + 32 :=
  ⟨rfl, by decide, by decide, by decide, ⟨rfl, rfl⟩, by decide, by intro op; cases op <;> decide, by decide, by decide,
    by decide, by decide, by decide, by decide, by decide, by decide, by decide⟩

theorem witness_CoreStepsWriteOnlyTheirState :
    CoreTurn (placeWord (two VA VB) 0x1C400002#32) (placeWord (two VA VB) 0x1C400002#32) ∧
    after (step (placeWord (two VA VB) 0x1C400002#32)) (fun t => t.dmemByte 66 == 1#8) = true ∧
    CoreTurn fetchTurn (turnTaken fetchTurn [.host .reset]) ∧
    after (step fetchTurn) (fun t => t.turns == [.host .reset]) = true :=
  ⟨⟨rfl, .inl ⟨rfl, rfl⟩⟩, by decide +kernel, ⟨rfl, .inr ⟨_, rfl, rfl⟩⟩, by decide +kernel⟩

theorem witness_OnlyResetClearsValid : (∀ rest, (withTurn (two VA VB) (.writeV 3 VA) []).turns ≠ .host .reset :: rest) ∧
    step (withTurn (twoIn .idle .none) (.writeV 3 VA) []) = .next ((turnTaken (twoIn .idle .none) []).writeV 3 VA) :=
  ⟨fun rest h => by simp [withTurn] at h, rfl⟩

/-- A reset, a START and a HALT, each of which changes STATE. -/
theorem witness_WhatChangesState :
    after (step (withTurn (two VA VB) .reset [])) (fun t => t.state != .running) = true ∧
    after (step (withTurn (twoIn .halted .none) (.writeCr 0x0C 1#32) [])) (fun t => t.state != .halted) = true ∧
    after (step (placeWord (two VA VB) 0x08000000#32)) (fun t => t.state != .running) = true := by decide +kernel

theorem witness_QuiescentStatesTakeNoCoreStep : (twoIn .idle .none).state ≠ .running ∧
    (twoIn .halted .none).state ≠ .running ∧ (twoIn .faulted .immRange).state ≠ .running ∧
    (twoIn .idle .none).turns = [] ∧ ({ twoIn .idle .none with turns := [.core] } : State).turns = [.core] := by decide

theorem witness_StartBeginsARun : (1#32).getLsbD 0 = true ∧ (1#32).getLsbD 1 = false ∧ (1#32).getLsbD 2 = false ∧
    (two VA VB).state = .running ∧ (twoIn .faulted .immRange).state ≠ .running := by decide

theorem witness_ClearReturnsToIdle : (2#32).getLsbD 0 = false ∧ (2#32).getLsbD 1 = true ∧ (2#32).getLsbD 2 = false ∧
    (two VA VB).state = .running ∧ (twoIn .halted .none).state = .halted := by decide

theorem witness_AbortFaultsAtTheBoundary : (4#32).getLsbD 0 = false ∧ (4#32).getLsbD 1 = false ∧
    (4#32).getLsbD 2 = true ∧ (two VA VB).state = .running ∧ (twoIn .idle .none).state ≠ .running := by decide

theorem witness_CtrlActsBitByBit : 0xFFFFFFF8#32 &&& 7#32 = 0#32 := by decide

theorem witness_ControlRegisterReads : (two VA VB).build.legal = true ∧ 0x30 < 0x34 ∧ 0x34 % 4 = 0 ∧ 0x34 ≠ 0x0C ∧
    0x34 ≠ 0x18 ∧ 0x33 % 4 ≠ 0 ∧ (twoIn .idle .none).state ≠ .running := by decide

theorem witness_RunningCoreIsUndisturbed : (two VA VB).state = .running ∧ 0x14 % 4 = 0 := by decide

/-- The last word and the last byte, a valid register and an unwritten one. -/
theorem witness_HostWritesReadBack : (twoIn .halted .none).state ≠ .running ∧
    1023 < (twoIn .halted .none).build.imemWords ∧ 4095 < (twoIn .halted .none).build.dmemBytes ∧ 1022 ≠ 1023 ∧
    4094 ≠ 4095 ∧ (twoIn .halted .none).isValid 2 = true ∧ (twoIn .halted .none).isValid 15 = false := by decide

theorem witness_HostAccessOutOfRange : (twoIn .idle .none).state ≠ .running ∧
    (twoIn .idle .none).build.imemWords ≤ 1024 ∧ (twoIn .idle .none).build.dmemBytes ≤ 4096 ∧ 15 < 16 := by decide

/-- Bytes up to the end of DMEM, a register written twice and one never written. -/
theorem witness_BootSequenceStartsTheProgram :
    [0x18400000#32, 0x08000000#32].length ≤ Config.Build.reference.imemWords ∧
    4094 + [0x12#8, 0x34#8].length ≤ Config.Build.reference.dmemBytes ∧
    (([(15, VA), (0, VA), (15, VB)] : List (Nat × V256)).reverse.find? fun q => q.1 == 15) = some (15, VB) ∧
    (([(15, VA), (0, VA), (15, VB)] : List (Nat × V256)).any fun q => q.1 == 14) = false := by decide +kernel

theorem witness_PseudoInstructionsComputeWhatTheyName : (two VA VB).isValid 1 = true ∧ (3 : Reg) ≠ 1 ∧ (3 : Reg) ≠ 2 ∧
    255 < 256 := by decide

/-- A backward target, the two ends of the signed range, and one of more than 32767 words away in a full-sized IMEM. -/
theorem witness_AssembledTargetsAreReached : targetIndex [] (.num 4) = .ok 4 ∧
    asmTarget 1024 [] 10 (.num 4) = .ok 0xFFFA#16 ∧ asmTarget 32768 [] 32768 (.num 0) = .ok 0x8000#16 ∧
    asmTarget 1024 [] 0 (.num 32768) = .error .targetRange ∧ targetIndex [] (.num 60000) = .ok 60000 ∧
    asmTarget 65536 [] 1 (.num 60000) = .ok 0xEA5F#16 ∧ asmTarget 65536 [] 1 (.num 65536) = .error .targetRange :=
  ⟨rfl, rfl, rfl, rfl, rfl, rfl, rfl⟩

/-- One line of each format (R84), a target that is accepted, the last aligned address and the next two that are not (R85),
and the registers and amounts the conditions admit. -/
theorem witness_AcceptsOperandForms :
    Op.format .halt = .n ∧ Op.format .jmp = .j ∧ Op.format .bz = .b ∧ Op.format .vst = .m ∧ Op.format .vor = .r3 ∧
    Op.format .vprng = .r2 ∧ Op.format .vsll16 = .ri ∧ asmTarget 1024 [] 10 (.num 4) = .ok 0xFFFA#16 ∧
    (2097120 % 32 = 0 ∧ 2097120 ≤ 2097120) ∧ ¬(2097152 % 32 = 0 ∧ 2097152 ≤ 2097120) ∧ ¬(33 % 32 = 0 ∧ 33 ≤ 2097120) ∧
    operandsAlias (Op.vor.build { d := 1, s1 := 2, s2 := 3, imm8 := 0, imm16 := 0 }) = false ∧
    operandsAlias (Op.vprng.build { d := 2, s1 := 1, s2 := 0, imm8 := 0, imm16 := 0 }) = false ∧ 16 < 256 :=
  ⟨rfl, rfl, rfl, rfl, rfl, rfl, rfl, rfl, by decide, by decide, by decide, rfl, rfl, by decide⟩

/-- What R88 refuses, at the first value beyond each range. -/
theorem witness_RefusesOperandForms :
    asmTarget 1024 [] 0 (.num 32768) = .error .targetRange ∧
    asmOp 1024 [] 0 .bz [.reg 16, .num 0] = .error .registerName ∧
    asmOp 1024 [] 0 .vadd8 [.reg 15, .reg 0, .reg 16] = .error .registerName ∧
    asmOp 1024 [] 0 .vsrl16 [.reg 1, .reg 2, .num 17] = .error .shiftRange ∧
    asmOp 1024 [] 0 .vpermq [.reg 1, .reg 2, .num 256] = .error .immRange ∧
    operandsAlias (Op.vand.build { d := 1, s1 := 2, s2 := 2, imm8 := 0, imm16 := 0 }) = true ∧
    operandsAlias (Op.vprng.build { d := 2, s1 := 2, s2 := 0, imm8 := 0, imm16 := 0 }) = true ∧
    Arg.reg 16 ∈ [Arg.reg 1, .reg 16] := by decide

/-- Two lines that are accepted one by one, a line that is refused after one that is accepted, and a program that
assembles. -/
theorem witness_AssembledProgramsNeverFaultStatically :
    asmOp 1024 [] 1 .vld [.reg 1, .num 33] = .error .addressRange ∧
    asmOp 1024 [] 0 .vsll16 [.reg 1, .reg 2, .num 16] = .ok (.vsll16 1 2 16#8) ∧
    asmOp 1024 [] 1 .vst [.reg 15, .num 2097120] = .ok (.vst 15 0xFFFF#16) ∧
    assemble 1024 [{ label := none, stmt := some ("halt".toList, []) }] = .ok [.halt] := ⟨rfl, rfl, rfl, rfl⟩

theorem witness_ResetMeetsTheInvariant : Config.Build.reference.legal = true := by decide

theorem witness_StepKeepsTheInvariant : (two VA VB).Inv ∧ ∃ t, step (placeWord (two VA VB) 0x04000000#32) = .next t :=
  ⟨⟨by decide, rfl, rfl, rfl, rfl, by decide⟩, _, rfl⟩

/-- Two states that differ in V[3], which no VALID bit covers. -/
theorem witness_UnwrittenRegistersAreInvisible :
    SameWhereValid (two VA VB) { two VA VB with v := (two VA VB).v.set 3 VA } ∧
    (two VA VB).v ≠ (two VA VB).v.set 3 VA := by
  refine ⟨⟨rfl, ?_⟩, by decide +kernel⟩
  decide +kernel

end Sys2Proof.Tests
end

section
/-! PROOFS. The invariant of every state a run can be in (00_scope.md R8, 10_state.md R31, 20_memory.md R51, R52): it
holds after reset, and each thing a step can do keeps it. An update that touches neither memory has to answer for CAUSE
and STATE alone. The one place where CAUSE could go wrong is HALT, which moves STATE and leaves CAUSE: an instruction runs
while RUNNING, so CAUSE is NONE there. -/

namespace Sys2Proof.Machine

/-- The invariant speaks of the build, the two memories, CAUSE and STATE: the first three kept, only the last two are
left to check. -/
theorem State.Inv.of_sameMemories {s t : State} (h : s.Inv) (hb : t.build = s.build) (hi : t.imem = s.imem)
    (hd : t.dmem = s.dmem) (hc : t.cause = .none ↔ t.state ≠ .faulted) : t.Inv where
  build := hb ▸ h.build
  imemWf := hi ▸ h.imemWf
  imemWithin := hb ▸ hi ▸ h.imemWithin
  dmemWf := hd ▸ h.dmemWf
  dmemWithin := hb ▸ hd ▸ h.dmemWithin
  cause := hc

theorem State.inv_resetOf {b : Config.Build} (n : Nat) (hb : b.legal = true) : (State.resetOf b n).Inv :=
  ⟨hb, rfl, rfl, rfl, rfl, by simp [State.resetOf]⟩

/-! ## What the core can do -/

theorem causeOf_ne_none (c : DecodeFault) : causeOf c ≠ .none := by cases c <;> decide

theorem TakesFault.cause_ne_none {i : Instr} {s : State} {c : Cause} (h : TakesFault i s c) : c ≠ .none := by
  cases h <;> decide

theorem State.Inv.withTurns {s : State} (h : s.Inv) (rest : List Turn) : State.Inv { s with turns := rest } :=
  h.of_sameMemories rfl rfl rfl h.cause

theorem State.Inv.raise {s : State} (h : s.Inv) {c : Cause} (hc : c ≠ .none) (w : Word) : (s.raise c w).Inv :=
  h.of_sameMemories rfl rfl rfl (by simp [hc])

theorem State.Inv.cause_of_running {s : State} (h : s.Inv) (hs : s.state = .running) : s.cause = .none :=
  h.cause.mpr (by simp [hs])

theorem State.Inv.halt {s : State} (h : s.Inv) (hs : s.state = .running) : s.halt.Inv :=
  h.of_sameMemories rfl rfl rfl (by simp [h.cause_of_running hs])

theorem State.Inv.advance {s : State} (h : s.Inv) : s.advance.Inv :=
  h.of_sameMemories rfl rfl rfl h.cause

/-- Any number of bytes written inside DMEM. -/
theorem State.Inv.memWrite {s : State} (h : s.Inv) {ea n : Nat} (hn : ea + n ≤ s.build.dmemBytes) (x : V256) :
    (s.memWrite ea n x).Inv where
  build := by simpa using h.build
  imemWf := by simpa using h.imemWf
  imemWithin := by simpa using h.imemWithin
  dmemWf := State.wf_memWrite s ea n x h.dmemWf
  dmemWithin := by simpa using State.within_memWrite s _ ea n x hn h.dmemWithin
  cause := by simpa using h.cause

theorem State.Inv.of_writesDestinations {i : Instr} {s t : State} (h : s.Inv) (hw : WritesDestinations i s t) :
    t.Inv := by
  obtain ⟨-, -, ⟨hstate, hcause, -, -⟩, -, -, hbuild, -, -, -⟩ := hw.only
  exact h.of_sameMemories hbuild hw.imem hw.dmem (by rw [hcause, hstate]; exact h.cause)

/-- An instruction that runs while RUNNING keeps the invariant. -/
theorem State.Inv.exec {i : Instr} {s t : State} (h : s.Inv) (hs : s.state = .running)
    (he : Machine.exec i s = .next t) : t.Inv := by
  have hcases := exec_cases i s
  rw [he] at hcases
  cases hcases with
  | fault c hf => exact h.raise hf.cause_ne_none _
  | halt => exact h.halt hs
  | store d imm16 _ _ hr => exact (h.memWrite (by simpa [State.inDmem] using hr) _).advance
  | write _ _ hw => exact h.of_writesDestinations hw

theorem State.Inv.fetchAndRun {s t : State} (h : s.Inv) (hs : s.state = .running)
    (he : Machine.fetchAndRun s = .next t) : t.Inv := by
  rcases fetchAndRun_cases s with ⟨-, e⟩ | ⟨-, c, -, e⟩ | ⟨-, i, -, e⟩ <;> rw [e] at he
  · cases he
    exact h.raise (by decide) _
  · cases he
    exact h.raise (causeOf_ne_none c) _
  · exact h.exec hs he

theorem State.Inv.coreStep {s t : State} (h : s.Inv) (he : Machine.coreStep s = .next t) : t.Inv := by
  rcases hs : s.state with _ | _ | _ | _
  case running => exact h.fetchAndRun hs (by simpa [Machine.coreStep, hs] using he)
  all_goals simp [Machine.coreStep, hs] at he

/-! ## What the host can do -/

theorem State.Inv.hostReset {s : State} (h : s.Inv) : s.hostReset.Inv :=
  (State.inv_resetOf (s.epoch + 1) h.build).of_sameMemories rfl rfl rfl (by simp [State.hostReset, State.resetOf])

theorem State.Inv.reply {s : State} (h : s.Inv) (r : Reply) : (s.reply r).Inv :=
  h.of_sameMemories rfl rfl rfl h.cause

theorem State.Inv.abort {s : State} (h : s.Inv) : s.abort.Inv := by
  rcases s.abort_cases with ⟨-, e⟩ | ⟨-, e⟩ <;> rw [e]
  · exact h.raise (by decide) _
  · exact h

theorem State.Inv.clear {s : State} (h : s.Inv) : s.clear.Inv := by
  rcases s.clear_cases with ⟨-, e⟩ | ⟨-, e⟩ <;> rw [e]
  · exact h.of_sameMemories rfl rfl rfl (by simp)
  · exact h

theorem State.Inv.start {s : State} (h : s.Inv) : s.start.Inv := by
  rcases s.start_cases with ⟨-, e⟩ | ⟨-, e⟩ <;> rw [e]
  · exact h
  · exact h.of_sameMemories rfl rfl rfl (by simp)

theorem State.inv_ite {s t : State} (b : Bool) (hs : s.Inv) (ht : t.Inv) : (if b then s else t).Inv := by
  cases b
  · exact ht
  · exact hs

/-- The three actions of CTRL, in the order of R38. -/
theorem State.Inv.writeCtrl {s : State} (h : s.Inv) (value : Word) : (s.writeCtrl value).Inv := by
  have haborted := State.inv_ite (value.getLsbD 2) h.abort h
  have hcleared := State.inv_ite (value.getLsbD 1) haborted.clear haborted
  exact State.inv_ite (value.getLsbD 0) hcleared.start hcleared

theorem State.Inv.writeEntryPc {s : State} (h : s.Inv) (value : Word) : (s.writeEntryPc value).Inv := by
  unfold State.writeEntryPc
  split
  · exact h
  · exact h.of_sameMemories rfl rfl rfl h.cause

theorem State.Inv.writeCr {s : State} (h : s.Inv) (offset : Nat) (value : Word) : (s.writeCr offset value).Inv := by
  rcases s.writeCr_cases offset value with ⟨-, e⟩ | ⟨-, e⟩ | ⟨-, -, e⟩ <;> rw [e]
  · exact h.writeCtrl value
  · exact h.writeEntryPc value
  · exact h

theorem State.Inv.hostWriteImem {s : State} (h : s.Inv) (i : Nat) (word : Word) : (s.hostWriteImem i word).Inv := by
  unfold State.hostWriteImem
  split
  · exact h
  · split
    · exact { h with
        imemWf := Memory.wf_store _ i word h.imemWf
        imemWithin := Memory.within_store _ _ i word ‹_› h.imemWithin }
    · exact h

theorem State.Inv.hostWriteDmem {s : State} (h : s.Inv) (a : Nat) (byte : Byte) : (s.hostWriteDmem a byte).Inv := by
  unfold State.hostWriteDmem
  split
  · exact h
  · split
    · exact { h with
        dmemWf := Memory.wf_store _ a byte h.dmemWf
        dmemWithin := Memory.within_store _ _ a byte ‹_› h.dmemWithin }
    · exact h

theorem State.Inv.hostWriteV {s : State} (h : s.Inv) (i : Nat) (value : V256) : (s.hostWriteV i value).Inv := by
  unfold State.hostWriteV
  split
  · exact h
  · split
    · exact h.of_sameMemories rfl rfl rfl h.cause
    · exact h

/-- Every transaction that has a meaning keeps the invariant. -/
theorem State.Inv.hostAct {s t : State} {x : HostTxn} (h : s.Inv) (he : Machine.hostAct x s = .next t) : t.Inv := by
  cases x with
  | reset => cases he; exact h.hostReset
  | readCr offset =>
    simp only [Machine.hostAct] at he
    split at he
    · cases he; exact h.reply _
    · cases he
  | writeCr offset value =>
    simp only [Machine.hostAct] at he
    split at he
    · cases he; exact h.writeCr offset value
    · cases he
  | writeImem i word => cases he; exact h.hostWriteImem i word
  | readImem i => cases he; exact h.reply _
  | writeDmem a byte => cases he; exact h.hostWriteDmem a byte
  | readDmem a => cases he; exact h.reply _
  | writeV i value => cases he; exact h.hostWriteV i value
  | readV i => cases he; exact h.reply _

/-! ## Every step -/

theorem State.Inv.step {s t : State} (h : s.Inv) (he : Machine.step s = .next t) : t.Inv := by
  rcases step_cases s with ⟨-, e⟩ | ⟨rest, -, hs, e⟩ | ⟨rest, -, -, e⟩ | ⟨x, rest, -, e⟩ <;> rw [e] at he
  · exact h.coreStep he
  · exact (h.withTurns rest).fetchAndRun hs he
  · cases he
    exact h.withTurns rest
  · exact (h.withTurns rest).hostAct he

/-- Settles O59: whoever moves, by the cases of a step. -/
theorem stepKeepsTheInvariant : Obligations.StepKeepsTheInvariant :=
  fun _ _ h he => h.step he

/-- Settles O58: after reset both memories list nothing, and the reference build is a legal one. -/
theorem resetMeetsTheInvariant : Obligations.ResetMeetsTheInvariant :=
  ⟨fun _ n hb => State.inv_resetOf n hb, State.inv_resetOf 0 (by decide), rfl⟩

end Sys2Proof.Machine
end

section
/-! PROOFS. Everything a step can change (10_state.md R29, R44): the core's step, by the cases of an instruction, and whose
step it is. -/

namespace Sys2Proof.Machine

/-! ## What the core's step does -/

/-- The state `t` differs from `s` in the 32 bytes from `ea` on and in the PC alone. -/
structure StoresAt (ea : Nat) (s t : State) : Prop where
  regs : KeepsRegs s t []
  dmem : KeepsDmemOutside s t ea
  runStatus : KeepsRunStatus s t
  outside : KeepsOutside s t

theorem WritesDestinations.regs {i : Instr} {s t : State} (h : WritesDestinations i s t) :
    KeepsRegs s t (destinations i) := h.only.1

theorem WritesDestinations.dmemBytes {i : Instr} {s t : State} (h : WritesDestinations i s t) : KeepsDmem s t :=
  h.only.2.1

theorem WritesDestinations.runStatus {i : Instr} {s t : State} (h : WritesDestinations i s t) : KeepsRunStatus s t :=
  h.only.2.2.1

theorem WritesDestinations.outside {i : Instr} {s t : State} (h : WritesDestinations i s t) : KeepsOutside s t :=
  h.only.2.2.2

theorem State.keepsRunStatus_store (s : State) (addr n : Nat) (x : V256) :
    KeepsRunStatus s (s.memWrite addr n x).advance := by
  simp [KeepsRunStatus]

theorem State.keepsOutside_store (s : State) (addr n : Nat) (x : V256) :
    KeepsOutside s (s.memWrite addr n x).advance := by
  simp [KeepsOutside]

theorem State.keepsRegs_store (s : State) (addr n : Nat) (x : V256) (ds : List Reg) :
    KeepsRegs s (s.memWrite addr n x).advance ds := by
  simp [KeepsRegs]

theorem State.dmemByte_store_outside (s : State) (addr n : Nat) (x : V256) (c : Nat) (h : c < addr ∨ addr + n ≤ c) :
    (s.memWrite addr n x).advance.dmemByte c = s.dmemByte c :=
  State.dmemByte_memWrite_outside s addr n x c h

theorem State.storesAt (s : State) (ea : Nat) (x : V256) : StoresAt ea s (s.memWrite ea 32 x).advance where
  regs := s.keepsRegs_store ea 32 x []
  dmem := s.dmemByte_store_outside ea 32 x
  runStatus := s.keepsRunStatus_store ea 32 x
  outside := s.keepsOutside_store ea 32 x

/-- Everything the core's step from `u` can do: a fault of the fetch, of the decoder or of the instruction, HALT, VST, or
an instruction that writes its destinations and the PC. -/
inductive CoreEffect (u : State) : State → Prop where
  | fault (c : Cause) (w : Word) (hc : c ≠ .none) : CoreEffect u (u.raise c w)
  | halt (hd : decode (u.imemWord u.pc.toNat) = .ok .halt) : CoreEffect u u.halt
  | store (d : Reg) (imm16 : BitVec 16) (t : State) (hd : decode (u.imemWord u.pc.toNat) = .ok (.vst d imm16))
      (h : StoresAt (effectiveAddress imm16) u t) : CoreEffect u t
  | write (i : Instr) (t : State) (hd : decode (u.imemWord u.pc.toNat) = .ok i) (h : WritesDestinations i u t) :
      CoreEffect u t

theorem CoreEffect.of_exec {i : Instr} {u t : State} (hd : decode (u.imemWord u.pc.toNat) = .ok i)
    (he : exec i u = .next t) : CoreEffect u t := by
  have hcases := exec_cases i u
  rw [he] at hcases
  cases hcases with
  | fault c hf => exact .fault c _ hf.cause_ne_none
  | halt h => exact .halt (h ▸ hd)
  | store d imm16 h => exact .store d imm16 _ (h ▸ hd) (u.storesAt _ _)
  | write _ _ h => exact .write i t hd h

theorem CoreEffect.of_fetchAndRun {u t : State} (he : fetchAndRun u = .next t) : CoreEffect u t := by
  rcases fetchAndRun_cases u with ⟨-, e⟩ | ⟨-, c, -, e⟩ | ⟨-, i, hd, e⟩ <;> rw [e] at he
  · cases he
    exact .fault _ _ (by decide)
  · cases he
    exact .fault _ _ (causeOf_ne_none c)
  · exact .of_exec hd he

/-- On a turn of the core the step is fetch and run. -/
theorem step_of_coreTurn {s u : State} (h : CoreTurn s u) : step s = fetchAndRun u := by
  obtain ⟨hs, ⟨ht, rfl⟩ | ⟨rest, ht, rfl⟩⟩ := h
  · exact step_of_coreMoves ht hs
  · simp [step, takeTurn, ht, hs, turnTaken]

theorem CoreTurn.state_eq {s u : State} (h : CoreTurn s u) : u.state = .running := by
  obtain ⟨hs, ⟨-, rfl⟩ | ⟨rest, -, rfl⟩⟩ := h <;> exact hs

/-- The word the core fetches does not depend on the list of turns. -/
theorem CoreTurn.fetched_eq {s u : State} (h : CoreTurn s u) :
    u.imemWord u.pc.toNat = s.imemWord s.pc.toNat := by
  obtain ⟨-, ⟨-, rfl⟩ | ⟨rest, -, rfl⟩⟩ := h <;> rfl

theorem CoreTurn.turns_ne_host {s u : State} (h : CoreTurn s u) (x : HostTxn) (rest : List Turn) :
    s.turns ≠ .host x :: rest := by
  obtain ⟨-, ⟨ht, -⟩ | ⟨_, ht, -⟩⟩ := h <;> simp [ht]

theorem keepsOutside_refl (s : State) : KeepsOutside s s := ⟨rfl, fun _ => rfl, rfl, rfl, rfl, rfl⟩

theorem CoreEffect.keepsOutside {u t : State} (h : CoreEffect u t) : KeepsOutside u t := by
  cases h with
  | fault c w => exact keepsOutside_refl u
  | halt => exact keepsOutside_refl u
  | store d imm16 _ _ h => exact h.outside
  | write i _ _ h => exact h.outside

/-- The run goes on with STATE, CAUSE, FAULT_PC and FAULT_INSN as they were, or HALT ends it, or a fault does. -/
theorem CoreEffect.runStatus {u t : State} (h : CoreEffect u t) :
    KeepsRunStatus u t ∨
    (decode (u.imemWord u.pc.toNat) = .ok .halt ∧ t.state = .halted ∧ t.cause = u.cause ∧
      t.faultPc = u.faultPc ∧ t.faultInsn = u.faultInsn) ∨
    (t.state = .faulted ∧ t.cause ≠ .none) := by
  cases h with
  | fault c w hc => exact .inr (.inr ⟨rfl, hc⟩)
  | halt hd => exact .inr (.inl ⟨hd, rfl, rfl, rfl, rfl⟩)
  | store d imm16 _ _ h => exact .inl h.runStatus
  | write i _ _ h => exact .inl h.runStatus

theorem CoreEffect.dmem {u t : State} (h : CoreEffect u t) :
    KeepsDmem u t ∨ ∃ d imm16, decode (u.imemWord u.pc.toNat) = .ok (.vst d imm16) ∧
      KeepsDmemOutside u t (effectiveAddress imm16) := by
  cases h with
  | fault c w => exact .inl fun _ => rfl
  | halt => exact .inl fun _ => rfl
  | store d imm16 _ hd h => exact .inr ⟨d, imm16, hd, h.dmem⟩
  | write i _ _ h => exact .inl h.dmemBytes

theorem CoreEffect.regs {u t : State} (h : CoreEffect u t) :
    KeepsRegs u t [] ∨ ∃ i, decode (u.imemWord u.pc.toNat) = .ok i ∧ KeepsRegs u t (destinations i) ∧
      ∀ r ∈ destinations i, t.isValid r = true := by
  cases h with
  | fault c w => exact .inl fun _ _ => ⟨rfl, rfl⟩
  | halt => exact .inl fun _ _ => ⟨rfl, rfl⟩
  | store d imm16 _ _ h => exact .inl h.regs
  | write i _ hd h => exact .inr ⟨i, hd, h.regs, h.valid⟩

/-- Settles O40: field by field, by the cases of what the core's step can do. -/
theorem coreStepsWriteOnlyTheirState : Obligations.CoreStepsWriteOnlyTheirState := by
  intro s u t hturn hstep
  have heffect : CoreEffect u t := .of_fetchAndRun (step_of_coreTurn hturn ▸ hstep)
  refine ⟨heffect.keepsOutside, ?_, heffect.dmem, ?_⟩
  · rcases heffect.runStatus with hkept | hhalt | ⟨hfault, -⟩
    · exact .inl ⟨hkept, hkept.1.trans hturn.state_eq⟩
    · exact .inr (.inl hhalt)
    · exact .inr (.inr hfault)
  · exact heffect.regs.imp_right fun ⟨i, hd, hregs, _⟩ => ⟨i, hd, hregs⟩

/-! ## Whose step it is -/

/-- Everything a step that answers a next state can be, by whose turn it is. -/
inductive StepEffect (s : State) : State → Prop where
  | core (u t : State) (hturn : CoreTurn s u) (h : CoreEffect u t) : StepEffect s t
  | pass (rest : List Turn) (ht : s.turns = .core :: rest) : StepEffect s (turnTaken s rest)
  | host (x : HostTxn) (rest : List Turn) (t : State) (ht : s.turns = .host x :: rest)
      (h : hostAct x (turnTaken s rest) = .next t) : StepEffect s t

theorem StepEffect.of_step {s t : State} (he : step s = .next t) : StepEffect s t := by
  rcases step_cases s with ⟨ht, e⟩ | ⟨rest, ht, hs, e⟩ | ⟨rest, ht, -, e⟩ | ⟨x, rest, ht, e⟩
  · rcases hs : s.state with _ | _ | _ | _
    case running =>
      have hturn : CoreTurn s s := ⟨hs, .inl ⟨ht, rfl⟩⟩
      exact .core s t hturn (.of_fetchAndRun (step_of_coreTurn hturn ▸ he))
    all_goals simp [e, coreStep, hs] at he
  · exact .core _ t ⟨hs, .inr ⟨rest, ht, rfl⟩⟩ (.of_fetchAndRun (e ▸ he))
  · cases e ▸ he
    exact .pass rest ht
  · exact .host x rest t ht (e ▸ he)

end Sys2Proof.Machine
end

section
/-! PROOFS. What a register holds while its VALID bit is 0 reaches nothing (10_state.md R25, R46). Most updates neither read
nor write V, so they carry two states that differ in V alone to two that differ so. What is left are the instructions, which
read no register but their valid sources, and the host's read and write of a register. -/

namespace Sys2Proof.Machine

/-! ## What neither reads nor writes the registers -/

/-- The update neither reads nor writes V, and leaves VALID as it is. -/
structure SparesRegs (f : State → State) : Prop where
  commutes : ∀ (s : State) (w : Vector V256 16), f { s with v := w } = { f s with v := w }
  valid : ∀ s : State, (f s).valid = s.valid

theorem SparesRegs.v {f : State → State} (hf : SparesRegs f) (s : State) : (f s).v = s.v := by
  have h : f s = { f s with v := s.v } := hf.commutes s s.v
  rw [h]

theorem SparesRegs.comp {f g : State → State} (hf : SparesRegs f) (hg : SparesRegs g) : SparesRegs fun s => f (g s) :=
  ⟨fun s w => by rw [hg.commutes, hf.commutes], fun s => by rw [hf.valid, hg.valid]⟩

/-- A choice between two such updates by a condition that does not depend on V. -/
theorem SparesRegs.ite {f g : State → State} {p : State → Prop} [∀ s, Decidable (p s)]
    (hp : ∀ (s : State) (w : Vector V256 16), p { s with v := w } ↔ p s) (hf : SparesRegs f) (hg : SparesRegs g) :
    SparesRegs fun s => if p s then f s else g s where
  commutes s w := by
    by_cases h : p s
    · rw [if_pos h, if_pos ((hp s w).mpr h), hf.commutes]
    · rw [if_neg h, if_neg (h ∘ (hp s w).mp), hg.commutes]
  valid s := by
    by_cases h : p s
    · rw [if_pos h, hf.valid]
    · rw [if_neg h, hg.valid]

theorem sparesRegs_id : SparesRegs fun s => s := ⟨fun _ _ => rfl, fun _ => rfl⟩

theorem sparesRegs_turns (rest : List Turn) : SparesRegs fun s => { s with turns := rest } :=
  ⟨fun _ _ => rfl, fun _ => rfl⟩

theorem sparesRegs_advance : SparesRegs State.advance := ⟨fun _ _ => rfl, fun _ => rfl⟩

theorem sparesRegs_branch (imm16 : BitVec 16) : SparesRegs fun s => s.setPc (branchTarget s.pc imm16) :=
  ⟨fun _ _ => rfl, fun _ => rfl⟩

theorem sparesRegs_raise (c : Cause) (w : Word) : SparesRegs fun s => s.raise c w := ⟨fun _ _ => rfl, fun _ => rfl⟩

theorem sparesRegs_halt : SparesRegs State.halt := ⟨fun _ _ => rfl, fun _ => rfl⟩

/-- A reply whose value does not depend on V. -/
theorem sparesRegs_reply {x : State → Reply} (hx : ∀ (s : State) (w : Vector V256 16), x { s with v := w } = x s) :
    SparesRegs fun s => s.reply (x s) :=
  ⟨fun s w => by rw [hx]; rfl, fun _ => rfl⟩

theorem sparesRegs_memWrite (addr n : Nat) (x : V256) : SparesRegs fun s => s.memWrite addr n x := by
  induction n with
  | zero => exact sparesRegs_id
  | succ n ih =>
    have hstore : SparesRegs fun s => s.storeByte (addr + n) (x.extractLsb' (8 * n) 8) :=
      ⟨fun _ _ => rfl, fun _ => rfl⟩
    exact hstore.comp ih

/-! ## CTRL -/

/-- The update where the bit is 1. -/
def State.actIf (s : State) (b : Bool) (f : State → State) : State := if b then f s else s

@[simp] theorem State.actIf_true (s : State) (f : State → State) : s.actIf true f = f s := rfl
@[simp] theorem State.actIf_false (s : State) (f : State → State) : s.actIf false f = s := rfl

/-- The three actions of CTRL, in the order of R38. -/
theorem State.writeCtrl_eq (s : State) (v : Word) :
    s.writeCtrl v =
      ((s.actIf (v.getLsbD 2) State.abort).actIf (v.getLsbD 1) State.clear).actIf (v.getLsbD 0) State.start := rfl

theorem sparesRegs_start : SparesRegs State.start :=
  .ite (p := fun s => s.state = .running) (fun _ _ => Iff.rfl) sparesRegs_id ⟨fun _ _ => rfl, fun _ => rfl⟩

theorem sparesRegs_clear : SparesRegs State.clear :=
  .ite (p := fun s => s.state = .halted ∨ s.state = .faulted) (fun _ _ => Iff.rfl)
    ⟨fun _ _ => rfl, fun _ => rfl⟩ sparesRegs_id

theorem sparesRegs_abort : SparesRegs State.abort :=
  .ite (p := fun s => s.state = .running) (fun _ _ => Iff.rfl) (sparesRegs_raise _ _) sparesRegs_id

theorem SparesRegs.actIf {f : State → State} (hf : SparesRegs f) (b : Bool) : SparesRegs (State.actIf · b f) :=
  .ite (fun _ _ => Iff.rfl) hf sparesRegs_id

theorem sparesRegs_writeCtrl (value : Word) : SparesRegs fun s => s.writeCtrl value :=
  (sparesRegs_start.actIf _).comp ((sparesRegs_clear.actIf _).comp (sparesRegs_abort.actIf _))

theorem sparesRegs_writeEntryPc (value : Word) : SparesRegs fun s => s.writeEntryPc value :=
  .ite (p := fun s => s.state = .running) (fun _ _ => Iff.rfl) sparesRegs_id ⟨fun _ _ => rfl, fun _ => rfl⟩

theorem sparesRegs_writeCr (offset : Nat) (value : Word) : SparesRegs fun s => s.writeCr offset value := by
  rcases h : ControlReg.ofOffset offset with _ | r
  · simpa only [State.writeCr, h] using sparesRegs_id
  · simp only [State.writeCr, h]
    cases r
    case ctrl => exact sparesRegs_writeCtrl value
    case entryPc => exact sparesRegs_writeEntryPc value
    all_goals exact sparesRegs_id

theorem State.readCr_withV (s : State) (w : Vector V256 16) (offset : Nat) :
    State.readCr { s with v := w } offset = s.readCr offset := by
  unfold State.readCr
  cases ControlReg.ofOffset offset with
  | none => rfl
  | some r => cases r <;> rfl

theorem sparesRegs_hostWriteImem (i : Nat) (word : Word) : SparesRegs fun s => s.hostWriteImem i word :=
  .ite (p := fun s => s.state = .running) (fun _ _ => Iff.rfl) sparesRegs_id <|
    .ite (p := fun s => i < s.build.imemWords) (fun _ _ => Iff.rfl) ⟨fun _ _ => rfl, fun _ => rfl⟩ sparesRegs_id

theorem sparesRegs_hostWriteDmem (a : Nat) (byte : Byte) : SparesRegs fun s => s.hostWriteDmem a byte :=
  .ite (p := fun s => s.state = .running) (fun _ _ => Iff.rfl) sparesRegs_id <|
    .ite (p := fun s => a < s.build.dmemBytes) (fun _ _ => Iff.rfl) ⟨fun _ _ => rfl, fun _ => rfl⟩ sparesRegs_id

theorem hostAct_readCr_misaligned {o : Nat} (h : o % 4 ≠ 0) (s : State) :
    hostAct (.readCr o) s = .refused (.misalignedControlAccess o) :=
  if_neg h

theorem hostAct_writeCr_misaligned {o : Nat} (h : o % 4 ≠ 0) (v : Word) (s : State) :
    hostAct (.writeCr o v) s = .refused (.misalignedControlAccess o) :=
  if_neg h

/-- How a transaction uses the registers: apart from the reset, the read and the write of a register it is refused or
spares them. -/
inductive RegisterUse : HostTxn → Prop where
  | reset : RegisterUse .reset
  | read (i : Nat) : RegisterUse (.readV i)
  | write (i : Nat) (value : V256) : RegisterUse (.writeV i value)
  | refused {x : HostTxn} (r : Refusal) (h : ∀ s, hostAct x s = .refused r) : RegisterUse x
  | spares {x : HostTxn} (f : State → State) (hf : SparesRegs f) (h : ∀ s, hostAct x s = .next (f s)) : RegisterUse x

theorem hostAct_registerUse (x : HostTxn) : RegisterUse x := by
  cases x with
  | reset => exact .reset
  | readV i => exact .read i
  | writeV i value => exact .write i value
  | writeImem i word => exact .spares _ (sparesRegs_hostWriteImem i word) fun _ => rfl
  | writeDmem a byte => exact .spares _ (sparesRegs_hostWriteDmem a byte) fun _ => rfl
  | readImem i => exact .spares _ (sparesRegs_reply fun _ _ => rfl) (hostAct_readImem i)
  | readDmem a => exact .spares _ (sparesRegs_reply fun _ _ => rfl) (hostAct_readDmem a)
  | readCr o =>
    by_cases ho : o % 4 = 0
    · exact .spares _ (sparesRegs_reply fun s w => by rw [State.readCr_withV]) (hostAct_readCr ho)
    · exact .refused _ (hostAct_readCr_misaligned ho)
  | writeCr o value =>
    by_cases ho : o % 4 = 0
    · exact .spares _ (sparesRegs_writeCr o value) (hostAct_writeCr ho value)
    · exact .refused _ (hostAct_writeCr_misaligned ho value)

/-! ## States that differ in unwritten registers alone -/

theorem SameWhereValid.refl (s : State) : SameWhereValid s s := ⟨rfl, fun _ _ => rfl⟩

/-- What does not depend on V is the same in both. -/
theorem SameWhereValid.congr {α : Type} {s t : State} (h : SameWhereValid s t) (g : State → α)
    (hg : ∀ (s : State) (w : Vector V256 16), g { s with v := w } = g s) : g t = g s :=
  (congrArg g h.1).trans (hg s t.v)

theorem SameWhereValid.map {f : State → State} {s t : State} (hf : SparesRegs f) (h : SameWhereValid s t) :
    SameWhereValid (f s) (f t) := by
  obtain ⟨heq, hreg⟩ := h
  have hcomm : f t = { f s with v := t.v } := (congrArg f heq).trans (hf.commutes s t.v)
  refine ⟨by rw [hf.v t]; exact hcomm, fun r hr => ?_⟩
  rw [State.isValid, hf.valid] at hr
  rw [State.reg, State.reg, hf.v, hf.v]
  exact hreg r hr

theorem SameWhereValid.isValid {s t : State} (h : SameWhereValid s t) (r : Reg) : t.isValid r = s.isValid r :=
  h.congr (State.isValid · r) fun _ _ => rfl

theorem SameWhereValid.writeV {s t : State} (h : SameWhereValid s t) (r : Reg) (x : V256) :
    SameWhereValid (s.writeV r x) (t.writeV r x) := by
  refine ⟨congrArg (fun u => { u with v := (t.writeV r x).v }) (congrArg (State.writeV · r x) h.1), fun q hq => ?_⟩
  by_cases hqr : q = r
  · subst hqr
    simp
  · rw [State.isValid_writeV_ne _ _ _ _ hqr] at hq
    rw [State.reg_writeV_ne _ _ _ _ hqr, State.reg_writeV_ne _ _ _ _ hqr, h.2 q hq]

theorem SameWhereValid.finish {s t : State} (h : SameWhereValid s t) (d : Reg) (x : V256) :
    SameWhereValid (s.finish d x) (t.finish d x) :=
  (h.writeV d x).map sparesRegs_advance

theorem SameWhereValid.store {s t : State} (h : SameWhereValid s t) (addr n : Nat) (x : V256) :
    SameWhereValid (s.memWrite addr n x).advance (t.memWrite addr n x).advance :=
  (h.map (sparesRegs_memWrite addr n x)).map sparesRegs_advance

/-- HOST_READ_V answers a register where VALID is 1 and a free value where it is 0. -/
theorem SameWhereValid.hostReadV {s t : State} (h : SameWhereValid s t) (i : Nat) : t.hostReadV i = s.hostReadV i := by
  have hstate : t.state = s.state := h.congr State.state fun _ _ => rfl
  have hepoch : t.epoch = s.epoch := h.congr State.epoch fun _ _ => rfl
  unfold State.hostReadV
  rw [hstate, hepoch]
  split
  · rfl
  · split
    · rename_i hi
      rw [h.isValid]
      split
      · rename_i hv
        exact h.2 _ hv
      · rfl
    · rfl

theorem SameWhereValid.hostWriteV {s t : State} (h : SameWhereValid s t) (i : Nat) (x : V256) :
    SameWhereValid (s.hostWriteV i x) (t.hostWriteV i x) := by
  have hstate : t.state = s.state := h.congr State.state fun _ _ => rfl
  unfold State.hostWriteV
  rw [hstate]
  split
  · exact h
  · split
    · exact h.writeV _ x
    · exact h

theorem SameWhereValid.hostReset {s t : State} (h : SameWhereValid s t) : SameWhereValid s.hostReset t.hostReset := by
  have hreset : t.hostReset = s.hostReset := h.congr State.hostReset fun _ _ => rfl
  rw [hreset]
  exact .refl _

theorem SameWhereValid.hostAct {s t : State} (h : SameWhereValid s t) (x : HostTxn) :
    OutcomesSameWhereValid (hostAct x s) (hostAct x t) := by
  cases hostAct_registerUse x with
  | reset => exact h.hostReset
  | read i =>
    rw [hostAct_readV, hostAct_readV, h.hostReadV]
    exact h.map (sparesRegs_reply (x := fun _ => .v (s.hostReadV i)) fun _ _ => rfl)
  | write i value => exact h.hostWriteV i value
  | refused r e =>
    rw [e, e]
    rfl
  | spares f hf e =>
    rw [e, e]
    exact h.map hf

/-! ## Instructions -/

/-- The checks read VALID alone, and where they pass the two effects may rest on the sources, which agree. -/
theorem SameWhereValid.guarded {i : Instr} {s t x y : State} (h : SameWhereValid s t)
    (he : (∀ r ∈ sources i, t.reg r = s.reg r) → SameWhereValid x y) :
    OutcomesSameWhereValid (guarded i s x) (guarded i t y) := by
  rcases guarded_cases i s x with ⟨⟨hw, ha, hv⟩, e⟩ | ⟨hw, e⟩ | ⟨hw, ha, e⟩ | ⟨hw, ha, ⟨r, hr, hv⟩, e⟩ <;> rw [e]
  · rw [guarded_of_pass y ⟨hw, ha, fun r hr => (h.isValid r).trans (hv r hr)⟩]
    exact he fun r hr => h.2 r (hv r hr)
  · rw [guarded_of_immRange y hw]
    exact h.map (sparesRegs_raise _ _)
  · rw [guarded_of_alias y hw ha]
    exact h.map (sparesRegs_raise _ _)
  · rw [guarded_of_uninit y hw ha hr ((h.isValid r).trans hv)]
    exact h.map (sparesRegs_raise _ _)

/-- The shape of every data instruction with one destination: the value written may rest on the sources. -/
theorem SameWhereValid.guarded_finish {i : Instr} {s t : State} {d : Reg} {x y : V256} (h : SameWhereValid s t)
    (hxy : (∀ r ∈ sources i, t.reg r = s.reg r) → y = x) :
    OutcomesSameWhereValid (Machine.guarded i s (s.finish d x)) (Machine.guarded i t (t.finish d y)) :=
  h.guarded fun hr => hxy hr ▸ h.finish d x

theorem SameWhereValid.exec {s t : State} (h : SameWhereValid s t) (i : Instr) :
    OutcomesSameWhereValid (exec i s) (exec i t) := by
  have hbuild : t.build = s.build := h.congr State.build fun _ _ => rfl
  cases i
  case nop => exact h.guarded fun _ => h.map sparesRegs_advance
  case halt => exact h.guarded fun _ => h.map sparesRegs_halt
  case jmp imm16 => exact h.guarded fun _ => h.map (sparesRegs_branch imm16)
  case bz d imm16 =>
    refine h.guarded fun hr => ?_
    rw [hr d List.mem_cons_self]
    split
    · exact h.map (sparesRegs_branch imm16)
    · exact h.map sparesRegs_advance
  case bnz d imm16 =>
    refine h.guarded fun hr => ?_
    rw [hr d List.mem_cons_self]
    split
    · exact h.map sparesRegs_advance
    · exact h.map (sparesRegs_branch imm16)
  case vld d imm16 =>
    refine h.guarded fun _ => ?_
    have hin : t.inDmem (effectiveAddress imm16) = s.inDmem (effectiveAddress imm16) :=
      h.congr (State.inDmem · _) fun _ _ => rfl
    have hread : t.memRead (effectiveAddress imm16) = s.memRead (effectiveAddress imm16) :=
      h.congr (State.memRead · _) fun _ _ => rfl
    rw [hin, hread]
    split
    · exact h.finish d _
    · exact h.map (sparesRegs_raise _ _)
  case vst d imm16 =>
    refine h.guarded fun hr => ?_
    have hin : t.inDmem (effectiveAddress imm16) = s.inDmem (effectiveAddress imm16) :=
      h.congr (State.inDmem · _) fun _ _ => rfl
    rw [hr d List.mem_cons_self, hin]
    split
    · exact h.store _ 32 _
    · exact h.map (sparesRegs_raise _ _)
  case vxor d s1 s2 =>
    refine h.guarded_finish fun hr => ?_
    by_cases heq : s1 = s2
    · simp [heq]
    · rw [hr s1 (by simp [sources, heq]), hr s2 (by simp [sources, heq])]
  case vpermq d s1 imm8 | vsll16 d s1 imm8 | vsrl16 d s1 imm8 | vabs16 d s1 | vbcst128 d s1 =>
    exact h.guarded_finish fun hr => by rw [hr s1 List.mem_cons_self]
  case vprng d s1 =>
    refine h.guarded fun hr => ?_
    rw [hr s1 List.mem_cons_self, hbuild]
    exact (h.writeV s1 _).finish d _
  case vadd8 | vadd16 | vadd64 | vsub8 | vsub16 | vsub64 | vor | vand | vcmpgt8 | vcmpgt16 | vcmpgt64 | vhadd16 |
      vsign16 | vshufb =>
    refine h.guarded_finish fun hr => ?_
    rw [hr _ List.mem_cons_self, hr _ (List.mem_cons_of_mem _ List.mem_cons_self)]

theorem SameWhereValid.fetchAndRun {s t : State} (h : SameWhereValid s t) :
    OutcomesSameWhereValid (fetchAndRun s) (fetchAndRun t) := by
  have hbuild : t.build = s.build := h.congr State.build fun _ _ => rfl
  have hpc : t.pc = s.pc := h.congr State.pc fun _ _ => rfl
  have hword : t.imemWord s.pc.toNat = s.imemWord s.pc.toNat := h.congr (State.imemWord · _) fun _ _ => rfl
  unfold Machine.fetchAndRun
  rw [hbuild, hpc, hword]
  split
  · unfold runWord
    split
    · exact h.map (sparesRegs_raise _ _)
    · exact h.exec _
  · exact h.map (sparesRegs_raise _ _)

theorem SameWhereValid.coreStep {s t : State} (h : SameWhereValid s t) :
    OutcomesSameWhereValid (coreStep s) (coreStep t) := by
  have hstate : t.state = s.state := h.congr State.state fun _ _ => rfl
  have hcause : t.cause = s.cause := h.congr State.cause fun _ _ => rfl
  unfold Machine.coreStep
  rw [hstate, hcause]
  split
  · exact h.fetchAndRun
  all_goals rfl

/-- Settles O60: whoever moves, the outcome rests on no register but the sources, which are valid where they are read. -/
theorem unwrittenRegistersAreInvisible : Obligations.UnwrittenRegistersAreInvisible := by
  intro s t h
  have hturns : t.turns = s.turns := h.congr State.turns fun _ _ => rfl
  have hstate : t.state = s.state := h.congr State.state fun _ _ => rfl
  unfold step takeTurn
  rw [hturns]
  split
  · exact h.coreStep
  · rename_i rest _
    have hrest := h.map (sparesRegs_turns rest)
    by_cases hs : s.state = .running
    · rw [if_pos hs, if_pos (hstate.trans hs)]
      exact hrest.fetchAndRun
    · rw [if_neg hs, if_neg (hstate ▸ hs)]
      exact hrest
  · exact (h.map (sparesRegs_turns _)).hostAct _

end Sys2Proof.Machine
end

section
/-! PROOFS. The VALID bits (10_state.md R24), the events that change STATE (R30), the control-register window (R35 to R42)
and the values after reset (R46). -/

namespace Sys2Proof.Machine

/-! ## VALID -/

/-- No VALID bit is cleared, and a register whose contents change is valid after. -/
def KeepsValid (s t : State) : Prop :=
  ∀ r, (s.isValid r = true → t.isValid r = true) ∧ (t.reg r ≠ s.reg r → t.isValid r = true)

/-- Only registers that are valid after it change. -/
theorem KeepsValid.of_keepsRegs {s t : State} {ds : List Reg} (hk : KeepsRegs s t ds)
    (hv : ∀ r ∈ ds, t.isValid r = true) : KeepsValid s t := by
  intro r
  by_cases hr : r ∈ ds
  · exact ⟨fun _ => hv r hr, fun _ => hv r hr⟩
  · obtain ⟨hreg, hvalid⟩ := hk r hr
    exact ⟨fun h => hvalid.trans h, fun h => absurd hreg h⟩

theorem KeepsValid.of_unchanged {s t : State} (hk : KeepsRegs s t []) : KeepsValid s t :=
  .of_keepsRegs hk (by simp)

theorem SparesRegs.keepsRegs {f : State → State} (hf : SparesRegs f) (s : State) : KeepsRegs s (f s) [] :=
  fun r _ => ⟨by rw [State.reg, hf.v, State.reg], by rw [State.isValid, hf.valid, State.isValid]⟩

theorem CoreEffect.keepsValid {u t : State} (h : CoreEffect u t) : KeepsValid u t := by
  rcases h.regs with hk | ⟨i, -, hk, hv⟩
  · exact .of_unchanged hk
  · exact .of_keepsRegs hk hv

theorem State.keepsValid_hostWriteV (s : State) (i : Nat) (x : V256) : KeepsValid s (s.hostWriteV i x) := by
  have hrefl : KeepsValid s s := .of_unchanged fun _ _ => ⟨rfl, rfl⟩
  unfold State.hostWriteV
  split
  · exact hrefl
  · split
    · exact .of_keepsRegs (s.writesOnly_finish _ x).1 (by simp)
    · exact hrefl

theorem keepsValid_of_hostAct {s t : State} {x : HostTxn} (hx : x ≠ .reset) (he : hostAct x s = .next t) :
    KeepsValid s t := by
  cases hostAct_registerUse x with
  | reset => exact absurd rfl hx
  | read i =>
    cases he
    exact .of_unchanged fun _ _ => ⟨rfl, rfl⟩
  | write i value =>
    cases he
    exact s.keepsValid_hostWriteV i value
  | refused r e => cases (e s).symm.trans he
  | spares f hf e =>
    cases (e s).symm.trans he
    exact .of_unchanged (hf.keepsRegs s)

@[simp] theorem State.isValid_resetOf (b : Config.Build) (n : Nat) (r : Reg) : (State.resetOf b n).isValid r = false := by
  simp [State.isValid, State.resetOf]

/-- Settles O41: by whose turn it is; only the reset among the host's transactions clears a bit. -/
theorem onlyResetClearsValid : Obligations.OnlyResetClearsValid := by
  refine ⟨fun s t hstep hturns => ?_, fun s rest => ⟨(turnTaken s rest).hostReset, rfl, ?_⟩⟩
  · cases StepEffect.of_step hstep with
    | core u _ hturn h =>
      obtain ⟨-, ⟨-, rfl⟩ | ⟨rest, -, rfl⟩⟩ := hturn <;> exact h.keepsValid
    | pass rest => exact KeepsValid.of_unchanged fun _ _ => ⟨rfl, rfl⟩
    | host x rest _ ht h =>
      exact keepsValid_of_hostAct (s := turnTaken s rest) (fun hx => hturns rest (hx ▸ ht)) h
  · exact State.isValid_resetOf s.build (s.epoch + 1)

/-! ## STATE -/

theorem State.actIf_start_state (s : State) (b : Bool) :
    (s.actIf b State.start).state = s.state ∨ (b = true ∧ (s.actIf b State.start).state = .running) := by
  cases b with
  | false => exact .inl rfl
  | true => rcases s.start_cases with ⟨-, e⟩ | ⟨-, e⟩ <;> simp [e]

theorem State.actIf_clear_state (s : State) (b : Bool) :
    (s.actIf b State.clear).state = s.state ∨ (b = true ∧ (s.actIf b State.clear).state = .idle) := by
  cases b with
  | false => exact .inl rfl
  | true => rcases s.clear_cases with ⟨-, e⟩ | ⟨-, e⟩ <;> simp [e]

theorem State.actIf_abort_state (s : State) (b : Bool) :
    (s.actIf b State.abort).state = s.state ∨
    (b = true ∧ s.state = .running ∧ (s.actIf b State.abort).state = .faulted) := by
  cases b with
  | false => exact .inl rfl
  | true =>
    rcases s.abort_cases with ⟨hs, e⟩ | ⟨-, e⟩
    · exact .inr ⟨rfl, hs, congrArg State.state e⟩
    · exact .inl (congrArg State.state e)

/-- A write of CTRL changes STATE by START, by CLEAR or by ABORT, each to its own value: the last of its actions that has
an effect on STATE decides. -/
theorem State.writeCtrl_state (s : State) (v : Word) (hne : (s.writeCtrl v).state ≠ s.state) :
    (v.getLsbD 0 = true ∧ (s.writeCtrl v).state = .running) ∨
    (v.getLsbD 1 = true ∧ s.state ≠ .idle ∧ (s.writeCtrl v).state = .idle) ∨
    (v.getLsbD 2 = true ∧ s.state = .running ∧ (s.writeCtrl v).state = .faulted) := by
  rw [State.writeCtrl_eq] at hne ⊢
  rcases State.actIf_start_state _ (v.getLsbD 0) with e0 | hstart
  · rw [e0] at hne ⊢
    rcases State.actIf_clear_state _ (v.getLsbD 1) with e1 | ⟨h1, hidle⟩
    · rw [e1] at hne ⊢
      rcases s.actIf_abort_state (v.getLsbD 2) with e2 | habort
      · exact absurd e2 hne
      · exact .inr (.inr habort)
    · exact .inr (.inl ⟨h1, fun hs => hne (hidle.trans hs.symm), hidle⟩)
  · exact .inl hstart

theorem State.writeEntryPc_state (s : State) (v : Word) : (s.writeEntryPc v).state = s.state := by
  unfold State.writeEntryPc
  split <;> rfl

theorem State.hostWriteImem_state (s : State) (i : Nat) (w : Word) : (s.hostWriteImem i w).state = s.state := by
  unfold State.hostWriteImem
  split_ifs <;> rfl

theorem State.hostWriteDmem_state (s : State) (a : Nat) (b : Byte) : (s.hostWriteDmem a b).state = s.state := by
  unfold State.hostWriteDmem
  split_ifs <;> rfl

theorem State.hostWriteV_state (s : State) (i : Nat) (x : V256) : (s.hostWriteV i x).state = s.state := by
  unfold State.hostWriteV
  split_ifs <;> rfl

/-- Of the host's transactions only the reset and a write of CTRL change STATE. -/
theorem hostAct_state {s t : State} {x : HostTxn} (he : hostAct x s = .next t) :
    t.state = s.state ∨ (x = .reset ∧ t.state = .idle) ∨ ∃ v, x = .writeCr 0x0C v ∧ t = s.writeCtrl v := by
  cases x with
  | reset => cases he; exact .inr (.inl ⟨rfl, rfl⟩)
  | readCr o =>
    by_cases ho : o % 4 = 0
    · cases hostAct_readCr ho s ▸ he; exact .inl rfl
    · cases (hostAct_readCr_misaligned ho s).symm.trans he
  | writeCr o v =>
    by_cases ho : o % 4 = 0
    · cases hostAct_writeCr ho v s ▸ he
      rcases s.writeCr_cases o v with ⟨rfl, e⟩ | ⟨-, e⟩ | ⟨-, -, e⟩ <;> rw [e]
      · exact .inr (.inr ⟨v, rfl, rfl⟩)
      · exact .inl (s.writeEntryPc_state v)
      · exact .inl rfl
    · cases (hostAct_writeCr_misaligned ho v s).symm.trans he
  | writeImem i w => cases he; exact .inl (s.hostWriteImem_state i w)
  | readImem i => cases he; exact .inl rfl
  | writeDmem a b => cases he; exact .inl (s.hostWriteDmem_state a b)
  | readDmem a => cases he; exact .inl rfl
  | writeV i x => cases he; exact .inl (s.hostWriteV_state i x)
  | readV i => cases he; exact .inl rfl

/-- Settles O42: by whose turn it is; the core leaves RUNNING by HALT or a fault, and the host acts on STATE by the reset or
by CTRL. -/
theorem whatChangesState : Obligations.WhatChangesState := by
  intro s t hstep hne
  cases StepEffect.of_step hstep with
  | core u _ hturn h =>
    have hend : (decode (u.imemWord u.pc.toNat) = .ok .halt ∧ t.state = .halted) ∨
        (t.state = .faulted ∧ t.cause ≠ .none) := by
      rcases h.runStatus with ⟨hsame, -⟩ | ⟨hd, hhalt, -⟩ | hfault
      · exact absurd (hsame.trans (hturn.state_eq.trans hturn.1.symm)) hne
      · exact .inl ⟨hd, hhalt⟩
      · exact .inr hfault
    rw [hturn.fetched_eq] at hend
    exact .inr (.inr ⟨hturn.1, hturn.turns_ne_host, hend⟩)
  | pass rest => exact absurd rfl hne
  | host x rest _ ht h =>
    rcases hostAct_state h with hsame | ⟨rfl, hidle⟩ | ⟨v, rfl, rfl⟩
    · exact absurd hsame hne
    · exact .inl ⟨rest, ht, hidle⟩
    · exact .inr (.inl ⟨v, rest, ht, (turnTaken s rest).writeCtrl_state v hne⟩)

/-! ## CTRL bit by bit -/

theorem State.writeCtrl_abortBit (s : State) (v : Word) :
    s.writeCtrl (v &&& 4#32) = s.actIf (v.getLsbD 2) State.abort := by
  simp [State.writeCtrl_eq]

theorem State.writeCtrl_clearBit (s : State) (v : Word) :
    s.writeCtrl (v &&& 2#32) = s.actIf (v.getLsbD 1) State.clear := by
  simp [State.writeCtrl_eq]

theorem State.writeCtrl_startBit (s : State) (v : Word) :
    s.writeCtrl (v &&& 1#32) = s.actIf (v.getLsbD 0) State.start := by
  simp [State.writeCtrl_eq]

/-- Bits 31 to 3 do nothing. -/
theorem State.writeCtrl_of_noAction (s : State) {v : Word} (h : v &&& 7#32 = 0#32) : s.writeCtrl v = s := by
  have hbit : ∀ k, k < 3 → v.getLsbD k = false := by
    intro k hk
    have hand : (v &&& 7#32).getLsbD k = false := by rw [h, BitVec.getLsbD_zero]
    rcases (by omega : k = 0 ∨ k = 1 ∨ k = 2) with rfl | rfl | rfl <;> simpa using hand
  rw [State.writeCtrl_eq, hbit 0 (by decide), hbit 1 (by decide), hbit 2 (by decide)]
  rfl

theorem hostAct_writeCtrl (s : State) (v : Word) : hostAct (.writeCr 0x0C v) s = .next (s.writeCtrl v) :=
  hostAct_writeCr rfl v s

/-- Settles O47: each masked write is the action of its own bit. -/
theorem ctrlActsBitByBit : Obligations.CtrlActsBitByBit := by
  refine ⟨fun s v => ?_, fun s v h => ?_, fun s => rfl⟩
  · refine ⟨_, _, hostAct_writeCtrl _ _, hostAct_writeCtrl _ _, ?_⟩
    rw [hostAct_writeCtrl, hostAct_writeCtrl, State.writeCtrl_abortBit, State.writeCtrl_clearBit,
      State.writeCtrl_startBit, State.writeCtrl_eq s v]
  · rw [hostAct_writeCtrl, s.writeCtrl_of_noAction h]

/-! ## The control-register window -/

theorem State.readCr_status (s : State) : s.readCr 0x10 = s.state.code.setWidth 32 := rfl
theorem State.readCr_cause (s : State) : s.readCr 0x14 = s.cause.code.setWidth 32 := rfl
theorem State.readCr_valid (s : State) : s.readCr 0x28 = s.valid.setWidth 32 := rfl
theorem State.readCr_prngMultLo (s : State) : s.readCr 0x2C = s.build.prngMult.extractLsb' 0 32 := rfl
theorem State.readCr_prngMultHi (s : State) : s.readCr 0x30 = s.build.prngMult.extractLsb' 32 32 := rfl

theorem State.readCr_past_window (s : State) {o : Nat} (h : 0x30 < o) : s.readCr o = 0#32 := by
  have hnone : ControlReg.ofOffset o = none := by
    refine List.find?_eq_none.mpr fun r _ => ?_
    have hr : r.offset ≤ 0x30 := by cases r <;> decide
    simp only [beq_iff_eq]
    omega
  simp [State.readCr, hnone]

theorem build_legal_bounds {b : Config.Build} (h : b.legal = true) :
    b.imemWords ≤ 65536 ∧ b.dmemBytes ≤ 2097152 ∧ b.prngMult.getLsbD 0 = true := by
  simp only [Config.Build.legal, Bool.and_eq_true, decide_eq_true_eq] at h
  obtain ⟨⟨⟨-, himem⟩, -, hdmem⟩, hmult⟩ := h
  exact ⟨himem, hdmem, hmult⟩

/-- A number of `w` bits reads as itself in a wider register. -/
theorem toNat_setWidth_ofNat {w n : Nat} (hn : n < 2 ^ w) (hw : w ≤ 32) :
    ((BitVec.ofNat w n).setWidth 32).toNat = n := by
  rw [BitVec.toNat_setWidth_of_le hw, BitVec.toNat_ofNat, Nat.mod_eq_of_lt hn]

theorem State.readCr_valid_bit (s : State) {i : Nat} (hi : i < 32) :
    (s.readCr 0x28).getLsbD i = if h : i < 16 then s.isValid ⟨i, h⟩ else false := by
  have hread : (s.readCr 0x28).getLsbD i = s.valid.getLsbD i := by
    rw [s.readCr_valid, BitVec.getLsbD_setWidth]
    simp [hi]
  split
  · exact hread
  · rw [hread, BitVec.getLsbD_of_ge _ _ (by omega)]

theorem State.toNat_readCr_prngMultLo (s : State) : (s.readCr 0x2C).toNat = s.build.prngMult.toNat % 2 ^ 32 := by
  rw [s.readCr_prngMultLo, BitVec.extractLsb'_toNat, Nat.shiftRight_zero]

theorem State.readCr_prngMultLo_bit (s : State) : (s.readCr 0x2C).getLsbD 0 = s.build.prngMult.getLsbD 0 := by
  rw [s.readCr_prngMultLo, BitVec.getLsbD_extractLsb']
  simp

theorem State.toNat_readCr_prngMultHi (s : State) : (s.readCr 0x30).toNat = s.build.prngMult.toNat / 2 ^ 32 := by
  rw [s.readCr_prngMultHi, BitVec.extractLsb'_toNat, Nat.shiftRight_eq_div_pow]
  have := s.build.prngMult.isLt
  omega

/-- Settles O48: register by register; a legal build's sizes fit the widths of their registers. -/
theorem controlRegisterReads : Obligations.ControlRegisterReads := by
  refine ⟨fun s hlegal => ?_, fun s o ho => hostAct_readCr ho s, fun s o v ho hctrl hentry => ?_, fun s v hs => ?_,
    fun s o v ho => ⟨hostAct_readCr_misaligned ho s, hostAct_writeCr_misaligned ho v s⟩⟩
  · obtain ⟨himem, hdmem, hodd⟩ := build_legal_bounds hlegal
    have himemSize : (s.readCr 0x04).toNat = s.build.imemWords := toNat_setWidth_ofNat (w := 17) (by omega) (by decide)
    have hdmemSize : (s.readCr 0x08).toNat = s.build.dmemBytes := toNat_setWidth_ofNat (w := 22) (by omega) (by decide)
    have hindex (p : Pc) : (p.setWidth 32).toNat = p.toNat := BitVec.toNat_setWidth_of_le (by decide)
    refine ⟨rfl, himemSize, hdmemSize, rfl, ?_, ?_, hindex _, hindex _, hindex _, rfl, fun i => s.readCr_valid_bit,
      s.toNat_readCr_prngMultLo, s.toNat_readCr_prngMultHi, s.readCr_prngMultLo_bit.trans hodd,
      fun o => s.readCr_past_window⟩
    · rw [s.readCr_status, BitVec.toNat_setWidth_of_le (by decide)]
      cases s.state <;> rfl
    · rw [s.readCr_cause, BitVec.toNat_setWidth_of_le (by decide)]
      cases s.cause <;> rfl
  · rw [hostAct_writeCr ho]
    rcases s.writeCr_cases o v with ⟨h, -⟩ | ⟨h, -⟩ | ⟨-, -, e⟩
    · exact absurd h hctrl
    · exact absurd h hentry
    · rw [e]
  · rw [hostAct_writeCr rfl, State.writeCr_entryPc, State.writeEntryPc, if_neg hs]

/-! ## Reset -/

/-- Settles O52: the values are those of the definition, and no bit of VALID is set. -/
theorem resetValues : Obligations.ResetValues :=
  fun b n => ⟨rfl, rfl, rfl, rfl, rfl, rfl, rfl, rfl, State.isValid_resetOf b n⟩

end Sys2Proof.Machine
end

section
/-! PROOFS. Program images and the memory round trip (20_memory.md R53, R54): a wide lane is its narrow lanes in order, so a
word of an image shows its bytes, and a stored register shows its bytes, its 16-bit lanes and its 64-bit lanes in memory. -/

namespace Sys2Proof.Machine

/-! ## Lanes of lanes and of joined values -/

/-- A wide lane holds n narrow ones, and its narrow lane j is one of the value's. -/
theorem laneOf_laneOf {W : Nat} (v w n : Nat) (hv : w * n = v) (x : BitVec W) (k : Nat) {j : Nat} (hj : j < n) :
    laneOf w (laneOf v x k) j = laneOf w x (n * k + j) := by
  subst hv
  apply BitVec.eq_of_getLsbD_eq
  intro i hi
  have hin : w * j + i < w * n := by
    calc w * j + i < w * (j + 1) := by rw [Nat.mul_succ]; omega
      _ ≤ w * n := Nat.mul_le_mul_left w hj
  have hpos : w * n * k + (w * j + i) = w * (n * k + j) + i := by ring
  simp only [getLsbD_laneOf, hi, hin, hpos, decide_true, Bool.true_and]

theorem laneOf_self {w : Nat} (x : BitVec w) : laneOf w x 0 = x := BitVec.extractLsb'_eq_self

theorem laneOf_append_zero {n w : Nat} (hi : BitVec n) (lo : BitVec w) : laneOf w (hi ++ lo) 0 = lo :=
  BitVec.extractLsb'_append_eq_right

theorem laneOf_append_succ {n w : Nat} (hi : BitVec n) (lo : BitVec w) (k : Nat) :
    laneOf w (hi ++ lo) (k + 1) = laneOf w hi k := by
  rw [laneOf, laneOf, Nat.mul_succ, BitVec.extractLsb'_append_eq_of_le (by omega), Nat.add_sub_cancel]

/-- Four lanes joined, the highest written first, read back. -/
theorem laneOf_append_four {w : Nat} (f : Nat → BitVec w) {j : Nat} (hj : j < 4) :
    laneOf w (f 3 ++ f 2 ++ f 1 ++ f 0) j = f j := by
  match j, hj with
  | 0, _ => rw [laneOf_append_zero]
  | 1, _ => rw [laneOf_append_succ, laneOf_append_zero]
  | 2, _ => rw [laneOf_append_succ, laneOf_append_succ, laneOf_append_zero]
  | 3, _ => rw [laneOf_append_succ, laneOf_append_succ, laneOf_append_succ, laneOf_self]

/-! ## Program images -/

theorem packImage_isSome : ∀ bytes : List Byte, (packImage bytes).isSome = decide (bytes.length % 4 = 0)
  | [] | [_] | [_, _] | [_, _, _] => rfl
  | b0 :: b1 :: b2 :: b3 :: rest => by
    have hlen : (b0 :: b1 :: b2 :: b3 :: rest).length % 4 = rest.length % 4 := Nat.add_mod_right _ 4
    rw [hlen, packImage, Option.isSome_map, packImage_isSome rest]

/-- The bytes are those of the words, four a word. -/
inductive Packs : List Byte → List Word → Prop where
  | nil : Packs [] []
  | cons (b0 b1 b2 b3 : Byte) {rest : List Byte} {words : List Word} (h : Packs rest words) :
      Packs (b0 :: b1 :: b2 :: b3 :: rest) (wordOfBytes b0 b1 b2 b3 :: words)

theorem Packs.of_packImage : ∀ {bytes : List Byte} {words : List Word}, packImage bytes = some words → Packs bytes words
  | [], _, h => by cases h; exact .nil
  | [_], _, h | [_, _], _, h | [_, _, _], _, h => by cases h
  | b0 :: b1 :: b2 :: b3 :: _, _, h => by
    obtain ⟨_, hrest, rfl⟩ := Option.map_eq_some_iff.mp h
    exact .cons b0 b1 b2 b3 (.of_packImage hrest)

theorem Packs.length_eq {bytes : List Byte} {words : List Word} (h : Packs bytes words) :
    bytes.length = 4 * words.length := by
  induction h with
  | nil => rfl
  | cons b0 b1 b2 b3 _ ih => simp only [List.length_cons]; omega

/-- The bytes of a word are the first four of the image that begins with it. -/
theorem laneOf_wordOfBytes (b0 b1 b2 b3 : Byte) (rest : List Byte) {j : Nat} (hj : j < 4) :
    laneOf 8 (wordOfBytes b0 b1 b2 b3) j = (b0 :: b1 :: b2 :: b3 :: rest)[j]?.getD 0#8 :=
  laneOf_append_four (fun j => (b0 :: b1 :: b2 :: b3 :: rest)[j]?.getD 0#8) hj

theorem Packs.laneOf_word {bytes : List Byte} {words : List Word} (h : Packs bytes words) {i j : Nat}
    (hi : i < words.length) (hj : j < 4) : laneOf 8 (words[i]?.getD 0#32) j = bytes[4 * i + j]?.getD 0#8 := by
  induction h generalizing i with
  | nil => cases hi
  | @cons b0 b1 b2 b3 rest _ _ ih =>
    cases i with
    | zero => simpa using laneOf_wordOfBytes b0 b1 b2 b3 rest hj
    | succ i =>
      have hpos : 4 * (i + 1) + j = 4 * i + j + 4 := by omega
      simpa [hpos] using ih (Nat.lt_of_succ_lt_succ hi)

/-- Settles O7: the length alone decides whether there are words, and a word's bytes are its four lanes. -/
theorem imageBytesBecomeWords : Obligations.ImageBytesBecomeWords := by
  refine ⟨fun bytes hlen => ?_, fun bytes words h => ?_, fun bytes hlen => ?_⟩
  · exact Option.isSome_iff_exists.mp (by simp [packImage_isSome, hlen])
  · have hpacks := Packs.of_packImage h
    exact ⟨hpacks.length_eq, fun _ _ => hpacks.laneOf_word⟩
  · exact Option.not_isSome_iff_eq_none.mp (by simp [packImage_isSome, hlen])

/-! ## A store read back -/

theorem exec_vst_inDmem {d : Reg} {imm16 : BitVec 16} {s : State} (hv : s.isValid d = true)
    (hin : s.inDmem (effectiveAddress imm16) = true) :
    exec (.vst d imm16) s = .next (s.memWrite (effectiveAddress imm16) 32 (s.reg d)).advance :=
  (guarded_of_pass _ ⟨rfl, rfl, by simpa [sources] using hv⟩).trans (by rw [if_pos hin])

theorem exec_vld_inDmem (d : Reg) {imm16 : BitVec 16} {s : State} (hin : s.inDmem (effectiveAddress imm16) = true) :
    exec (.vld d imm16) s = .next (s.finish d (s.memRead (effectiveAddress imm16))) :=
  (guarded_of_pass _ ⟨rfl, rfl, by simp [sources]⟩).trans (by rw [if_pos hin])

theorem State.inDmem_store (s : State) (addr n : Nat) (x : V256) (ea : Nat) :
    (s.memWrite addr n x).advance.inDmem ea = s.inDmem ea := by
  rw [State.inDmem, State.inDmem, State.advance_build, State.memWrite_build]

theorem State.b8_memRead (s : State) (addr : Nat) {j : Nat} (hj : j < 32) :
    b8 (s.memRead addr) j = s.dmemByte (addr + j) := b8_lanes8 _ j hj

theorem State.dmemByte_store_inside (s : State) (addr : Nat) (x : V256) {j : Nat} (hj : j < 32) :
    (s.memWrite addr 32 x).advance.dmemByte (addr + j) = b8 x j := by
  rw [State.dmemByte_advance, State.dmemByte_memWrite_inside _ _ _ _ _ hj, b8, laneOf]

theorem State.memRead_store (s : State) (addr : Nat) (x : V256) : (s.memWrite addr 32 x).advance.memRead addr = x :=
  eq_of_lanes 256 8 32 (by decide) rfl _ _ fun _ hj =>
    (State.b8_memRead _ addr hj).trans (s.dmemByte_store_inside addr x hj)

/-- Byte j of the 16-bit lane k (R54). -/
theorem State.dmemByte_store_half (s : State) (addr : Nat) (x : V256) {k j : Nat} (hk : k < 16) (hj : j < 2) :
    (s.memWrite addr 32 x).advance.dmemByte (addr + 2 * k + j) = laneOf 8 (h16 x k) j := by
  rw [Nat.add_assoc, s.dmemByte_store_inside addr x (by omega), laneOf_laneOf 16 8 2 rfl x k hj]

/-- Byte j of the 64-bit lane k (R54). -/
theorem State.dmemByte_store_quad (s : State) (addr : Nat) (x : V256) {k j : Nat} (hk : k < 4) (hj : j < 8) :
    (s.memWrite addr 32 x).advance.dmemByte (addr + 8 * k + j) = laneOf 8 (q64 x k) j := by
  rw [Nat.add_assoc, s.dmemByte_store_inside addr x (by omega), laneOf_laneOf 64 8 8 rfl x k hj]

/-- A 64-bit lane is its four 16-bit lanes, the highest first. -/
theorem q64_eq_halves (x : V256) (k : Nat) :
    q64 x k = h16 x (4 * k + 3) ++ h16 x (4 * k + 2) ++ h16 x (4 * k + 1) ++ h16 x (4 * k) :=
  eq_of_lanes 64 16 4 (by decide) rfl _ _ fun _ hj =>
    (laneOf_laneOf 64 16 4 rfl x k hj).trans (laneOf_append_four (fun j => h16 x (4 * k + j)) hj).symm

/-- Settles O30: the store puts byte j of the register at EA + j, which is what the load reads there, and each lane view is
a way to name those bytes. -/
theorem storeThenLoadKeepsEveryView : Obligations.StoreThenLoadKeepsEveryView := by
  refine ⟨fun d e imm16 s hv hin => ?_, fun x k _ => q64_eq_halves x k⟩
  have hin : s.inDmem (effectiveAddress imm16) = true := decide_eq_true hin
  refine ⟨_, _, exec_vst_inDmem hv hin, exec_vld_inDmem e ((s.inDmem_store _ _ _ _).trans hin), ?_, fun k hk => ⟨?_, ?_⟩,
    fun k j => s.dmemByte_store_quad _ _⟩
  · rw [State.reg_finish_same, State.memRead_store]
  · exact s.dmemByte_store_half _ _ hk (j := 0) (by decide)
  · exact s.dmemByte_store_half _ _ hk (j := 1) (by decide)

end Sys2Proof.Machine
end

section
/-! PROOFS. The encoding (30_encoding.md R71 to R82): what the decoder answers, by the opcode of the word, its
must-be-zero bits and its shift amount; and that encoding and decoding undo each other, format by format. -/

namespace Sys2Proof

/-! ## What the decoder answers -/

/-- The opcode map is one to one, so it finds exactly the opcode of the field. -/
theorem Op.ofCode_eq_some_iff {c : BitVec 6} {op : Op} : Op.ofCode c = some op ↔ c = op.code :=
  ⟨fun h => (Op.code_of_ofCode h).symm, fun h => h ▸ Op.ofCode_code op⟩

theorem decode_of_ofCode_none {w : Word} (h : Op.ofCode (opField w) = none) : decode w = .error .illegalOpcode := by
  simp [decode, h]

/-- A word of a defined opcode goes through the two other checks of R82 in order. -/
theorem decode_of_code {op : Op} {w : Word} (h : opField w = op.code) :
    decode w =
      if reservedClear op.format w then
        if (op.build (fieldsOf w)).wellFormed then .ok (op.build (fieldsOf w)) else .error .immRange
      else .error .reservedField := by
  simp [decode, Op.ofCode_eq_some_iff.mpr h]

theorem decode_eq_illegalOpcode_iff {w : Word} :
    decode w = .error .illegalOpcode ↔ Op.ofCode (opField w) = none := by
  refine ⟨fun h => ?_, decode_of_ofCode_none⟩
  rcases hc : Op.ofCode (opField w) with _ | op
  · rfl
  · rw [decode_of_code (Op.ofCode_eq_some_iff.mp hc)] at h
    split_ifs at h <;> cases h

theorem decode_eq_reservedField_iff {op : Op} {w : Word} (h : opField w = op.code) :
    decode w = .error .reservedField ↔ reservedClear op.format w = false := by
  rw [decode_of_code h]
  split_ifs with hclear <;> simp [hclear]

/-- A word that passes the first check of R82 has a defined opcode. -/
theorem exists_code_of_decode_ne {w : Word} (h : decode w ≠ .error .illegalOpcode) :
    ∃ op : Op, opField w = op.code := by
  obtain ⟨op, hop⟩ := Option.ne_none_iff_exists'.mp fun hc => h (decode_of_ofCode_none hc)
  exact ⟨op, Op.ofCode_eq_some_iff.mp hop⟩

theorem decode_eq_immRange_iff {w : Word} :
    decode w = .error .immRange ↔ ∃ op : Op, opField w = op.code ∧ reservedClear op.format w = true ∧
      (op.build (fieldsOf w)).wellFormed = false := by
  constructor
  · intro h
    obtain ⟨op, hop⟩ := exists_code_of_decode_ne (w := w) (by simp [h])
    rw [decode_of_code hop] at h
    split_ifs at h with hclear hwf
    · exact ⟨op, hop, hclear, Bool.eq_false_of_not_eq_true hwf⟩
    · cases h
  · rintro ⟨op, hop, hclear, hwf⟩
    simp [decode_of_code hop, hclear, hwf]

theorem decode_eq_ok_iff {w : Word} {i : Instr} :
    decode w = .ok i ↔ ∃ op : Op, opField w = op.code ∧ reservedClear op.format w = true ∧
      i = op.build (fieldsOf w) ∧ i.wellFormed = true := by
  constructor
  · intro h
    obtain ⟨op, hop⟩ := exists_code_of_decode_ne (w := w) (by simp [h])
    rw [decode_of_code hop] at h
    split_ifs at h with hclear hwf
    cases h
    exact ⟨op, hop, hclear, rfl, hwf⟩
  · rintro ⟨op, hop, hclear, rfl, hwf⟩
    simp [decode_of_code hop, hclear, hwf]

/-! ## Decoding an encoded instruction -/

theorem opField_encode (i : Instr) : opField (encode i) = i.op.code := by
  cases i <;> simp [encode]

theorem reservedClear_encode (i : Instr) : reservedClear i.op.format (encode i) = true := by
  cases i <;> simp [encode, Instr.op, Op.format, reservedClear_m]

/-- The fields of an instruction's word are its operands (R71, R72). -/
theorem build_fieldsOf_encode (i : Instr) : i.op.build (fieldsOf (encode i)) = i := by
  cases i <;> simp [encode, Instr.op, Op.build, fieldsOf]

/-- Settles O2: the word has the instruction's opcode, zeros where they must be, and its operands as fields. -/
theorem decodeOfEncode : Obligations.DecodeOfEncode := fun i hwf =>
  decode_eq_ok_iff.mpr
    ⟨i.op, opField_encode i, reservedClear_encode i, (build_fieldsOf_encode i).symm, hwf⟩

/-! ## Encoding a decoded word -/

/-- The word of a format with the given opcode and the operand fields the format has (R72). -/
def Format.pack (c : BitVec 6) (f : Fields) : Format → Word
  | .n => packN c
  | .j => packJ c f.imm16
  | .b => packB c f.d f.imm16
  | .m => packB c f.d f.imm16
  | .r3 => packR3 c f.d f.s1 f.s2
  | .r2 => packR2 c f.d f.s1
  | .ri => packRI c f.d f.s1 f.imm8

theorem encode_build (op : Op) (f : Fields) : encode (op.build f) = op.format.pack op.code f := by
  cases op <;> rfl

/-- Bit i of a word of the format must be zero (R72). -/
def Format.mustBeZero (i : Nat) : Format → Bool
  | .n => i < 26
  | .j => 16 ≤ i && i < 26
  | .b => 16 ≤ i && i < 22
  | .m => 16 ≤ i && i < 22
  | .r3 => i < 14
  | .r2 => i < 18
  | .ri => 8 ≤ i && i < 18

theorem extractLsb'_eq_zero_iff (w : Word) (lo n : Nat) :
    w.extractLsb' lo n = 0#n ↔ ∀ i, lo ≤ i → i < lo + n → w.getLsbD i = false := by
  constructor
  · intro h i hlo hhi
    have hbit := congrArg (·.getLsbD (i - lo)) h
    simpa [show i - lo < n by omega, show lo + (i - lo) = i by omega] using hbit
  · intro h
    apply BitVec.eq_of_getLsbD_eq
    intro i hi
    simp [h (lo + i) (by omega) (by omega)]

theorem reservedClear_iff {fmt : Format} {w : Word} :
    reservedClear fmt w = true ↔ ∀ i, fmt.mustBeZero i = true → w.getLsbD i = false := by
  cases fmt <;> simp [reservedClear, Format.mustBeZero, extractLsb'_eq_zero_iff]

theorem regBits_dField (w : Word) : regBits (dField w) = w.extractLsb' 22 4 := rfl
theorem regBits_s1Field (w : Word) : regBits (s1Field w) = w.extractLsb' 18 4 := rfl
theorem regBits_s2Field (w : Word) : regBits (s2Field w) = w.extractLsb' 14 4 := rfl

/-- The word packed from the fields of `w` is `w` with the must-be-zero bits cleared. -/
theorem getLsbD_pack_fieldsOf (fmt : Format) (w : Word) {i : Nat} (hi : i < 32) :
    (fmt.pack (opField w) (fieldsOf w)).getLsbD i = (!fmt.mustBeZero i && w.getLsbD i) := by
  cases fmt
  all_goals
    simp only [Format.pack, fieldsOf, Format.mustBeZero, getLsbD_packN, getLsbD_packJ, getLsbD_packB, getLsbD_packR3,
      getLsbD_packR2, getLsbD_packRI, opField, regBits_dField, regBits_s1Field, regBits_s2Field, imm8Field, imm16Field]
    split_ifs <;> simp (disch := omega) [*]

/-- A word whose must-be-zero bits are zero is packed from its own fields (R72). -/
theorem pack_fieldsOf {fmt : Format} {w : Word} (h : reservedClear fmt w = true) :
    fmt.pack (opField w) (fieldsOf w) = w := by
  apply BitVec.eq_of_getLsbD_eq
  intro i hi
  rw [getLsbD_pack_fieldsOf fmt w hi]
  rcases hz : fmt.mustBeZero i with _ | _
  · simp
  · simp [reservedClear_iff.mp h i hz]

/-- Settles O3: the word is packed from its fields, as the encoder packs the instruction built from them. -/
theorem encodeOfDecode : Obligations.EncodeOfDecode := by
  intro w i h
  obtain ⟨op, hop, hclear, rfl, hwf⟩ := decode_eq_ok_iff.mp h
  exact ⟨hwf, by rw [encode_build, ← hop, pack_fieldsOf hclear]⟩

/-! ## Which words decode to no instruction -/

/-- The mask of a format covers the opcode and the must-be-zero bits (R79). -/
theorem getLsbD_mask (fmt : Format) : ∀ i, i < 32 → fmt.mask.getLsbD i = (decide (26 ≤ i) || fmt.mustBeZero i) := by
  cases fmt <;> decide

theorem mustBeZero_lt (fmt : Format) {i : Nat} (h : fmt.mustBeZero i = true) : i < 26 := by
  cases fmt <;> simp [Format.mustBeZero] at h <;> omega

theorem getLsbD_matchWord {op : Op} {w : Word} (h : opField w = op.code) {i : Nat} (hi : i < 32) :
    op.matchWord.getLsbD i = (decide (26 ≤ i) && w.getLsbD i) := by
  rw [show op.matchWord = packN op.code from rfl, ← h, getLsbD_packN]
  split_ifs with hlt
  · simp [hlt]
  · simp [opField, show 26 ≤ i by omega, show i - 26 < 6 by omega]

/-- Word and mask give match exactly when the must-be-zero bits are zero (R79). -/
theorem and_mask_eq_matchWord_iff {op : Op} {w : Word} (h : opField w = op.code) :
    w &&& op.format.mask = op.matchWord ↔ reservedClear op.format w = true := by
  rw [reservedClear_iff]
  constructor
  · intro heq i hz
    have hlt := mustBeZero_lt _ hz
    have hbit := congrArg (·.getLsbD i) heq
    simpa [getLsbD_mask _ i (by omega), getLsbD_matchWord h (i := i) (by omega), hz, Nat.not_le.mpr hlt] using hbit
  · intro hzero
    apply BitVec.eq_of_getLsbD_eq
    intro i hi
    rw [BitVec.getLsbD_and, getLsbD_mask _ i hi, getLsbD_matchWord h hi]
    rcases hz : op.format.mustBeZero i with _ | _
    · simp [Bool.and_comm]
    · simp [hzero i hz]

theorem ofCode_eq_none_iff : ∀ c : BitVec 6, Op.ofCode c = none ↔
    c.toNat = 0 ∨ (0x08 ≤ c.toNat ∧ c.toNat ≤ 0x0F) ∨ 0x25 ≤ c.toNat := by
  decide

/-- Only a shift of more than 16 is ill-formed (R80). -/
theorem wellFormed_build_eq_false_iff (op : Op) (f : Fields) :
    (op.build f).wellFormed = false ↔ (op = .vsll16 ∨ op = .vsrl16) ∧ 16 < f.imm8.toNat := by
  cases op <;> simp [Op.build, Instr.wellFormed, shiftInRange]

theorem decode_eq_immRange_iff_shift {w : Word} : decode w = .error .immRange ↔
    (opField w = 0x20#6 ∨ opField w = 0x21#6) ∧ w.extractLsb' 8 10 = 0#10 ∧ 16 < (imm8Field w).toNat := by
  rw [decode_eq_immRange_iff]
  simp only [wellFormed_build_eq_false_iff]
  constructor
  · rintro ⟨op, hop, hclear, rfl | rfl, himm⟩
    · exact ⟨.inl hop, beq_iff_eq.mp hclear, himm⟩
    · exact ⟨.inr hop, beq_iff_eq.mp hclear, himm⟩
  · rintro ⟨hop | hop, hclear, himm⟩
    · exact ⟨.vsll16, hop, beq_iff_eq.mpr hclear, .inl rfl, himm⟩
    · exact ⟨.vsrl16, hop, beq_iff_eq.mpr hclear, .inr rfl, himm⟩

/-- Settles O1: each word is decoded. -/
theorem wordsOfTheSpecDecode : Obligations.WordsOfTheSpecDecode :=
  ⟨rfl, rfl, rfl, rfl, rfl, rfl, rfl, rfl, rfl, rfl, rfl, rfl, rfl⟩

end Sys2Proof
end

section
/-! PROOFS. The step that meets the decoder's answer (30_encoding.md R78 to R82, 60_exceptions.md R205 to R207): the fetch
and its three outcomes, and the state a placed word runs from. -/

namespace Sys2Proof.Machine

theorem CoreMoves.coreTurn {s : State} (h : CoreMoves s) : CoreTurn s s := ⟨h.2, .inl ⟨h.1, rfl⟩⟩

/-! ## The core's turn -/

section
variable {s u : State} (hturn : CoreTurn s u)
include hturn

theorem step_of_pc_outside (hpc : u.build.imemWords ≤ u.pc.toNat) : step s = .next (u.raise .fetchRange 0#32) := by
  rw [step_of_coreTurn hturn, fetchAndRun, if_neg (by omega)]

theorem step_of_pc_inside (hpc : u.pc.toNat < u.build.imemWords) : step s = runWord (u.imemWord u.pc.toNat) u := by
  rw [step_of_coreTurn hturn, fetchAndRun, if_pos hpc]

theorem step_of_decode_ok (hpc : u.pc.toNat < u.build.imemWords) {i : Instr}
    (hd : decode (u.imemWord u.pc.toNat) = .ok i) : step s = exec i u := by
  rw [step_of_pc_inside hturn hpc, runWord, hd]

theorem step_of_decode_error (hpc : u.pc.toNat < u.build.imemWords) {c : DecodeFault}
    (hd : decode (u.imemWord u.pc.toNat) = .error c) :
    step s = .next (u.raise (causeOf c) (u.imemWord u.pc.toNat)) := by
  rw [step_of_pc_inside hturn hpc, runWord, hd]

end

theorem faultTaken_raise (s : State) (c : Cause) (w : Word) : FaultTaken s (s.raise c w) c w :=
  ⟨rfl, rfl, rfl, rfl, rfl, fun _ _ => ⟨rfl, rfl⟩, fun _ => rfl, keepsOutside_refl s⟩

/-! ## A placed word -/

theorem placeWord_pc_inside (s : State) (w : Word) (h : 1 ≤ s.build.imemWords) :
    (placeWord s w).pc.toNat < (placeWord s w).build.imemWords := by
  by_cases hpc : s.pc.toNat < s.build.imemWords
  · simp [placeWord, hpc]
  · simpa [placeWord, hpc] using Nat.lt_of_succ_le h

theorem imemWord_placeWord (s : State) (w : Word) : (placeWord s w).imemWord (placeWord s w).pc.toNat = w := by
  simp [State.imemWord, placeWord]

theorem coreMoves_placeWord (s : State) (w : Word) : CoreMoves (placeWord s w) := ⟨rfl, rfl⟩

theorem tableWord_of_lt {w : Nat} (h : w < 2 ^ 32) : tableWord 32 w = BitVec.ofNat 32 w := by
  rw [tableWord, Nat.mod_eq_of_lt h]

/-- Settles O35: fetch and run, by the outcome of the fetch; a placed word is the one fetched. -/
theorem stepRunsTheDecodedInstruction : Obligations.StepRunsTheDecodedInstruction := by
  refine ⟨fun s u i hturn hpc => step_of_decode_ok hturn hpc,
    fun s u hturn hpc => ⟨_, step_of_pc_outside hturn hpc, faultTaken_raise _ _ _⟩,
    fun s u e hturn hpc hd => ⟨_, step_of_decode_error hturn hpc hd, by cases e <;> exact faultTaken_raise _ _ _⟩,
    fun s t rest => step_of_hostTurn rfl, fun s w i hwords hw hd => ?_⟩
  have hword : (s.withFetchWord 32 w).imemWord (s.withFetchWord 32 w).pc.toNat = BitVec.ofNat 32 w :=
    (imemWord_placeWord s _).trans (tableWord_of_lt hw)
  exact step_of_decode_ok (coreMoves_placeWord s _).coreTurn (placeWord_pc_inside s _ hwords) (hword ▸ hd)

/-! ## The decoder's faults -/

/-- Settles O4: the opcode map lists exactly the opcodes that are not reserved. -/
theorem reservedOpcodesAreIllegal : Obligations.ReservedOpcodesAreIllegal :=
  ⟨fun w => decode_eq_illegalOpcode_iff.trans (ofCode_eq_none_iff (opField w)), rfl, rfl,
    fun _ hmoves hpc hd => step_of_decode_error hmoves.coreTurn hpc hd⟩

/-- Settles O5: the mask covers, besides the opcode, the must-be-zero bits. -/
theorem maskAndMatchDecideReservedFields : Obligations.MaskAndMatchDecideReservedFields := by
  refine ⟨fun op w hop => ?_, fun _ hmoves hpc hd => step_of_decode_error hmoves.coreTurn hpc hd⟩
  rw [decode_eq_reservedField_iff hop, ne_eq, and_mask_eq_matchWord_iff hop, Bool.not_eq_true]

theorem asmImm8_of_shift_gt {o : Op} (ho : o = .vsll16 ∨ o = .vsrl16) {n : Nat} (hn : 16 < n) :
    asmImm8 o n = .error .shiftRange := by
  rw [asmImm8, if_pos ⟨ho, hn⟩]

/-- Settles O6: the shift amount is the one thing an instruction term can have wrong. -/
theorem onlyShiftsRaiseImmRange : Obligations.OnlyShiftsRaiseImmRange :=
  ⟨fun _ => decode_eq_immRange_iff_shift, fun _ hmoves hpc hd => step_of_decode_error hmoves.coreTurn hpc hd,
    fun n hn => by simp [asmImm8_of_shift_gt, hn, Except.toOption]⟩

end Sys2Proof.Machine
end

section
/-! PROOFS. The lines of the assembler (30_encoding.md R84 to R88): the targets that are accepted, the operands each
format reads, the forms that are refused, and what an accepted line expands to. -/

namespace Sys2Proof.Machine

/-! ## Targets -/

theorem asmTarget_eq {imemWords pc n : Nat} {labels : List (Name × Nat)} {a : Arg} (h : targetIndex labels a = .ok n) :
    asmTarget imemWords labels pc a =
      if targetEncodable imemWords pc n then .ok (BitVec.ofInt 16 ((n : Int) - pc)) else .error .targetRange := by
  simp only [asmTarget, h]

theorem targetEncodable_iff (imemWords pc n : Nat) : targetEncodable imemWords pc n = true ↔
    if imemWords ≤ 32768 then -32768 ≤ (n : Int) - pc ∧ (n : Int) - pc ≤ 32767 else n ≤ 65535 := by
  unfold targetEncodable
  split_ifs <;> simp

/-- The branch adds the offset back, mod 2^16 (R76). -/
theorem branchTarget_ofInt_sub (pc n : Nat) :
    branchTarget (BitVec.ofNat 16 pc) (BitVec.ofInt 16 ((n : Int) - pc)) = BitVec.ofNat 16 n := by
  rw [branchTarget_eq_add, ← BitVec.ofInt_natCast, ← BitVec.ofInt_add, add_sub_cancel, BitVec.ofInt_natCast]

/-- Settles O56: a target is accepted by whether it can be encoded alone, and its offset is the difference mod 2^16. -/
theorem assembledTargetsAreReached : Obligations.AssembledTargetsAreReached := by
  refine ⟨fun imemWords pc labels a n hn => ?_, fun imemWords pc labels a imm16 n _ _ hn himm => ?_⟩
  · rw [asmTarget_eq hn, ← targetEncodable_iff]
    rcases targetEncodable imemWords pc n <;> simp
  · rw [asmTarget_eq hn] at himm
    split_ifs at himm
    cases himm
    exact branchTarget_ofInt_sub pc n

/-! ## The operands of an instruction line -/

theorem bind_eq_ok_iff {ε α β : Type} {x : Except ε α} {k : α → Except ε β} {b : β} :
    x >>= k = .ok b ↔ ∃ a, x = .ok a ∧ k a = .ok b := by
  cases x <;> simp [bind, Except.bind]

theorem asmTarget_reg (imemWords pc n : Nat) (labels : List (Name × Nat)) :
    asmTarget imemWords labels pc (.reg n) = .error .operandForm := rfl

/-- The shift amounts stop at 16 and the other immediates at 255 (R88). -/
theorem asmImm8_eq_ok_iff {o : Op} {n : Nat} {imm8 : BitVec 8} :
    asmImm8 o n = .ok imm8 ↔ n < 256 ∧ (o = .vsll16 ∨ o = .vsrl16 → n ≤ 16) ∧ imm8 = BitVec.ofNat 8 n := by
  unfold asmImm8
  split_ifs with hshift hlt
  · exact ⟨(nomatch ·), fun h => absurd (h.2.1 hshift.1) (by omega)⟩
  · simp only [Except.ok.injEq, hlt, true_and]
    exact ⟨fun h => ⟨fun ho => by simp_all, h.symm⟩, fun h => h.2.symm⟩
  · simp [hlt]

theorem asmImm8_vpermq_of_gt {n : Nat} (hn : 255 < n) : asmImm8 .vpermq n = .error .immRange := by
  simp [asmImm8, show ¬n < 256 by omega]

section
variable {imemWords pc : Nat} {labels : List (Name × Nat)} {o : Op} {args : List Arg}

/-- The operands of a line are read as the fields of its format (R84): everything `asmFields` accepts. -/
inductive OperandsRead (imemWords pc : Nat) (labels : List (Name × Nat)) (o : Op) : List Arg → Fields → Prop where
  | n (ho : o.format = .n) : OperandsRead imemWords pc labels o [] { d := 0, s1 := 0, s2 := 0, imm8 := 0, imm16 := 0 }
  | j (ho : o.format = .j) {t : Arg} {imm16 : BitVec 16} (ht : asmTarget imemWords labels pc t = .ok imm16) :
      OperandsRead imemWords pc labels o [t] { d := 0, s1 := 0, s2 := 0, imm8 := 0, imm16 := imm16 }
  | b (ho : o.format = .b) (d : Reg) {t : Arg} {imm16 : BitVec 16} (ht : asmTarget imemWords labels pc t = .ok imm16) :
      OperandsRead imemWords pc labels o [.reg d.val, t] { d := d, s1 := 0, s2 := 0, imm8 := 0, imm16 := imm16 }
  | m (ho : o.format = .m) (d : Reg) {n : Nat} {imm16 : BitVec 16} (hn : asmAddress n = .ok imm16) :
      OperandsRead imemWords pc labels o [.reg d.val, .num n] { d := d, s1 := 0, s2 := 0, imm8 := 0, imm16 := imm16 }
  | r3 (ho : o.format = .r3) (d a b : Reg) :
      OperandsRead imemWords pc labels o [.reg d.val, .reg a.val, .reg b.val]
        { d := d, s1 := a, s2 := b, imm8 := 0, imm16 := 0 }
  | r2 (ho : o.format = .r2) (d a : Reg) :
      OperandsRead imemWords pc labels o [.reg d.val, .reg a.val] { d := d, s1 := a, s2 := 0, imm8 := 0, imm16 := 0 }
  | ri (ho : o.format = .ri) (d a : Reg) {n : Nat} {imm8 : BitVec 8} (hn : asmImm8 o n = .ok imm8) :
      OperandsRead imemWords pc labels o [.reg d.val, .reg a.val, .num n]
        { d := d, s1 := a, s2 := 0, imm8 := imm8, imm16 := 0 }

theorem OperandsRead.asmFields_eq_ok {f : Fields} (h : OperandsRead imemWords pc labels o args f) :
    asmFields imemWords labels pc o args = .ok f := by
  cases h <;> simp only [asmFields, asmReg_val, *] <;> rfl

theorem OperandsRead.of_asmFields {f : Fields} (h : asmFields imemWords labels pc o args = .ok f) :
    OperandsRead imemWords pc labels o args f := by
  unfold asmFields at h
  dsimp only at h
  split at h
  case h_1 ho =>
    cases h
    exact .n ho
  case h_2 ho =>
    obtain ⟨imm16, ht, h⟩ := bind_eq_ok_iff.mp h
    cases h
    exact .j ho ht
  case h_3 ho =>
    obtain ⟨d, hd, h⟩ := bind_eq_ok_iff.mp h
    obtain ⟨imm16, ht, h⟩ := bind_eq_ok_iff.mp h
    cases h
    exact asmReg_eq_ok hd ▸ .b ho d ht
  case h_4 ho =>
    obtain ⟨d, hd, h⟩ := bind_eq_ok_iff.mp h
    obtain ⟨imm16, hn, h⟩ := bind_eq_ok_iff.mp h
    cases h
    exact asmReg_eq_ok hd ▸ .m ho d hn
  case h_5 ho =>
    obtain ⟨d, hd, h⟩ := bind_eq_ok_iff.mp h
    obtain ⟨a, ha, h⟩ := bind_eq_ok_iff.mp h
    obtain ⟨b, hb, h⟩ := bind_eq_ok_iff.mp h
    cases h
    exact asmReg_eq_ok hd ▸ asmReg_eq_ok ha ▸ asmReg_eq_ok hb ▸ .r3 ho d a b
  case h_6 ho =>
    obtain ⟨d, hd, h⟩ := bind_eq_ok_iff.mp h
    obtain ⟨a, ha, h⟩ := bind_eq_ok_iff.mp h
    cases h
    exact asmReg_eq_ok hd ▸ asmReg_eq_ok ha ▸ .r2 ho d a
  case h_7 ho =>
    obtain ⟨d, hd, h⟩ := bind_eq_ok_iff.mp h
    obtain ⟨a, ha, h⟩ := bind_eq_ok_iff.mp h
    obtain ⟨imm8, hn, h⟩ := bind_eq_ok_iff.mp h
    cases h
    exact asmReg_eq_ok hd ▸ asmReg_eq_ok ha ▸ .ri ho d a hn
  case h_8 => cases h

theorem OperandsRead.asmOp_eq {f : Fields} (h : OperandsRead imemWords pc labels o args f) :
    asmOp imemWords labels pc o args = asmDistinct (o.build f) := by
  rw [asmOp, h.asmFields_eq_ok]
  rfl

theorem asmOp_of_asmFields_error {e : AsmError} (h : asmFields imemWords labels pc o args = .error e) :
    asmOp imemWords labels pc o args = .error e := by
  rw [asmOp, h]
  rfl

theorem asmDistinct_of_alias {i : Instr} (h : operandsAlias i = true) : asmDistinct i = .error .operandAlias := if_pos h

theorem asmDistinct_of_distinct {i : Instr} (h : operandsAlias i = false) : asmDistinct i = .ok i := by
  rw [asmDistinct, h]
  rfl

theorem OperandsRead.asmOp_eq_ok {f : Fields} (h : OperandsRead imemWords pc labels o args f)
    (ha : operandsAlias (o.build f) = false) : asmOp imemWords labels pc o args = .ok (o.build f) :=
  h.asmOp_eq.trans (asmDistinct_of_distinct ha)

/-- Only formats R3 and R2 have operands that must be distinct (R203). -/
theorem operandsAlias_build_of_format {o : Op} (f : Fields) (h3 : o.format ≠ .r3) (h2 : o.format ≠ .r2) :
    operandsAlias (o.build f) = false := by
  cases o
  case vsign16 | vshufb | vor | vand => exact absurd rfl h3
  case vprng => exact absurd rfl h2
  all_goals rfl

theorem acceptsOperandForms (imemWords pc : Nat) (labels : List (Name × Nat)) (o : Op) :
    AcceptsOperandForms imemWords pc labels o := by
  refine ⟨fun ho => ?_, fun ho t imm16 ht => ?_, fun ho d t imm16 ht => ?_,
    fun ho d addr => ⟨fun haddr => ?_, fun haddr => ?_⟩,
    fun ho d a b hd => ?_, fun ho d a hd => ?_, fun ho d a n hn hshift => ?_⟩
  · exact OperandsRead.asmOp_eq_ok (.n ho) (operandsAlias_build_of_format _ (by simp [ho]) (by simp [ho]))
  · exact OperandsRead.asmOp_eq_ok (.j ho ht) (operandsAlias_build_of_format _ (by simp [ho]) (by simp [ho]))
  · exact OperandsRead.asmOp_eq_ok (.b ho d ht) (operandsAlias_build_of_format _ (by simp [ho]) (by simp [ho]))
  · exact OperandsRead.asmOp_eq_ok (.m ho d (if_pos haddr))
      (operandsAlias_build_of_format _ (by simp [ho]) (by simp [ho]))
  · exact asmOp_of_asmFields_error (by simp only [asmFields, ho, asmReg_val, asmAddress, if_neg haddr]; rfl)
  · exact OperandsRead.asmOp_eq_ok (.r3 ho d a b) hd
  · exact OperandsRead.asmOp_eq_ok (.r2 ho d a) hd
  · exact OperandsRead.asmOp_eq_ok (.ri ho d a (asmImm8_eq_ok_iff.mpr ⟨hn, hshift, rfl⟩))
      (operandsAlias_build_of_format _ (by simp [ho]) (by simp [ho]))

/-! ## What is refused -/

/-- A register that is out of range is named unless a refusal of the same name comes first. -/
theorem asmReg_bind_registerName {α : Type} {n : Nat} {k : Reg → Except AsmError α}
    (h : 15 < n ∨ ∀ r, k r = .error .registerName) : asmReg n >>= k = .error .registerName := by
  by_cases hn : 15 < n
  · rw [asmReg_of_gt hn]
    rfl
  · rw [asmReg, dif_pos (show n < 16 by omega)]
    exact h.resolve_left hn _

theorem asmOp_vpermq_of_gt (imemWords pc : Nat) (labels : List (Name × Nat)) (d a : Reg) {n : Nat} (hn : 255 < n) :
    asmOp imemWords labels pc .vpermq [.reg d.val, .reg a.val, .num n] = .error .immRange :=
  asmOp_of_asmFields_error (by simp only [asmFields, Op.format, asmReg_val, asmImm8_vpermq_of_gt hn]; rfl)

theorem refusesOperandForms (imemWords pc : Nat) (labels : List (Name × Nat)) (o : Op) :
    RefusesOperandForms imemWords pc labels o := by
  refine ⟨fun ho t e ht => ?_, fun ho d t => ⟨fun hd => ?_, fun e hd ht => ?_⟩, fun ho d n hd => ?_,
    fun ho d a b h => ?_, fun ho d a h => ?_, fun ho d a n h => ?_,
    fun ho d a n => ⟨fun hshift hn => ?_, fun hperm hn => ?_⟩,
    fun ho d a b hd => ?_, fun ho d a hd => ?_⟩
  · exact asmOp_of_asmFields_error (by simp only [asmFields, ho, ht]; rfl)
  · exact asmOp_of_asmFields_error (by simp only [asmFields, ho]; exact asmReg_bind_registerName (.inl hd))
  · exact asmOp_of_asmFields_error (by simp only [asmFields, ho, asmReg, dif_pos (show d < 16 by omega), ht]; rfl)
  · exact asmOp_of_asmFields_error (by simp only [asmFields, ho]; exact asmReg_bind_registerName (.inl hd))
  · refine asmOp_of_asmFields_error ?_
    simp only [asmFields, ho]
    exact asmReg_bind_registerName (h.imp_right fun h _ => asmReg_bind_registerName (h.imp_right fun h _ =>
      asmReg_bind_registerName (.inl h)))
  · refine asmOp_of_asmFields_error ?_
    simp only [asmFields, ho]
    exact asmReg_bind_registerName (h.imp_right fun h _ => asmReg_bind_registerName (.inl h))
  · refine asmOp_of_asmFields_error ?_
    simp only [asmFields, ho]
    exact asmReg_bind_registerName (h.imp_right fun h _ => asmReg_bind_registerName (.inl h))
  · exact asmOp_of_asmFields_error (by simp only [asmFields, ho, asmReg_val, asmImm8_of_shift_gt hshift hn]; rfl)
  · exact hperm ▸ asmOp_vpermq_of_gt imemWords pc labels d a hn
  · exact (OperandsRead.asmOp_eq (.r3 ho d a b)).trans (asmDistinct_of_alias hd)
  · exact (OperandsRead.asmOp_eq (.r2 ho d a)).trans (asmDistinct_of_alias hd)

end

/-! ## Lines -/

/-- What a line that is accepted expands to (R84, R87): everything `expand` accepts. -/
inductive Expands (imemWords pc : Nat) (labels : List (Name × Nat)) : Mnemonic → List Arg → List Instr → Prop where
  | op (o : Op) {args : List Arg} {i : Instr} (h : asmOp imemWords labels pc o args = .ok i) :
      Expands imemWords pc labels (.op o) args [i]
  | vzero {d : Nat} {i : Instr} (h : asmOp imemWords labels pc .vxor [.reg d, .reg d, .reg d] = .ok i) :
      Expands imemWords pc labels .vzero [.reg d] [i]
  | vmov {d a : Nat} {i : Instr} (h : asmOp imemWords labels pc .vpermq [.reg d, .reg a, .num 0xE4] = .ok i) :
      Expands imemWords pc labels .vmov [.reg d, .reg a] [i]
  | vperm4x16 {args : List Arg} {i : Instr} (h : asmOp imemWords labels pc .vpermq args = .ok i) :
      Expands imemWords pc labels .vperm4x16 args [i]
  | vneg8 (d a t : Reg) (ht : t ≠ a) :
      Expands imemWords pc labels .vneg8 [.reg d.val, .reg a.val, .reg t.val] [.vxor t t t, .vsub8 d t a]
  | vneg16 (d a t : Reg) (ht : t ≠ a) :
      Expands imemWords pc labels .vneg16 [.reg d.val, .reg a.val, .reg t.val] [.vxor t t t, .vsub16 d t a]
  | vneg64 (d a t : Reg) (ht : t ≠ a) :
      Expands imemWords pc labels .vneg64 [.reg d.val, .reg a.val, .reg t.val] [.vxor t t t, .vsub64 d t a]
  | b {args : List Arg} {i : Instr} (h : asmOp imemWords labels pc .jmp args = .ok i) :
      Expands imemWords pc labels .b args [i]

theorem asmNeg_regs (sub : Reg → Reg → Reg → Instr) (d a t : Reg) :
    asmNeg sub [.reg d.val, .reg a.val, .reg t.val] =
      if t = a then .error .negAlias else .ok [.vxor t t t, sub d t a] := by
  simp only [asmNeg, asmReg_val]
  rfl

theorem asmNeg_eq_ok {sub : Reg → Reg → Reg → Instr} {args : List Arg} {is : List Instr}
    (h : asmNeg sub args = .ok is) :
    ∃ d a t : Reg, args = [.reg d.val, .reg a.val, .reg t.val] ∧ t ≠ a ∧ is = [.vxor t t t, sub d t a] := by
  unfold asmNeg at h
  split at h
  · obtain ⟨d, hd, h⟩ := bind_eq_ok_iff.mp h
    obtain ⟨a, ha, h⟩ := bind_eq_ok_iff.mp h
    obtain ⟨t, ht, h⟩ := bind_eq_ok_iff.mp h
    split at h
    · cases h
    · cases h
      exact ⟨d, a, t, by rw [asmReg_eq_ok hd, asmReg_eq_ok ha, asmReg_eq_ok ht], ‹_›, rfl⟩
  · cases h

/-- A line of one instruction is accepted as its instruction is. -/
theorem singleton_eq_ok {x : Except AsmError Instr} {is : List Instr} (h : (do return [← x]) = Except.ok is) :
    ∃ i, x = .ok i ∧ is = [i] := by
  obtain ⟨i, hi, h⟩ := bind_eq_ok_iff.mp h
  cases h
  exact ⟨i, hi, rfl⟩

section
variable {imemWords pc : Nat} {labels : List (Name × Nat)} {m : Mnemonic} {args : List Arg} {is : List Instr}

theorem Expands.expand_eq_ok (h : Expands imemWords pc labels m args is) :
    expand imemWords labels pc m args = .ok is := by
  cases h with
  | op o h => simp only [expand, h]; rfl
  | vzero h => simp only [expand, h]; rfl
  | vmov h => simp only [expand, h]; rfl
  | vperm4x16 h => simp only [expand, h]; rfl
  | vneg8 d a t ht => exact (asmNeg_regs .vsub8 d a t).trans (if_neg ht)
  | vneg16 d a t ht => exact (asmNeg_regs .vsub16 d a t).trans (if_neg ht)
  | vneg64 d a t ht => exact (asmNeg_regs .vsub64 d a t).trans (if_neg ht)
  | b h => simp only [expand, h]; rfl

theorem Expands.of_expand (h : expand imemWords labels pc m args = .ok is) :
    Expands imemWords pc labels m args is := by
  cases m with
  | op o =>
    obtain ⟨i, hi, rfl⟩ := singleton_eq_ok h
    exact .op o hi
  | vzero =>
    simp only [expand] at h
    split at h
    · obtain ⟨i, hi, rfl⟩ := singleton_eq_ok h
      exact .vzero hi
    · cases h
  | vmov =>
    simp only [expand] at h
    split at h
    · obtain ⟨i, hi, rfl⟩ := singleton_eq_ok h
      exact .vmov hi
    · cases h
  | vperm4x16 =>
    obtain ⟨i, hi, rfl⟩ := singleton_eq_ok h
    exact .vperm4x16 hi
  | vneg8 =>
    obtain ⟨d, a, t, rfl, ht, rfl⟩ := asmNeg_eq_ok h
    exact .vneg8 d a t ht
  | vneg16 =>
    obtain ⟨d, a, t, rfl, ht, rfl⟩ := asmNeg_eq_ok h
    exact .vneg16 d a t ht
  | vneg64 =>
    obtain ⟨d, a, t, rfl, ht, rfl⟩ := asmNeg_eq_ok h
    exact .vneg64 d a t ht
  | b =>
    obtain ⟨i, hi, rfl⟩ := singleton_eq_ok h
    exact .b hi

/-! ## What every accepted line keeps to -/

theorem OperandsRead.reg_le {o : Op} {f : Fields} (h : OperandsRead imemWords pc labels o args f) {n : Nat}
    (hn : .reg n ∈ args) : n ≤ 15 := by
  have htarget {t : Arg} {imm16 : BitVec 16} (ht : asmTarget imemWords labels pc t = .ok imm16) : .reg n ≠ t := by
    rintro rfl
    rw [asmTarget_reg] at ht
    cases ht
  cases h
  case j ht => exact absurd (List.mem_singleton.mp hn) (htarget ht)
  case b d t imm16 ho ht =>
    have hd := (List.mem_pair.mp hn).resolve_right (htarget ht)
    cases hd
    omega
  case n => cases hn
  all_goals
    simp only [List.mem_cons, Arg.reg.injEq, List.not_mem_nil, or_false, reduceCtorEq] at hn
    omega

theorem asmOp_reg_le {o : Op} {i : Instr} (h : asmOp imemWords labels pc o args = .ok i) {n : Nat}
    (hn : .reg n ∈ args) : n ≤ 15 := by
  obtain ⟨f, hf, -⟩ := asmOp_eq_ok h
  exact (OperandsRead.of_asmFields hf).reg_le hn

theorem Expands.reg_le (h : Expands imemWords pc labels m args is) {n : Nat} (hn : .reg n ∈ args) : n ≤ 15 := by
  cases h with
  | op o h => exact asmOp_reg_le h hn
  | vzero h => exact asmOp_reg_le h (List.mem_cons_of_mem _ (List.mem_cons_of_mem _ hn))
  | vmov h => exact asmOp_reg_le h (List.mem_append_left [_] hn)
  | vperm4x16 h => exact asmOp_reg_le h hn
  | vneg8 | vneg16 | vneg64 =>
    simp only [List.mem_cons, Arg.reg.injEq, List.not_mem_nil, or_false] at hn
    omega
  | b h => exact asmOp_reg_le h hn

/-- Neither the decoder nor the check of distinct operands refuses the instruction's word (R88). -/
def StaticallyLegal (i : Instr) : Prop := i.wellFormed = true ∧ operandsAlias i = false

theorem OperandsRead.wellFormed {o : Op} {f : Fields} (h : OperandsRead imemWords pc labels o args f) :
    (o.build f).wellFormed = true := by
  by_contra hwf
  obtain ⟨ho, himm⟩ := (wellFormed_build_eq_false_iff o f).mp (Bool.eq_false_of_not_eq_true hwf)
  cases h
  case ri d a n imm8 hri hn =>
    obtain ⟨hlt, hle, rfl⟩ := asmImm8_eq_ok_iff.mp hn
    have hn16 := hle ho
    rw [BitVec.toNat_ofNat, Nat.mod_eq_of_lt hlt] at himm
    omega
  all_goals simp at himm

theorem asmOp_legal {o : Op} {i : Instr} (h : asmOp imemWords labels pc o args = .ok i) : StaticallyLegal i := by
  obtain ⟨f, hf, rfl, ha⟩ := asmOp_eq_ok h
  exact ⟨(OperandsRead.of_asmFields hf).wellFormed, ha⟩

theorem Expands.legal (h : Expands imemWords pc labels m args is) : ∀ i ∈ is, StaticallyLegal i := by
  cases h
  case vneg8 | vneg16 | vneg64 =>
    exact List.forall_mem_cons.mpr ⟨⟨rfl, rfl⟩, List.forall_mem_singleton.mpr ⟨rfl, rfl⟩⟩
  all_goals exact List.forall_mem_singleton.mpr (asmOp_legal ‹_›)

end

end Sys2Proof.Machine
end

section
/-! PROOFS. Programs (30_encoding.md R83, R88): what holds of every accepted line holds of every instruction of an
accepted program, and lines without labels are taken one after the other, one word each. -/

namespace Sys2Proof.Machine

/-! ## Accepted programs -/

theorem assembleFrom_legal {imemWords : Nat} {labels : List (Name × Nat)} {line pc : Nat} {ls : List AsmLine}
    {is : List Instr} (h : assembleFrom imemWords labels line pc ls = .ok is) : ∀ i ∈ is, StaticallyLegal i := by
  fun_induction assembleFrom imemWords labels line pc ls generalizing is with
  | case1 =>
    cases h
    exact fun _ hi => nomatch hi
  | case2 line pc l rest hstmt ih => exact ih h
  | case6 line pc l rest name args hstmt m hm first hfirst more hmore ih =>
    cases h
    exact List.forall_mem_append.mpr ⟨(Expands.of_expand hfirst).legal, ih hmore⟩
  | case3 | case4 | case5 => cases h

theorem assemble_legal {imemWords : Nat} {ls : List AsmLine} {is : List Instr} (h : assemble imemWords ls = .ok is) :
    ∀ i ∈ is, StaticallyLegal i := by
  unfold assemble at h
  split at h
  · cases h
  · exact assembleFrom_legal h

/-! ## Lines without labels -/

theorem Mnemonic.ofName_opName (o : Op) : Mnemonic.ofName (opName o).toList = some (.op o) := by
  cases o <;> rfl

theorem collectLabels_plainLines (lines : List (Op × List Arg)) (seen : List (Name × Nat)) (line pc : Nat) :
    collectLabels line pc seen (plainLines lines) = .ok seen := by
  induction lines generalizing line pc with
  | nil => rfl
  | cons l lines ih => simpa [plainLines, collectLabels, AsmLine.size, Mnemonic.ofName_opName] using ih _ _

theorem assemble_plainLines (imemWords : Nat) (lines : List (Op × List Arg)) :
    assemble imemWords (plainLines lines) = assembleFrom imemWords [] 1 0 (plainLines lines) := by
  rw [assemble, collectLabels_plainLines]

section
variable {imemWords : Nat} {labels : List (Name × Nat)}

theorem assembleFrom_plainLines_cons_ok {line pc : Nat} {l : Op × List Arg} {lines : List (Op × List Arg)} {i : Instr}
    (h : asmOp imemWords labels pc l.1 l.2 = .ok i) :
    assembleFrom imemWords labels line pc (plainLines (l :: lines)) =
      (assembleFrom imemWords labels (line + 1) (pc + 1) (plainLines lines)).map (i :: ·) := by
  have hexpand := (Expands.op l.1 h).expand_eq_ok
  simp only [plainLines, List.map_cons, assembleFrom, Mnemonic.ofName_opName, hexpand, List.length_singleton]
  split <;> simp only [*] <;> rfl

theorem assembleFrom_plainLines_cons_error {line pc : Nat} {l : Op × List Arg} {lines : List (Op × List Arg)}
    {e : AsmError} (h : asmOp imemWords labels pc l.1 l.2 = .error e) :
    assembleFrom imemWords labels line pc (plainLines (l :: lines)) = .error (line, e) := by
  have hexpand : expand imemWords labels pc (.op l.1) l.2 = .error e := by
    simp only [expand, h]
    rfl
  simp only [plainLines, List.map_cons, assembleFrom, Mnemonic.ofName_opName, hexpand]

theorem assembleFrom_plainLines_ok : ∀ (lines : List (Op × List Arg)) (is : List Instr) (line pc : Nat),
    is.length = lines.length →
    (∀ k (h : k < lines.length) (h' : k < is.length),
      asmOp imemWords labels (pc + k) lines[k].1 lines[k].2 = .ok is[k]) →
    assembleFrom imemWords labels line pc (plainLines lines) = .ok is
  | [], [], _, _, _, _ => rfl
  | l :: lines, i :: is, line, pc, hlen, h => by
    have hrest := assembleFrom_plainLines_ok lines is (line + 1) (pc + 1) (Nat.succ.inj hlen) fun k hk hk' => by
      simpa [Nat.add_assoc, Nat.add_comm 1 k] using h (k + 1) (Nat.succ_lt_succ hk) (Nat.succ_lt_succ hk')
    have hfirst : asmOp imemWords labels pc l.1 l.2 = .ok i := h 0 (Nat.succ_pos _) (Nat.succ_pos _)
    rw [assembleFrom_plainLines_cons_ok hfirst, hrest]
    rfl

theorem assembleFrom_plainLines_error {e : AsmError} : ∀ (lines : List (Op × List Arg)) (k line pc : Nat)
    (h : k < lines.length),
    (∀ j (hj : j < k), ∃ i, asmOp imemWords labels (pc + j) lines[j].1 lines[j].2 = .ok i) →
    asmOp imemWords labels (pc + k) lines[k].1 lines[k].2 = .error e →
    assembleFrom imemWords labels line pc (plainLines lines) = .error (line + k, e)
  | l :: lines, 0, line, pc, _, _, he => assembleFrom_plainLines_cons_error he
  | l :: lines, k + 1, line, pc, hk, hbefore, he => by
    obtain ⟨i, hfirst⟩ : ∃ i, asmOp imemWords labels pc l.1 l.2 = .ok i := hbefore 0 (Nat.succ_pos k)
    have hrest := assembleFrom_plainLines_error lines k (line + 1) (pc + 1) (Nat.lt_of_succ_lt_succ hk)
      (fun j hj => by simpa [Nat.add_assoc, Nat.add_comm 1 j] using hbefore (j + 1) (Nat.succ_lt_succ hj))
      (by simpa [Nat.add_assoc, Nat.add_comm 1 k] using he)
    rw [assembleFrom_plainLines_cons_ok hfirst, hrest]
    simp [Except.map, Nat.add_assoc, Nat.add_comm 1 k]

end

/-- Settles O57: a line is accepted by the cases of its format alone, plain lines are taken by induction, and an accepted
instruction is well-formed, so its word decodes back. -/
theorem assembledProgramsNeverFaultStatically : Obligations.AssembledProgramsNeverFaultStatically := by
  refine ⟨fun imemWords pc labels o =>
      ⟨acceptsOperandForms imemWords pc labels o, refusesOperandForms imemWords pc labels o⟩,
    fun imemWords pc labels d a n hn => ?_, fun imemWords pc labels m args n hmem hn => ?_, Mnemonic.ofName_opName,
    fun imemWords lines is hlen h => ?_, fun imemWords lines k hk e hbefore he => ?_, fun imemWords ls is h i hi => ?_⟩
  · simp only [expand, asmOp_vpermq_of_gt imemWords pc labels d a hn]
    rfl
  · rcases he : expand imemWords labels pc m args with e | is
    · exact ⟨e, rfl⟩
    · exact absurd ((Expands.of_expand he).reg_le hmem) (by omega)
  · rw [assemble_plainLines]
    exact assembleFrom_plainLines_ok lines is 1 0 hlen (by simpa using h)
  · rw [assemble_plainLines, Nat.add_comm k 1]
    exact assembleFrom_plainLines_error lines k 1 0 hk (by simpa using hbefore) (by simpa using he)
  · obtain ⟨hwf, ha⟩ := assemble_legal h i hi
    exact ⟨decodeOfEncode i hwf, ha⟩

end Sys2Proof.Machine
end

section
/-! PROOFS. The pseudo-instructions (30_encoding.md R87): what each expands to and what the expansion computes. -/

namespace Sys2Proof.Machine

/-! ## What the expansions compute -/

/-- A data instruction whose checks pass completes. -/
theorem completesWriting_of_finish {i : Instr} {s : State} {d : Reg} {x : V256} {P : V256 → Prop}
    (he : exec i s = guarded i s (s.finish d x)) (hc : ChecksPass i s) (hx : P x) : CompletesWriting i s d P :=
  ⟨s.finish d x, he.trans (guarded_of_pass _ hc), by rwa [State.reg_finish_same], State.isValid_finish_same s d x,
    State.finish_pc s d x, State.writesOnly_finish s d x⟩

/-- 0xE4 selects each block for itself. -/
theorem blockSelector_identity : ∀ k, k < 4 → blockSelector 0xE4#8 k = k := by decide

theorem lanes64_identity (x : V256) : lanes64 (fun k => q64 x (blockSelector 0xE4#8 k)) = x :=
  eq_of_lanes 256 64 4 (by decide) rfl _ _ fun k hk =>
    (q64_lanes64 _ k hk).trans (by rw [blockSelector_identity k hk])

/-- `vmov` copies the whole register. -/
theorem completesWriting_vmov {d a : Reg} {s : State} (ha : s.isValid a = true) :
    CompletesWriting (.vpermq d a 0xE4#8) s d (fun r => r = s.reg a) :=
  completesWriting_of_finish rfl ⟨rfl, rfl, by simpa [sources] using ha⟩ (lanes64_identity (s.reg a))

theorem State.reg_finish_ne {s : State} {d r : Reg} (x : V256) (h : r ≠ d) : (s.finish d x).reg r = s.reg r :=
  State.reg_writeV_ne s d r x h

theorem State.isValid_finish_of_valid {s : State} {r : Reg} (d : Reg) (x : V256) (h : s.isValid r = true) :
    (s.finish d x).isValid r = true := by
  by_cases hr : r = d
  · rw [hr, State.isValid_finish_same]
  · exact (State.isValid_writeV_ne s d r x hr).trans h

/-- A register that is zeroed is not read, so no check can fail (R107). -/
theorem exec_vxor_self (t : Reg) (s : State) : exec (.vxor t t t) s = .next (s.finish t 0#256) :=
  (guarded_of_pass _ ⟨rfl, rfl, by simp [sources]⟩).trans (by rw [if_pos rfl])

/-- Once `t` is zeroed it is valid, so an instruction on it and a valid `a` passes its checks. -/
theorem checksPass_of_zeroed {i : Instr} {s : State} {t a : Reg} (hwf : i.wellFormed = true)
    (halias : operandsAlias i = false) (hsources : sources i = [t, a]) (ha : s.isValid a = true) :
    ChecksPass i (s.finish t 0#256) := by
  refine ⟨hwf, halias, ?_⟩
  rw [hsources]
  exact List.forall_mem_cons.mpr
    ⟨State.isValid_finish_same s t _, List.forall_mem_singleton.mpr (State.isValid_finish_of_valid t _ ha)⟩

theorem laneOf_zero (W w k : Nat) : laneOf w (0#W) k = 0#w := by
  simp [laneOf]

/-! ## The expansions -/

section
variable (imemWords pc : Nat) (labels : List (Name × Nat)) (d a : Reg)

theorem expand_vzero : expand imemWords labels pc .vzero [.reg d.val] = .ok [.vxor d d d] :=
  Expands.expand_eq_ok (.vzero (OperandsRead.asmOp_eq_ok (.r3 rfl d d d) rfl))

theorem expand_vmov : expand imemWords labels pc .vmov [.reg d.val, .reg a.val] = .ok [.vpermq d a 0xE4#8] :=
  Expands.expand_eq_ok (.vmov (OperandsRead.asmOp_eq_ok (.ri rfl d a rfl) rfl))

theorem expand_vperm4x16 {n : Nat} (hn : n < 256) :
    expand imemWords labels pc .vperm4x16 [.reg d.val, .reg a.val, .num n] = .ok [.vpermq d a (BitVec.ofNat 8 n)] := by
  have himm : asmImm8 .vpermq n = .ok (BitVec.ofNat 8 n) := asmImm8_eq_ok_iff.mpr ⟨hn, by simp, rfl⟩
  exact Expands.expand_eq_ok (.vperm4x16 (OperandsRead.asmOp_eq_ok (.ri rfl d a himm) rfl))

end

/-- Settles O55: each line is read as its expansion, and the subtraction is from a register that has just been zeroed. -/
theorem pseudoInstructionsComputeWhatTheyName : Obligations.PseudoInstructionsComputeWhatTheyName := by
  refine ⟨fun d a s => completesWriting_vmov, fun imemWords pc labels d a t =>
    ⟨?_, ?_, fun n hn => ?_, fun _ => rfl, ?_, fun ht => ⟨?_, ?_, ?_, fun s ha => ?_⟩⟩⟩
  · rw [expand_vzero, Except.toOption]
  · rw [expand_vmov, Except.toOption]
  · rw [expand_vperm4x16 _ _ _ _ _ hn, Except.toOption]
  · rintro m (rfl | rfl | rfl)
    all_goals exact (asmNeg_regs _ d a a).trans (if_pos rfl)
  · rw [(Expands.vneg8 d a t ht).expand_eq_ok, Except.toOption]
  · rw [(Expands.vneg16 d a t ht).expand_eq_ok, Except.toOption]
  · rw [(Expands.vneg64 d a t ht).expand_eq_ok, Except.toOption]
  · have hpass {i : Instr} (hwf halias) (hsources : sources i = [t, a]) : ChecksPass i (s.finish t 0#256) :=
      checksPass_of_zeroed hwf halias hsources ha
    have hreg_a : (s.finish t 0#256).reg a = s.reg a := State.reg_finish_ne _ ht.symm
    have hreg_t : (s.finish t 0#256).reg t = 0#256 := State.reg_finish_same s t _
    refine ⟨_, _, _, _, exec_vxor_self t s, guarded_of_pass _ (hpass rfl rfl rfl), fun k hk => ?_,
      guarded_of_pass _ (hpass rfl rfl rfl), fun k hk => ?_, guarded_of_pass _ (hpass rfl rfl rfl), fun k hk => ?_,
      fun htd => ?_⟩
    · rw [State.reg_finish_same, b8_lanes8 _ k hk, hreg_a, hreg_t, b8, laneOf_zero]
    · rw [State.reg_finish_same, h16_lanes16 _ k hk, hreg_a, hreg_t, h16, laneOf_zero]
    · rw [State.reg_finish_same, q64_lanes64 _ k hk, hreg_a, hreg_t, q64, laneOf_zero]
    · simp only [State.reg_finish_ne _ htd, hreg_t, and_self]

end Sys2Proof.Machine
end

section
/-! PROOFS. Instructions of format R3 with two sources: their words (30_encoding.md R72, R77), the checks they make (R82),
and the shape that the rules of such an instruction share. -/

namespace Sys2Proof

/-! ## The words of format R3 -/

/-- The instruction that an opcode of format R3 and its three registers name. -/
def Op.r3Instr (o : Op) (d s1 s2 : Reg) : Instr := o.build { d := d, s1 := s1, s2 := s2, imm8 := 0, imm16 := 0 }

theorem encode_r3Instr {o : Op} (hfmt : o.format = .r3) (d s1 s2 : Reg) :
    encode (o.r3Instr d s1 s2) = packR3 o.code d s1 s2 := by
  rw [Op.r3Instr, encode_build, hfmt, Format.pack]

theorem wellFormed_r3Instr (o : Op) (d s1 s2 : Reg) : (o.r3Instr d s1 s2).wellFormed = true := by
  cases o <;> rfl

theorem formatR3_r3Instr {o : Op} (hfmt : o.format = .r3) : Machine.FormatR3 o.code o.r3Instr := by
  refine ⟨fun d s1 s2 => ?_, fun w hop hbits => ?_⟩
  · rw [← encode_r3Instr hfmt]
    exact decodeOfEncode _ (wellFormed_r3Instr o d s1 s2)
  · rw [decode_eq_reservedField_iff hop, hfmt]
    exact beq_eq_false_iff_ne.mpr hbits

end Sys2Proof

namespace Sys2Proof.Machine

/-! ## The checks -/

/-- The instruction has the sources `a` and `b`, and no condition on which registers they are is unmet. -/
def ReadsTwoSources (i : Instr) (a b : Reg) : Prop := operandsAlias i = false ∧ sources i = [a, b]

/-- Two distinct registers are read and do not alias, whatever the opcode of format R3 (R26, R89, R203). -/
theorem readsTwoSources_of_ne {o : Op} (hfmt : o.format = .r3) (d : Reg) {s1 s2 : Reg} (hne : s1 ≠ s2) :
    ReadsTwoSources (o.r3Instr d s1 s2) s1 s2 := by
  cases o
  case vxor => exact ⟨rfl, if_neg hne⟩
  case vor | vand | vsign16 | vshufb => exact ⟨beq_false_of_ne hne, rfl⟩
  case vadd8 | vadd16 | vadd64 | vsub8 | vsub16 | vsub64 | vcmpgt8 | vcmpgt16 | vcmpgt64 | vhadd16 => exact ⟨rfl, rfl⟩
  all_goals cases hfmt

theorem ReadsTwoSources.checksPass {i : Instr} {s : State} {a b : Reg} (h : ReadsTwoSources i a b)
    (hwf : i.wellFormed = true) (ha : s.isValid a = true) (hb : s.isValid b = true) : ChecksPass i s := by
  obtain ⟨halias, hsources⟩ := h
  refine ⟨hwf, halias, ?_⟩
  rw [hsources]
  exact List.forall_mem_cons.mpr ⟨ha, List.forall_mem_singleton.mpr hb⟩

theorem ReadsTwoSources.guarded_of_invalid {i : Instr} {s : State} {a b : Reg} (h : ReadsTwoSources i a b)
    (hwf : i.wellFormed = true) (hv : s.isValid a = false ∨ s.isValid b = false) (effect : State) :
    guarded i s effect = .next (s.raiseAt .uninitRead i) := by
  obtain ⟨halias, hsources⟩ := h
  obtain ha | hb := hv
  · exact guarded_of_uninit effect hwf halias (by simp [hsources]) ha
  · exact guarded_of_uninit effect hwf halias (by simp [hsources]) hb

/-! ## The meaning -/

/-- The opcode has format R3, and behind the checks its instruction writes `f` of its two sources (R72, R89). -/
structure CombinesSources (o : Op) (f : V256 → V256 → V256) : Prop where
  format : o.format = .r3
  exec_eq : ∀ d s1 s2 s, exec (o.r3Instr d s1 s2) s =
    guarded (o.r3Instr d s1 s2) s (s.finish d (f (s.reg s1) (s.reg s2)))

section
variable {o : Op} {f : V256 → V256 → V256} (h : CombinesSources o f) {d s1 s2 : Reg} {s : State}
include h

theorem CombinesSources.completes (hreads : ReadsTwoSources (o.r3Instr d s1 s2) s1 s2) (h1 : s.isValid s1 = true)
    (h2 : s.isValid s2 = true) {P : V256 → Prop} (hP : P (f (s.reg s1) (s.reg s2))) :
    CompletesWriting (o.r3Instr d s1 s2) s d P :=
  completesWriting_of_finish (h.exec_eq d s1 s2 s) (hreads.checksPass (wellFormed_r3Instr o d s1 s2) h1 h2) hP

theorem CombinesSources.uninitRead (hreads : ReadsTwoSources (o.r3Instr d s1 s2) s1 s2)
    (hv : s.isValid s1 = false ∨ s.isValid s2 = false) :
    exec (o.r3Instr d s1 s2) s = .next (s.raise .uninitRead (packR3 o.code d s1 s2)) := by
  rw [h.exec_eq, hreads.guarded_of_invalid (wellFormed_r3Instr o d s1 s2) hv, State.raiseAt, encode_r3Instr h.format]

theorem CombinesSources.operandAlias (halias : operandsAlias (o.r3Instr d s1 s2) = true) :
    exec (o.r3Instr d s1 s2) s = .next (s.raise .operandAlias (packR3 o.code d s1 s2)) := by
  rw [h.exec_eq, guarded_of_alias _ (wellFormed_r3Instr o d s1 s2) halias, State.raiseAt, encode_r3Instr h.format]

variable {P : V256 → V256 → V256 → Prop} (hP : ∀ a b, P a b (f a b))
include hP

/-- An opcode with no condition on its sources follows the two-source rule. -/
theorem CombinesSources.twoSourceRule (hreads : ∀ d s1 s2, ReadsTwoSources (o.r3Instr d s1 s2) s1 s2) :
    TwoSourceRule o.code o.r3Instr P :=
  ⟨formatR3_r3Instr h.format, fun d s1 s2 _ h1 h2 => h.completes (hreads d s1 s2) h1 h2 (hP _ _),
    fun d s1 s2 _ hv => h.uninitRead (hreads d s1 s2) hv⟩

/-- An opcode that refuses one register as both sources follows the distinct-source rule. -/
theorem CombinesSources.distinctSourceRule (halias : ∀ d r, operandsAlias (o.r3Instr d r r) = true) :
    DistinctSourceRule o.code o.r3Instr P :=
  ⟨formatR3_r3Instr h.format,
    fun d _ _ _ hne h1 h2 => h.completes (readsTwoSources_of_ne h.format d hne) h1 h2 (hP _ _),
    fun d r _ => h.operandAlias (halias d r),
    fun d _ _ _ hne hv => h.uninitRead (readsTwoSources_of_ne h.format d hne) hv⟩

end

end Sys2Proof.Machine
end

section
/-! PROOFS. Lane-wise arithmetic, bitwise and compare instructions (40_lanewise.md R100 to R112). -/

namespace Sys2Proof.Machine

/-! ## Lane-wise instructions -/

/-- `g` applied lane by lane to the n lanes of width w. -/
def lanewise (w n : Nat) (g : BitVec w → BitVec w → BitVec w) (a b : V256) : V256 :=
  lanesOf 256 w (fun k => g (laneOf w a k) (laneOf w b k)) n

theorem laneOf_lanewise {w n : Nat} (hn : w * n = 256) (g : BitVec w → BitVec w → BitVec w) (a b : V256) {k : Nat}
    (hk : k < n) : laneOf w (lanewise w n g a b) k = g (laneOf w a k) (laneOf w b k) :=
  laneOf_lanesOf 256 w _ n k hk hn.le

/-- The rule of a lane-wise opcode with no condition on its sources. -/
theorem CombinesSources.lanewiseRule {o : Op} {w n : Nat} {g : BitVec w → BitVec w → BitVec w}
    (h : CombinesSources o (lanewise w n g)) (hn : w * n = 256)
    (hreads : ∀ d s1 s2, ReadsTwoSources (o.r3Instr d s1 s2) s1 s2) :
    TwoSourceRule o.code o.r3Instr (fun a b r => ∀ k, k < n → laneOf w r k = g (laneOf w a k) (laneOf w b k)) :=
  h.twoSourceRule (fun a b _ hk => laneOf_lanewise hn g a b hk) hreads

/-- The rule of a compare, its mask of set bits written as a number. -/
theorem CombinesSources.compareRule {o : Op} {w n : Nat} {ones : BitVec w} (hones : BitVec.allOnes w = ones)
    (h : CombinesSources o (lanewise w n gtMask)) (hn : w * n = 256)
    (hreads : ∀ d s1 s2, ReadsTwoSources (o.r3Instr d s1 s2) s1 s2) :
    TwoSourceRule o.code o.r3Instr
      (fun a b r => ∀ k, k < n → laneOf w r k = if (laneOf w b k).toInt < (laneOf w a k).toInt then ones else 0#w) := by
  simpa only [gtMask, hones, gt_iff_lt] using h.lanewiseRule hn hreads

/-! ## What each instruction combines its sources by -/

theorem combinesSources_vadd8 : CombinesSources .vadd8 (lanewise 8 32 (· + ·)) := ⟨rfl, fun _ _ _ _ => rfl⟩
theorem combinesSources_vadd16 : CombinesSources .vadd16 (lanewise 16 16 (· + ·)) := ⟨rfl, fun _ _ _ _ => rfl⟩
theorem combinesSources_vadd64 : CombinesSources .vadd64 (lanewise 64 4 (· + ·)) := ⟨rfl, fun _ _ _ _ => rfl⟩
theorem combinesSources_vsub8 : CombinesSources .vsub8 (lanewise 8 32 (· - ·)) := ⟨rfl, fun _ _ _ _ => rfl⟩
theorem combinesSources_vsub16 : CombinesSources .vsub16 (lanewise 16 16 (· - ·)) := ⟨rfl, fun _ _ _ _ => rfl⟩
theorem combinesSources_vsub64 : CombinesSources .vsub64 (lanewise 64 4 (· - ·)) := ⟨rfl, fun _ _ _ _ => rfl⟩
theorem combinesSources_vor : CombinesSources .vor (· ||| ·) := ⟨rfl, fun _ _ _ _ => rfl⟩
theorem combinesSources_vand : CombinesSources .vand (· &&& ·) := ⟨rfl, fun _ _ _ _ => rfl⟩
theorem combinesSources_vcmpgt8 : CombinesSources .vcmpgt8 (lanewise 8 32 gtMask) := ⟨rfl, fun _ _ _ _ => rfl⟩
theorem combinesSources_vcmpgt16 : CombinesSources .vcmpgt16 (lanewise 16 16 gtMask) := ⟨rfl, fun _ _ _ _ => rfl⟩
theorem combinesSources_vcmpgt64 : CombinesSources .vcmpgt64 (lanewise 64 4 gtMask) := ⟨rfl, fun _ _ _ _ => rfl⟩

theorem exec_vxor (d s1 s2 : Reg) (s : State) : exec (.vxor d s1 s2) s =
    guarded (.vxor d s1 s2) s (s.finish d (if s1 = s2 then 0#256 else s.reg s1 ^^^ s.reg s2)) := rfl

/-- The zeroing form gives what the exclusive OR of the register with itself would (R107). -/
theorem combinesSources_vxor : CombinesSources .vxor (· ^^^ ·) := by
  refine ⟨rfl, fun d s1 s2 s => ?_⟩
  have hvalue : (if s1 = s2 then 0#256 else s.reg s1 ^^^ s.reg s2) = s.reg s1 ^^^ s.reg s2 := by
    split_ifs with heq
    · rw [heq, BitVec.xor_self]
    · rfl
  exact (exec_vxor d s1 s2 s).trans (by rw [hvalue]; rfl)

/-! ## The obligations -/

/-- Settles O8: each result lane is the sum of the source lanes. -/
theorem addsAreLanewise : Obligations.AddsAreLanewise :=
  ⟨combinesSources_vadd8.lanewiseRule rfl fun _ _ _ => ⟨rfl, rfl⟩,
    combinesSources_vadd16.lanewiseRule rfl fun _ _ _ => ⟨rfl, rfl⟩,
    combinesSources_vadd64.lanewiseRule rfl fun _ _ _ => ⟨rfl, rfl⟩⟩

/-- Settles O9: each result lane is the difference of the source lanes. -/
theorem subtractsAreLanewise : Obligations.SubtractsAreLanewise :=
  ⟨combinesSources_vsub8.lanewiseRule rfl fun _ _ _ => ⟨rfl, rfl⟩,
    combinesSources_vsub16.lanewiseRule rfl fun _ _ _ => ⟨rfl, rfl⟩,
    combinesSources_vsub64.lanewiseRule rfl fun _ _ _ => ⟨rfl, rfl⟩⟩

/-- Settles O10: distinct sources are both checked and read, and a register with itself has no source to check. -/
theorem xorAndItsZeroingForm : Obligations.XorAndItsZeroingForm := by
  refine ⟨formatR3_r3Instr (o := .vxor) rfl, fun d s1 s2 s hne h1 h2 => ?_, fun d r s => ?_, fun d s1 s2 s hne hv => ?_⟩
  · exact combinesSources_vxor.completes (readsTwoSources_of_ne rfl d hne) h1 h2 fun _ _ => BitVec.getLsbD_xor
  · exact completesWriting_of_finish (exec_vxor d r r s) ⟨rfl, rfl, by simp [sources]⟩ (if_pos rfl)
  · exact combinesSources_vxor.uninitRead (readsTwoSources_of_ne rfl d hne) hv

/-- Settles O11: all bits of distinct sources are combined, and a register with itself aliases. -/
theorem orAndRequireDistinctSources : Obligations.OrAndRequireDistinctSources :=
  ⟨combinesSources_vor.distinctSourceRule (fun _ _ _ _ => BitVec.getLsbD_or) fun _ r => beq_self_eq_true r,
    combinesSources_vand.distinctSourceRule (fun _ _ _ _ => BitVec.getLsbD_and) fun _ r => beq_self_eq_true r⟩

/-- Settles O12: each result lane is the mask of the signed compare of the source lanes. -/
theorem comparesAreSignedLaneMasks : Obligations.ComparesAreSignedLaneMasks :=
  ⟨combinesSources_vcmpgt8.compareRule (o := .vcmpgt8) rfl rfl fun _ _ _ => ⟨rfl, rfl⟩,
    combinesSources_vcmpgt16.compareRule (o := .vcmpgt16) rfl rfl fun _ _ _ => ⟨rfl, rfl⟩,
    combinesSources_vcmpgt64.compareRule (o := .vcmpgt64) rfl rfl fun _ _ _ => ⟨rfl, rfl⟩⟩

end Sys2Proof.Machine
end

section
/-! PROOFS. Horizontal add and conditional negation (41_hadd_sign.md R130 to R133). -/

namespace Sys2Proof.Machine

/-! ## The horizontal add -/

/-- The horizontal add of two vectors, all 16 lanes (R130). -/
def haddV (a b : V256) : V256 := lanes16 (haddLane a b)

section
variable (a b : V256) (h : Nat) {j : Nat} (hj : j < 4)
include hj

theorem haddLane_first : haddLane a b (8 * h + j) = pairSum a (8 * h + 2 * j) := by
  have hdiv : (8 * h + j) / 8 = h := by omega
  have hmod : (8 * h + j) % 8 = j := by omega
  rw [haddLane, hdiv, hmod, if_pos hj]

theorem haddLane_second : haddLane a b (8 * h + 4 + j) = pairSum b (8 * h + 2 * j) := by
  have hdiv : (8 * h + 4 + j) / 8 = h := by omega
  have hmod : (8 * h + 4 + j) % 8 = 4 + j := by omega
  rw [haddLane, hdiv, hmod, if_neg (by omega), Nat.add_sub_cancel_left]

end

theorem haddV_layout (a b : V256) {h j : Nat} (hh : h < 2) (hj : j < 4) :
    h16 (haddV a b) (8 * h + j) = pairSum a (8 * h + 2 * j) ∧
    h16 (haddV a b) (8 * h + 4 + j) = pairSum b (8 * h + 2 * j) :=
  ⟨(h16_lanes16 _ _ (by omega)).trans (haddLane_first a b h hj),
    (h16_lanes16 _ _ (by omega)).trans (haddLane_second a b h hj)⟩

theorem combinesSources_vhadd16 : CombinesSources .vhadd16 haddV := ⟨rfl, fun _ _ _ _ => rfl⟩

/-! ## The sign of a lane -/

theorem half_sign_cases (x : Half) : 0 < x.toInt ∨ x = 0#16 ∨ x.toInt < 0 := by
  obtain hneg | hzero | hpos := lt_trichotomy x.toInt 0
  · exact .inr (.inr hneg)
  · exact .inr (.inl (BitVec.eq_of_toInt_eq hzero))
  · exact .inl hpos

theorem half_ne_zero_of_neg {x : Half} (hx : x.toInt < 0) : x ≠ 0#16 := by
  rintro rfl
  exact lt_irrefl _ hx

section
variable (x : Half) {sel : Half}

theorem signSelect_of_pos (hs : 0 < sel.toInt) : signSelect x sel = x := if_pos hs

theorem signSelect_zero : signSelect x 0#16 = 0#16 := rfl

theorem signSelect_of_neg (hs : sel.toInt < 0) : signSelect x sel = 0#16 - x := by
  rw [signSelect, if_neg hs.not_gt, if_neg (half_ne_zero_of_neg hs)]

theorem signum_of_pos (hs : 0 < sel.toInt) : signum sel = 1#16 := if_pos hs

theorem signum_zero : signum 0#16 = 0#16 := rfl

theorem signum_of_neg (hs : sel.toInt < 0) : signum sel = -1#16 := by
  rw [signum, if_neg hs.not_gt, if_neg (half_ne_zero_of_neg hs)]
  rfl

end

/-- The product with 1, 0 or −1 keeps, zeroes or negates (R132). -/
theorem mul_signum (x sel : Half) : x * signum sel = signSelect x sel := by
  obtain hpos | rfl | hneg := half_sign_cases sel
  · rw [signum_of_pos hpos, signSelect_of_pos x hpos, BitVec.mul_one]
  · rw [signum_zero, signSelect_zero, BitVec.mul_zero]
  · rw [signum_of_neg hneg, signSelect_of_neg x hneg, BitVec.mul_neg, BitVec.mul_one, BitVec.zero_sub]

theorem combinesSources_vsign16 : CombinesSources .vsign16 (lanewise 16 16 signSelect) := ⟨rfl, fun _ _ _ _ => rfl⟩

/-! ## The obligations -/

/-- Settles O13: the quotient and the remainder of the lane number by 8 give the half and the place in it. -/
theorem horizontalAddLayout : Obligations.HorizontalAddLayout :=
  combinesSources_vhadd16.twoSourceRule (fun a b _ _ hh hj => haddV_layout a b hh hj) fun _ _ _ => ⟨rfl, rfl⟩

/-- Settles O14: each result lane is the selection by the sign of the selector's lane. -/
theorem signSelectsKeepZeroOrNegate : Obligations.SignSelectsKeepZeroOrNegate := by
  refine combinesSources_vsign16.distinctSourceRule (fun a b k hk => ?_) fun _ r => beq_self_eq_true r
  have hlane : h16 (lanewise 16 16 signSelect a b) k = signSelect (h16 a k) (h16 b k) :=
    laneOf_lanewise rfl signSelect a b hk
  rw [hlane]
  refine ⟨signSelect_of_pos _, fun hzero => ?_, signSelect_of_neg _⟩
  rw [hzero, signSelect_zero]

/-- Settles O15: the signum of each case, and its product by the three cases. -/
theorem signumFormAgrees : Obligations.SignumFormAgrees := by
  refine ⟨fun x => ⟨signum_of_pos, fun hzero => ?_, fun hneg => ?_⟩, mul_signum⟩
  · rw [hzero, signum_zero]
  · rw [signum_of_neg hneg]
    rfl

end Sys2Proof.Machine
end

section
/-! PROOFS. Byte shuffle and block permutation (42_shuffle_permute.md R140 to R143). -/

namespace Sys2Proof

/-! ## The words of format RI -/

/-- The instruction that an opcode of format RI, its two registers and its immediate name. -/
def Op.riInstr (o : Op) (d s1 : Reg) (imm8 : BitVec 8) : Instr :=
  o.build { d := d, s1 := s1, s2 := 0, imm8 := imm8, imm16 := 0 }

theorem encode_riInstr {o : Op} (hfmt : o.format = .ri) (d s1 : Reg) (imm8 : BitVec 8) :
    encode (o.riInstr d s1 imm8) = packRI o.code d s1 imm8 := by
  rw [Op.riInstr, encode_build, hfmt, Format.pack]

theorem formatRI_riInstr {o : Op} (hfmt : o.format = .ri) {legal : BitVec 8 → Prop}
    (hwf : ∀ d s1 imm8, legal imm8 → (o.riInstr d s1 imm8).wellFormed = true) :
    Machine.FormatRI o.code o.riInstr legal := by
  refine ⟨fun d s1 imm8 hlegal => ?_, fun w hop hbits => ?_⟩
  · rw [← encode_riInstr hfmt]
    exact decodeOfEncode _ (hwf d s1 imm8 hlegal)
  · rw [decode_eq_reservedField_iff hop, hfmt]
    exact beq_eq_false_iff_ne.mpr hbits

end Sys2Proof

namespace Sys2Proof.Machine

/-! ## The byte shuffle -/

/-- The shuffle of a table under a control vector, all 32 bytes (R140). -/
def shuffleV (table control : V256) : V256 := lanes8 (shuffleByte table control)

theorem combinesSources_vshufb : CombinesSources .vshufb shuffleV := ⟨rfl, fun _ _ _ _ => rfl⟩

section
variable (table control : V256) {i : Nat}

theorem shuffleByte_of_set (hbit : (b8 control i).getLsbD 7 = true) : shuffleByte table control i = 0#8 := if_pos hbit

/-- The low four bits of the control byte are its remainder by 16. -/
theorem shuffleByte_of_clear (hbit : (b8 control i).getLsbD 7 = false) :
    shuffleByte table control i = b8 table (16 * (i / 16) + (b8 control i).toNat % 16) := by
  rw [shuffleByte, if_neg (Bool.eq_false_iff.mp hbit), BitVec.extractLsb'_toNat, Nat.shiftRight_zero]

end

/-! ## The block permutation -/

theorem exec_vpermq (d s1 : Reg) (imm8 : BitVec 8) (s : State) : exec (.vpermq d s1 imm8) s =
    guarded (.vpermq d s1 imm8) s (s.finish d (lanes64 fun k => q64 (s.reg s1) (blockSelector imm8 k))) := rfl

/-- A two-bit field of the immediate is its base-4 digit. -/
theorem blockSelector_eq_digit (imm8 : BitVec 8) (k : Nat) : blockSelector imm8 k = imm8.toNat / 4 ^ k % 4 := by
  rw [blockSelector, BitVec.extractLsb'_toNat, Nat.shiftRight_eq_div_pow, Nat.pow_mul]

theorem completesWriting_vpermq (d : Reg) {s1 : Reg} (imm8 : BitVec 8) {s : State} (h1 : s.isValid s1 = true) :
    CompletesWriting (.vpermq d s1 imm8) s d
      (fun r => ∀ k, k < 4 → q64 r k = q64 (s.reg s1) (imm8.toNat / 4 ^ k % 4)) :=
  completesWriting_of_finish (exec_vpermq d s1 imm8 s) ⟨rfl, rfl, by simpa [sources] using h1⟩ fun k hk => by
    rw [q64_lanes64 _ k hk, blockSelector_eq_digit]

/-- Equal blocks hold equal groups of four 16-bit lanes. -/
theorem h16_eq_of_q64_eq {x y : V256} {k m j : Nat} (hq : q64 x k = q64 y m) (hj : j < 4) :
    h16 x (4 * k + j) = h16 y (4 * m + j) :=
  calc h16 x (4 * k + j) = laneOf 16 (q64 x k) j := (laneOf_laneOf 64 16 4 rfl x k hj).symm
    _ = laneOf 16 (q64 y m) j := by rw [hq]
    _ = h16 y (4 * m + j) := laneOf_laneOf 64 16 4 rfl y m hj

/-! ## The obligations -/

/-- Settles O16: byte `16 * h + i` of the control lies in half h, and its high bit chooses between zero and a byte of that
half. -/
theorem shuffleStaysInItsHalf : Obligations.ShuffleStaysInItsHalf := by
  refine combinesSources_vshufb.distinctSourceRule (fun a b h i hh hi => ?_) fun _ r => beq_self_eq_true r
  have hbyte : b8 (shuffleV a b) (16 * h + i) = shuffleByte a b (16 * h + i) := b8_lanes8 _ _ (by omega)
  have hhalf : (16 * h + i) / 16 = h := by omega
  rw [hbyte]
  refine ⟨shuffleByte_of_set a b, fun hbit => ?_⟩
  rw [shuffleByte_of_clear a b hbit, hhalf]

/-- Settles O17: each result block is the source block that a digit of the immediate selects. -/
theorem permuteSelectsBlocks : Obligations.PermuteSelectsBlocks := by
  refine ⟨formatRI_riInstr (o := .vpermq) rfl fun _ _ _ _ => rfl,
    fun d _ imm8 _ h1 => completesWriting_vpermq d imm8 h1, fun d s1 imm8 s h1 => ?_⟩
  exact guarded_of_uninit _ rfl rfl (List.mem_singleton.mpr rfl) h1

/-- Settles O18: each block moves whole, so its four 16-bit lanes move with it in order. -/
theorem permuteMovesGroupsOfFourLanes : Obligations.PermuteMovesGroupsOfFourLanes := by
  intro d s1 imm8 s h1
  obtain ⟨t, hexec, hblocks, -⟩ := completesWriting_vpermq d imm8 h1
  exact ⟨t, hexec, fun k j hk hj => h16_eq_of_q64_eq (hblocks k hk) hj⟩

end Sys2Proof.Machine
end

section
/-! PROOFS. Instructions with one source: the words of format R2 (30_encoding.md R72, R77), the checks they make (R82), and
the shapes that their rules share. -/

namespace Sys2Proof

/-! ## Words -/

/-- The instruction that an opcode of format R2 and its two registers name. -/
def Op.r2Instr (o : Op) (d s1 : Reg) : Instr := o.build { d := d, s1 := s1, s2 := 0, imm8 := 0, imm16 := 0 }

theorem encode_r2Instr {o : Op} (hfmt : o.format = .r2) (d s1 : Reg) :
    encode (o.r2Instr d s1) = packR2 o.code d s1 := by
  rw [Op.r2Instr, encode_build, hfmt, Format.pack]

theorem wellFormed_r2Instr {o : Op} (hfmt : o.format = .r2) (d s1 : Reg) : (o.r2Instr d s1).wellFormed = true := by
  cases o
  case vabs16 | vbcst128 | vprng => rfl
  all_goals cases hfmt

theorem formatR2_r2Instr {o : Op} (hfmt : o.format = .r2) : Machine.FormatR2 o.code o.r2Instr := by
  refine ⟨fun d s1 => ?_, fun w hop hbits => ?_⟩
  · rw [← encode_r2Instr hfmt]
    exact decodeOfEncode _ (wellFormed_r2Instr hfmt d s1)
  · rw [decode_eq_reservedField_iff hop, hfmt]
    exact beq_eq_false_iff_ne.mpr hbits

/-- The word of an ill-formed instruction has its opcode and zeros where they must be, so the shift range is what it
fails (R80, R82). -/
theorem decode_encode_of_illFormed {i : Instr} (hwf : i.wellFormed = false) : decode (encode i) = .error .immRange :=
  decode_eq_immRange_iff.mpr ⟨i.op, opField_encode i, reservedClear_encode i, by rwa [build_fieldsOf_encode]⟩

end Sys2Proof

namespace Sys2Proof.Machine

/-! ## The checks -/

/-- The instruction has the one source `a`, and no condition on which registers its operands are is unmet. -/
def ReadsOneSource (i : Instr) (a : Reg) : Prop := operandsAlias i = false ∧ sources i = [a]

section
variable {i : Instr} {s : State} {a : Reg} (h : ReadsOneSource i a) (hwf : i.wellFormed = true)
include h hwf

theorem ReadsOneSource.checksPass (ha : s.isValid a = true) : ChecksPass i s := by
  obtain ⟨halias, hsources⟩ := h
  refine ⟨hwf, halias, ?_⟩
  rw [hsources]
  exact List.forall_mem_singleton.mpr ha

theorem ReadsOneSource.guarded_of_invalid (ha : s.isValid a = false) (effect : State) :
    guarded i s effect = .next (s.raiseAt .uninitRead i) := by
  obtain ⟨halias, hsources⟩ := h
  exact guarded_of_uninit effect hwf halias (by rw [hsources]; exact List.mem_singleton_self a) ha

end

/-! ## Format R2 -/

/-- The opcode has format R2, and behind the checks its instruction writes `f` of its one source (R72, R89). -/
structure MapsSource (o : Op) (f : V256 → V256) : Prop where
  format : o.format = .r2
  reads : ∀ d s1, ReadsOneSource (o.r2Instr d s1) s1
  exec_eq : ∀ d s1 s, exec (o.r2Instr d s1) s = guarded (o.r2Instr d s1) s (s.finish d (f (s.reg s1)))

theorem MapsSource.oneSourceRule {o : Op} {f : V256 → V256} (h : MapsSource o f) {P : V256 → V256 → Prop}
    (hP : ∀ a, P a (f a)) : OneSourceRule o.code o.r2Instr P := by
  have hwf := wellFormed_r2Instr h.format
  refine ⟨formatR2_r2Instr h.format, fun d s1 s h1 => ?_, fun d s1 s h1 => ?_⟩
  · exact completesWriting_of_finish (h.exec_eq d s1 s) ((h.reads d s1).checksPass (hwf d s1) h1) (hP _)
  · rw [h.exec_eq, (h.reads d s1).guarded_of_invalid (hwf d s1) h1, State.raiseAt, encode_r2Instr h.format]

/-! ## Shifts -/

/-- The opcode is a shift, and behind the checks its instruction writes `f` of the amount and its one source (R89, R150). -/
structure ShiftsSource (o : Op) (f : Nat → V256 → V256) : Prop where
  isShift : o = .vsll16 ∨ o = .vsrl16
  exec_eq : ∀ d s1 imm8 s, exec (o.riInstr d s1 imm8) s =
    guarded (o.riInstr d s1 imm8) s (s.finish d (f imm8.toNat (s.reg s1)))

section
variable {o : Op} {f : Nat → V256 → V256} (h : ShiftsSource o f) (d s1 : Reg) (imm8 : BitVec 8)
include h

theorem ShiftsSource.format : o.format = .ri := by
  obtain rfl | rfl := h.isShift
  all_goals rfl

theorem ShiftsSource.reads : ReadsOneSource (o.riInstr d s1 imm8) s1 := by
  obtain rfl | rfl := h.isShift
  all_goals exact ⟨rfl, rfl⟩

theorem ShiftsSource.illFormed_iff : (o.riInstr d s1 imm8).wellFormed = false ↔ 16 < imm8.toNat :=
  (wellFormed_build_eq_false_iff o _).trans (and_iff_right h.isShift)

theorem ShiftsSource.wellFormed (himm : imm8.toNat ≤ 16) : (o.riInstr d s1 imm8).wellFormed = true :=
  Bool.eq_true_of_not_eq_false fun hwf => himm.not_gt ((h.illFormed_iff d s1 imm8).mp hwf)

theorem ShiftsSource.shiftRule {P : Nat → V256 → V256 → Prop} (hP : ∀ n a, P n a (f n a)) :
    ShiftRule o.code o.riInstr P := by
  refine ⟨formatRI_riInstr h.format h.wellFormed, fun d s1 imm8 s himm h1 => ?_, fun d s1 imm8 s himm => ?_,
    fun d s1 imm8 s himm h1 => ?_⟩
  · exact completesWriting_of_finish (h.exec_eq d s1 imm8 s)
      ((h.reads d s1 imm8).checksPass (h.wellFormed d s1 imm8 himm) h1) (hP _ _)
  · have hwf := (h.illFormed_iff d s1 imm8).mpr himm
    rw [h.exec_eq, guarded_of_immRange _ hwf, State.raiseAt, ← encode_riInstr h.format]
    exact ⟨decode_encode_of_illFormed hwf, rfl⟩
  · rw [h.exec_eq, (h.reads d s1 imm8).guarded_of_invalid (h.wellFormed d s1 imm8 himm) h1, State.raiseAt,
      encode_riInstr h.format]

end

end Sys2Proof.Machine
end

section
/-! PROOFS. Shifts, absolute value and broadcast (43_shift_abs_broadcast.md R150 to R155). -/

namespace Sys2Proof.Machine

/-! ## What each instruction makes of its source -/

/-- `g` applied to each of the 16 lanes. -/
def mapHalves (g : Half → Half) (a : V256) : V256 := lanes16 fun k => g (h16 a k)

theorem h16_mapHalves (g : Half → Half) (a : V256) {k : Nat} (hk : k < 16) : h16 (mapHalves g a) k = g (h16 a k) :=
  h16_lanes16 _ k hk

theorem shiftsSource_vsll16 : ShiftsSource .vsll16 fun n => mapHalves (· <<< n) := ⟨.inl rfl, fun _ _ _ _ => rfl⟩
theorem shiftsSource_vsrl16 : ShiftsSource .vsrl16 fun n => mapHalves (· >>> n) := ⟨.inr rfl, fun _ _ _ _ => rfl⟩

theorem mapsSource_vabs16 : MapsSource .vabs16 (mapHalves absLane) := ⟨rfl, fun _ _ => ⟨rfl, rfl⟩, fun _ _ _ => rfl⟩

theorem mapsSource_vbcst128 : MapsSource .vbcst128 fun a => joinHalves (lo128 a) (lo128 a) :=
  ⟨rfl, fun _ _ => ⟨rfl, rfl⟩, fun _ _ _ => rfl⟩

/-! ## The absolute value of a lane -/

section
variable {x : Half}

/-- The mask of a negative lane is all ones: `x >>s 15` is −1 (R153). -/
theorem sshiftRight_of_neg (hx : x.toInt < 0) : x.sshiftRight 15 = BitVec.allOnes 16 := by
  apply BitVec.eq_of_toInt_eq
  have hlo := BitVec.le_toInt x
  rw [BitVec.toInt_sshiftRight, Int.shiftRight_eq_div_pow, BitVec.toInt_allOnes]
  omega

theorem sshiftRight_of_nonneg (hx : 0 ≤ x.toInt) : x.sshiftRight 15 = 0#16 := by
  apply BitVec.eq_of_toInt_eq
  have hhi := BitVec.toInt_lt (x := x)
  rw [BitVec.toInt_sshiftRight, Int.shiftRight_eq_div_pow, BitVec.toInt_zero]
  omega

theorem absLane_of_nonneg (hx : 0 ≤ x.toInt) : absLane x = x := by
  rw [absLane, sshiftRight_of_nonneg hx, BitVec.xor_zero, BitVec.sub_zero]

/-- The complement and the subtraction of −1 negate (R153). -/
theorem absLane_of_neg (hx : x.toInt < 0) : absLane x = 0#16 - x := by
  rw [absLane, sshiftRight_of_neg hx, BitVec.xor_allOnes, BitVec.zero_sub, BitVec.neg_eq_not_add,
    ← BitVec.neg_one_eq_allOnes, sub_neg_eq_add]

end

theorem absLane_eq_ite (x : Half) : absLane x = if x.toInt < 0 then 0#16 - x else x := by
  split_ifs with hx
  · exact absLane_of_neg hx
  · exact absLane_of_nonneg (not_lt.mp hx)

/-- Only the least value has no negation in range, and so stays negative (R154). -/
theorem absLane_neg_iff (x : Half) : (absLane x).toInt < 0 ↔ x = 0x8000#16 := by
  constructor
  · contrapose!
    intro hx
    obtain hneg | hnonneg := lt_or_ge x.toInt 0
    · rw [absLane_of_neg hneg, BitVec.zero_sub, BitVec.toInt_neg_of_ne_intMin hx]
      exact Int.neg_nonneg_of_nonpos hneg.le
    · rwa [absLane_of_nonneg hnonneg]
  · rintro rfl
    decide

/-- The least value is its own absolute value, and any other absolute value is not negative. -/
theorem absLane_absLane (x : Half) : absLane (absLane x) = absLane x := by
  obtain hneg | hnonneg := lt_or_ge (absLane x).toInt 0
  · rw [(absLane_neg_iff x).mp hneg]
    rfl
  · exact absLane_of_nonneg hnonneg

/-! ## The obligations -/

/-- Settles O19: a left shift multiplies each lane mod 2^16, and a logical right shift divides it. -/
theorem shiftsFillWithZeros : Obligations.ShiftsFillWithZeros := by
  refine ⟨shiftsSource_vsll16.shiftRule fun n a k hk => ?_, shiftsSource_vsrl16.shiftRule fun n a k hk => ?_⟩
  · rw [h16_mapHalves _ a hk, BitVec.toNat_shiftLeft, Nat.shiftLeft_eq]
  · rw [h16_mapHalves _ a hk, BitVec.toNat_ushiftRight, Nat.shiftRight_eq_div_pow]

/-- Settles O20: the mask of a lane is 0 or −1 by its sign, and only the least value stays negative. -/
theorem absoluteValueWrapsAtTheMinimum : Obligations.AbsoluteValueWrapsAtTheMinimum := by
  refine ⟨mapsSource_vabs16.oneSourceRule fun a k hk => ?_, absLane_eq_ite, absLane_eq_ite, absLane_absLane⟩
  rw [h16_mapHalves absLane a hk]
  exact ⟨absLane_eq_ite _, absLane_neg_iff _⟩

/-- Settles O21: both halves of the result are the low half of the source. -/
theorem broadcastCopiesTheLowHalf : Obligations.BroadcastCopiesTheLowHalf :=
  mapsSource_vbcst128.oneSourceRule fun _ => ⟨lo128_joinHalves _ _, hi128_joinHalves _ _⟩

end Sys2Proof.Machine
end

section
/-! PROOFS. The PRNG state update and VPRNG (44_prng.md R160 to R170). -/

namespace Sys2Proof.Machine

/-! ## The bytes of a round (R165 to R168) -/

section
variable {r c : Nat}

theorem stateByte_ofStateArray (f : Nat → Nat → Byte) (hr : r < 4) (hc : c < 4) :
    stateByte (ofStateArray f) r c = f r c := by
  have hrow : (4 * c + r) % 4 = r := by omega
  have hcol : (4 * c + r) / 4 = c := by omega
  rw [stateByte, ofStateArray, laneOf_lanesOf 128 8 _ 16 _ (by omega) (by decide), hrow, hcol]

theorem stateByte_xor (x y : V128) : stateByte (x ^^^ y) r c = stateByte x r c ^^^ stateByte y r c :=
  BitVec.extractLsb'_xor

theorem stateByte_shiftRows (x : V128) (hr : r < 4) (hc : c < 4) :
    stateByte (shiftRows x) r c = stateByte x r ((c + r) % 4) :=
  stateByte_ofStateArray _ hr hc

theorem stateByte_subBytes (x : V128) (hr : r < 4) (hc : c < 4) :
    stateByte (subBytes x) r c = sbox (stateByte x r c) :=
  stateByte_ofStateArray _ hr hc

theorem stateByte_mixColumns (x : V128) (hr : r < 4) (hc : c < 4) :
    stateByte (mixColumns x) r c = mixRow (fun q => stateByte x q c) r :=
  stateByte_ofStateArray _ hr hc

/-- MixColumns reads the four rows of its column. -/
theorem mixRow_congr {a a' : Nat → Byte} (h : ∀ q, q < 4 → a q = a' q) (hr : r < 4) : mixRow a r = mixRow a' r := by
  have hmod (n : Nat) : n % 4 < 4 := Nat.mod_lt n (by decide)
  rw [mixRow, mixRow, h r hr, h _ (hmod (r + 1)), h _ (hmod (r + 2)), h _ (hmod (r + 3))]

/-- A byte of a round: the steps of R165 one after the other. -/
theorem stateByte_aesenc (x key : V128) (hr : r < 4) (hc : c < 4) :
    stateByte (aesenc x key) r c = mixRow (fun q => sbox (stateByte x q ((c + q) % 4))) r ^^^ stateByte key r c := by
  have hcolumn : ∀ q, q < 4 → stateByte (subBytes (shiftRows x)) q c = sbox (stateByte x q ((c + q) % 4)) :=
    fun q hq => by rw [stateByte_subBytes _ hq hc, stateByte_shiftRows _ hq hc]
  rw [aesenc, stateByte_xor, stateByte_mixColumns _ hr hc, mixRow_congr hcolumn hr]

end

/-- Settles O24: a byte of the sum is the sum of the bytes, and each step places its bytes by row and column. -/
theorem aesRoundByteByByte : Obligations.AesRoundByteByByte :=
  ⟨fun x key _ _ hr hc => stateByte_aesenc x key hr hc, fun _ => ⟨rfl, rfl⟩, by decide +kernel⟩

/-! ## The S-box (R167) -/

theorem gfInv_zero : gfInv 0#8 = 0#8 := by decide +kernel

/-- The power 254 is the inverse of each of the 255 nonzero bytes, each evaluated. -/
theorem gfMul_gfInv : ∀ x : Byte, x ≠ 0#8 → gfMul x (gfInv x) = 1#8 := by decide +kernel

/-- Bit i of a byte rotated right is the bit that many places above, mod 8. -/
theorem getLsbD_rotateRight_byte (y : Byte) {n i : Nat} (hn : n < 8) (hi : i < 8) :
    (y.rotateRight n).getLsbD i = y.getLsbD ((i + n) % 8) := by
  rw [BitVec.getLsbD_rotateRight, Nat.mod_eq_of_lt hn]
  by_cases hwrap : i < 8 - n
  · have hindex : n + i = (i + n) % 8 := by omega
    rw [decide_eq_true hwrap, cond_true, hindex]
  · have hindex : i - (8 - n) = (i + n) % 8 := by omega
    rw [decide_eq_false hwrap, cond_false, decide_eq_true hi, Bool.true_and, hindex]

theorem getLsbD_sboxAffine (y : Byte) {i : Nat} (hi : i < 8) :
    (sboxAffine y).getLsbD i =
      (y.getLsbD i ^^ y.getLsbD ((i + 4) % 8) ^^ y.getLsbD ((i + 5) % 8) ^^ y.getLsbD ((i + 6) % 8) ^^
        y.getLsbD ((i + 7) % 8) ^^ (0x63#8).getLsbD i) := by
  have hrotate {n : Nat} (hn : n < 8) := getLsbD_rotateRight_byte y hn hi
  simp only [sboxAffine, BitVec.getLsbD_xor, hrotate (n := 4) (by decide), hrotate (n := 5) (by decide),
    hrotate (n := 6) (by decide), hrotate (n := 7) (by decide)]

/-- Settles O25: the inverse is the power 254, and each rotation of the affine map moves the bits by their index mod 8. -/
theorem sboxIsInverseThenAffine : Obligations.SboxIsInverseThenAffine := by
  refine ⟨fun x => ⟨gfInv x, fun hzero => ?_, gfMul_gfInv x, fun i hi => getLsbD_sboxAffine (gfInv x) hi⟩,
    by decide +kernel, by decide +kernel⟩
  rw [hzero, gfInv_zero]

/-! ## The draw (R161 to R164) -/

section
variable {b : Config.Build}

theorem drawFrom_mcg (hpath : b.prngPath = .mcg) (p : V256) :
    drawFrom b p =
      { out := mcgOut (mcgNext b.prngMult (lo128 p)) (mcgNext b.prngMult (hi128 p))
        pair := joinHalves (mcgNext b.prngMult (hi128 p)) (mcgNext b.prngMult (lo128 p)) } := by
  rw [drawFrom, prngStep, hpath]

theorem drawFrom_aes (hpath : b.prngPath = .aes) (p : V256) :
    drawFrom b p =
      { out := aesenc (lo128 p) (hi128 p), pair := joinHalves (lo128 p) (aesenc (lo128 p) (hi128 p)) } := by
  rw [drawFrom, prngStep, hpath]

/-- Of the build, a draw uses PRNG_PATH and PRNG_MULT alone (R169). -/
theorem drawFrom_congr {b' : Config.Build} (hpath : b.prngPath = b'.prngPath) (hmult : b.prngMult = b'.prngMult)
    (p : V256) : drawFrom b p = drawFrom b' p := by
  cases hb' : b'.prngPath with
  | mcg => rw [drawFrom_mcg (hpath.trans hb'), drawFrom_mcg hb', hmult]
  | aes => rw [drawFrom_aes (hpath.trans hb'), drawFrom_aes hb']

end

section
variable (mult : BitVec 64) (x : V128)

theorem toNat_mcgNext : (mcgNext mult x).toNat = x.toNat * mult.toNat % 2 ^ 128 := by
  rw [mcgNext, BitVec.toNat_mul, BitVec.toNat_setWidth_of_le (by decide)]

theorem mcgNext_zero : mcgNext mult 0#128 = 0#128 := BitVec.zero_mul

/-- An odd multiplier keeps the parity (R170). -/
theorem getLsbD_mcgNext_zero (hodd : mult.getLsbD 0 = true) : (mcgNext mult x).getLsbD 0 = x.getLsbD 0 := by
  have hmult : mult.toNat % 2 = 1 := by simpa [BitVec.getLsbD] using hodd
  have hparity : (mcgNext mult x).toNat % 2 = x.toNat % 2 := by
    rw [toNat_mcgNext, Nat.mod_mod_of_dvd _ (by decide), Nat.mul_mod, hmult, Nat.mul_one, Nat.mod_mod]
  simp only [BitVec.getLsbD, Nat.testBit_zero, hparity]

end

/-- The output is the two high halves (R163). -/
theorem laneOf_mcgOut_low (s0 s1v : V128) : laneOf 64 (mcgOut s0 s1v) 0 = laneOf 64 s0 1 := laneOf_append_zero _ _

theorem laneOf_mcgOut_high (s0 s1v : V128) : laneOf 64 (mcgOut s0 s1v) 1 = laneOf 64 s1v 1 :=
  (laneOf_append_succ _ _ 0).trans (laneOf_self _)

/-! ## Halves of a register -/

theorem lo128_zero : lo128 0#256 = 0#128 := laneOf_zero 256 128 0

theorem hi128_zero : hi128 0#256 = 0#128 := laneOf_zero 256 128 1

/-- A zero-extended value is the low half beside a high half of zeros. -/
theorem setWidth_eq_joinHalves (x : V128) : x.setWidth 256 = joinHalves 0#128 x := by
  apply BitVec.eq_of_toNat_eq
  rw [joinHalves, BitVec.toNat_append, BitVec.toNat_setWidth_of_le (by decide), BitVec.toNat_ofNat, Nat.zero_mod,
    Nat.zero_shiftLeft, Nat.zero_or]

theorem lo128_setWidth (x : V128) : lo128 (x.setWidth 256) = x := by rw [setWidth_eq_joinHalves, lo128_joinHalves]

theorem hi128_setWidth (x : V128) : hi128 (x.setWidth 256) = 0#128 := by rw [setWidth_eq_joinHalves, hi128_joinHalves]

section
variable (x : V256) {j : Nat} (hj : j < 2)
include hj

theorem laneOf_lo128 : laneOf 64 (lo128 x) j = q64 x j :=
  (laneOf_laneOf 128 64 2 rfl x 0 hj).trans (by rw [Nat.mul_zero, Nat.zero_add])

theorem laneOf_hi128 : laneOf 64 (hi128 x) j = q64 x (2 + j) := laneOf_laneOf 128 64 2 rfl x 1 hj

end

/-! ## VPRNG (R160) -/

theorem exec_vprng (d s1 : Reg) (s : State) : exec (.vprng d s1) s =
    guarded (.vprng d s1) s
      ((s.writeV s1 (drawFrom s.build (s.reg s1)).pair).finish d ((drawFrom s.build (s.reg s1)).out.setWidth 256)) := rfl

/-- From `s` to `t`, VPRNG completes: the draw from V[s1] leaves its pair there and its output in V[d] (R160). -/
structure Draws (d s1 : Reg) (s t : State) : Prop where
  pair : t.reg s1 = (drawFrom s.build (s.reg s1)).pair
  out : t.reg d = (drawFrom s.build (s.reg s1)).out.setWidth 256
  pc : t.pc = s.pc + 1#16
  writes : WritesDestinations (.vprng d s1) s t

section
variable {d s1 : Reg} {s : State} (hne : d ≠ s1)
include hne

theorem exec_vprng_draws (h1 : s.isValid s1 = true) : ∃ t, exec (.vprng d s1) s = .next t ∧ Draws d s1 s t := by
  have hpass : ChecksPass (.vprng d s1) s := ⟨rfl, beq_false_of_ne hne, List.forall_mem_singleton.mpr h1⟩
  refine ⟨_, (exec_vprng d s1 s).trans (guarded_of_pass _ hpass), ?_, State.reg_finish_same _ d _,
    State.finish_pc _ d _, .of_draw s _ _⟩
  rw [State.reg_finish_ne _ hne.symm, State.reg_writeV_same]

theorem exec_vprng_uninitRead (h1 : s.isValid s1 = false) :
    exec (.vprng d s1) s = .next (s.raise .uninitRead (packR2 0x24#6 d s1)) :=
  guarded_of_uninit _ rfl (beq_false_of_ne hne) (List.mem_singleton_self s1) h1

end

theorem exec_vprng_operandAlias (r : Reg) (s : State) :
    exec (.vprng r r) s = .next (s.raise .operandAlias (packR2 0x24#6 r r)) :=
  guarded_of_alias _ rfl (beq_self_eq_true r)

section
variable {d s1 : Reg} {s t : State} (h : Draws d s1 s t)
include h

theorem Draws.frame : t.isValid d = true ∧ t.isValid s1 = true ∧ t.pc = s.pc + 1#16 ∧ WritesOnly s t [d, s1] :=
  ⟨h.writes.valid d (by simp [destinations]), h.writes.valid s1 (by simp [destinations]), h.pc, h.writes.only⟩

theorem Draws.hi128_out : hi128 (t.reg d) = 0#128 := by rw [h.out, hi128_setWidth]

section
variable (hpath : s.build.prngPath = .mcg)
include hpath

theorem Draws.lo128_pair_mcg : lo128 (t.reg s1) = mcgNext s.build.prngMult (lo128 (s.reg s1)) := by
  rw [h.pair, drawFrom_mcg hpath, lo128_joinHalves]

theorem Draws.hi128_pair_mcg : hi128 (t.reg s1) = mcgNext s.build.prngMult (hi128 (s.reg s1)) := by
  rw [h.pair, drawFrom_mcg hpath, hi128_joinHalves]

/-- The output is made of the new state values (R163). -/
theorem Draws.lo128_out_mcg : lo128 (t.reg d) = mcgOut (lo128 (t.reg s1)) (hi128 (t.reg s1)) := by
  rw [h.lo128_pair_mcg hpath, h.hi128_pair_mcg hpath, h.out, drawFrom_mcg hpath, lo128_setWidth]

end

end

/-! ## The obligations on VPRNG -/

/-- Settles O22: a draw is a product in each half, and the output reads the high quarter of each. -/
theorem mcgDraw : Obligations.McgDraw := by
  refine ⟨formatR2_r2Instr (o := .vprng) rfl, fun d s1 s hne h1 => ?_, fun d s1 s hpath hne h1 => ?_,
    exec_vprng_operandAlias, fun d s1 s => exec_vprng_uninitRead⟩
  · obtain ⟨t, hexec, hdraw⟩ := exec_vprng_draws hne h1
    exact ⟨t, hexec, hdraw.pair, hdraw.out, hdraw.frame⟩
  · obtain ⟨t, hexec, hdraw⟩ := exec_vprng_draws hne h1
    refine ⟨t, hexec, ?_, ?_, ?_, ?_, hdraw.hi128_out, hdraw.frame⟩
    · rw [hdraw.lo128_pair_mcg hpath, toNat_mcgNext]
    · rw [hdraw.hi128_pair_mcg hpath, toNat_mcgNext]
    · rw [← laneOf_lo128 _ (by decide), hdraw.lo128_out_mcg hpath, laneOf_mcgOut_low, laneOf_lo128 _ (by decide)]
    · rw [← laneOf_lo128 _ (by decide), hdraw.lo128_out_mcg hpath, laneOf_mcgOut_high, laneOf_hi128 _ (by decide)]

/-- Settles O23: the round is the output and the new low half. -/
theorem aesDraw : Obligations.AesDraw := by
  intro d s1 s hpath hne h1
  obtain ⟨t, hexec, hdraw⟩ := exec_vprng_draws hne h1
  refine ⟨t, hexec, ?_, ?_, ?_, hdraw.hi128_out, hdraw.frame⟩
  · rw [hdraw.pair, drawFrom_aes hpath, lo128_joinHalves]
  · rw [hdraw.pair, drawFrom_aes hpath, hi128_joinHalves]
  · rw [hdraw.out, drawFrom_aes hpath, lo128_setWidth]

/-- Settles O26: both draws are one function of the pair, and of the build it uses the path and the multiplier alone. -/
theorem drawDependsOnTheStatePairAlone : Obligations.DrawDependsOnTheStatePairAlone := by
  intro d s1 d' s1' s s' hne hne' h1 h1' hreg hpath hmult
  obtain ⟨t, hexec, hdraw⟩ := exec_vprng_draws hne h1
  obtain ⟨t', hexec', hdraw'⟩ := exec_vprng_draws hne' h1'
  have hsame : drawFrom s.build (s.reg s1) = drawFrom s'.build (s'.reg s1') := by
    rw [hreg, drawFrom_congr hpath hmult]
  refine ⟨t, t', hexec, hexec', ?_, ?_⟩
  · rw [hdraw.out, hdraw'.out, hsame]
  · rw [hdraw.pair, hdraw'.pair, hsame]

/-! ## The zero pair (R170) -/

theorem drawFrom_zero_mcg {b : Config.Build} (hpath : b.prngPath = .mcg) :
    drawFrom b 0#256 = { out := 0#128, pair := 0#256 } := by
  rw [drawFrom_mcg hpath, lo128_zero, hi128_zero, mcgNext_zero]
  rfl

/-- A closed round, evaluated: every S-box byte is 0x63, and MixColumns keeps a column of equal bytes. -/
theorem aesenc_zero : aesenc 0#128 0#128 = 0x63636363636363636363636363636363#128 := by decide +kernel

theorem drawFrom_zero_aes {b : Config.Build} (hpath : b.prngPath = .aes) :
    (drawFrom b 0#256).out = 0x63636363636363636363636363636363#128 := by
  rw [drawFrom_aes hpath, lo128_zero, hi128_zero, aesenc_zero]

/-- Settles O27: zero times the multiplier is zero, an odd multiplier keeps the low bit, and the round of the zero state
under the zero key is a constant. -/
theorem zeroPairAndParity : Obligations.ZeroPairAndParity := by
  refine ⟨fun b => drawFrom_zero_mcg, fun b p hlegal hpath => ?_, fun b => drawFrom_zero_aes,
    fun d s1 s hne h1 hzero => ?_⟩
  · obtain ⟨-, -, hodd⟩ := build_legal_bounds hlegal
    rw [drawFrom_mcg hpath, lo128_joinHalves, hi128_joinHalves]
    exact ⟨getLsbD_mcgNext_zero _ _ hodd, getLsbD_mcgNext_zero _ _ hodd⟩
  · obtain ⟨t, hexec, hdraw⟩ := exec_vprng_draws hne h1
    obtain ⟨-, -, ⟨hstate, hcause, -⟩, -⟩ := hdraw.writes.only
    refine ⟨t, hexec, hstate, hcause, fun hpath => ?_, fun hpath => ?_⟩
    · rw [hdraw.pair, hdraw.out, hzero, drawFrom_zero_mcg hpath]
      exact ⟨rfl, rfl⟩
    · rw [hdraw.out, hzero, drawFrom_zero_aes hpath]
      rfl

end Sys2Proof.Machine
end

section
/-! PROOFS. Vector load and store (45_memory_ops.md R180, R181), with the words of formats B and M (30_encoding.md R72,
R77). -/

namespace Sys2Proof

/-! ## The words of formats B and M -/

/-- The instruction that an opcode of format B or M, its register and its immediate name. -/
def Op.bmInstr (o : Op) (d : Reg) (imm16 : BitVec 16) : Instr :=
  o.build { d := d, s1 := 0, s2 := 0, imm8 := 0, imm16 := imm16 }

section
variable {o : Op} (hfmt : o.format = .b ∨ o.format = .m)
include hfmt

theorem encode_bmInstr (d : Reg) (imm16 : BitVec 16) : encode (o.bmInstr d imm16) = packB o.code d imm16 := by
  obtain hfmt | hfmt := hfmt
  all_goals rw [Op.bmInstr, encode_build, hfmt, Format.pack]

/-- Neither format has a shift amount. -/
theorem wellFormed_bmInstr (d : Reg) (imm16 : BitVec 16) : (o.bmInstr d imm16).wellFormed = true := by
  cases o
  case bz | bnz | vld | vst => rfl
  all_goals rcases hfmt with hfmt | hfmt <;> cases hfmt

/-- The two formats have the same must-be-zero bits. -/
theorem formatB_bmInstr : Machine.FormatB o.code o.bmInstr := by
  refine ⟨fun d imm16 => ?_, fun w hop hbits => ?_⟩
  · rw [← encode_bmInstr hfmt]
    exact decodeOfEncode _ (wellFormed_bmInstr hfmt d imm16)
  · rw [decode_eq_reservedField_iff hop]
    obtain hfmt | hfmt := hfmt
    all_goals rw [hfmt]; exact beq_eq_false_iff_ne.mpr hbits

end

end Sys2Proof

namespace Sys2Proof.Machine

/-! ## The range check (R60) -/

theorem State.inDmem_eq_true_iff {s : State} {ea : Nat} : s.inDmem ea = true ↔ ea + 32 ≤ s.build.dmemBytes :=
  decide_eq_true_iff

theorem State.inDmem_eq_false_iff {s : State} {ea : Nat} : s.inDmem ea = false ↔ s.build.dmemBytes < ea + 32 :=
  decide_eq_false_iff_not.trans Nat.not_le

/-! ## Load and store, by the check that decides -/

theorem checksPass_vld (d : Reg) (imm16 : BitVec 16) (s : State) : ChecksPass (.vld d imm16) s :=
  ⟨rfl, rfl, List.forall_mem_nil _⟩

theorem checksPass_vst {d : Reg} (imm16 : BitVec 16) {s : State} (hv : s.isValid d = true) :
    ChecksPass (.vst d imm16) s :=
  ⟨rfl, rfl, List.forall_mem_singleton.mpr hv⟩

theorem completesWriting_vld (d : Reg) {imm16 : BitVec 16} {s : State}
    (hin : s.inDmem (effectiveAddress imm16) = true) {P : V256 → Prop} (hP : P (s.memRead (effectiveAddress imm16))) :
    CompletesWriting (.vld d imm16) s d P :=
  completesWriting_of_finish ((exec_vld_inDmem d hin).trans (guarded_of_pass _ (checksPass_vld d imm16 s)).symm)
    (checksPass_vld d imm16 s) hP

theorem exec_vld_dmemRange (d : Reg) {imm16 : BitVec 16} {s : State}
    (hout : s.inDmem (effectiveAddress imm16) = false) :
    exec (.vld d imm16) s = .next (s.raise .dmemRange (packB 0x06#6 d imm16)) :=
  (guarded_of_pass _ (checksPass_vld d imm16 s)).trans (congrArg Host.Outcome.next (if_neg (Bool.eq_false_iff.mp hout)))

theorem exec_vst_dmemRange {d : Reg} {imm16 : BitVec 16} {s : State} (hv : s.isValid d = true)
    (hout : s.inDmem (effectiveAddress imm16) = false) :
    exec (.vst d imm16) s = .next (s.raise .dmemRange (packB 0x07#6 d imm16)) :=
  (guarded_of_pass _ (checksPass_vst imm16 hv)).trans (congrArg Host.Outcome.next (if_neg (Bool.eq_false_iff.mp hout)))

theorem exec_vst_uninitRead {d : Reg} (imm16 : BitVec 16) {s : State} (hv : s.isValid d = false) :
    exec (.vst d imm16) s = .next (s.raise .uninitRead (packB 0x07#6 d imm16)) :=
  guarded_of_uninit _ rfl rfl (List.mem_singleton_self d) hv

/-! ## The obligations -/

/-- Settles O28: a load has no source to check, so the range alone decides whether V[d] takes the 32 bytes. -/
theorem loadReadsThirtyTwoBytes : Obligations.LoadReadsThirtyTwoBytes := by
  refine ⟨formatB_bmInstr (o := .vld) (.inr rfl), fun d imm16 s hin => ?_, fun d imm16 s hout => ?_, fun _ => rfl⟩
  · exact completesWriting_vld d (State.inDmem_eq_true_iff.mpr hin) fun _ hj => s.b8_memRead _ hj
  · exact exec_vld_dmemRange d (State.inDmem_eq_false_iff.mpr hout)

/-- Settles O29: the source is checked before the range, and past both checks the store differs from the state before it
in the 32 bytes and the PC alone. -/
theorem storeWritesThirtyTwoBytes : Obligations.StoreWritesThirtyTwoBytes := by
  refine ⟨formatB_bmInstr (o := .vst) (.inr rfl), fun d imm16 s hv hin => ?_,
    fun d imm16 s hv => exec_vst_uninitRead imm16 hv, fun d imm16 s hv hout => ?_, fun _ => rfl⟩
  · obtain ⟨hregs, hdmem, hstatus, houtside⟩ := s.storesAt (effectiveAddress imm16) (s.reg d)
    exact ⟨_, exec_vst_inDmem hv (State.inDmem_eq_true_iff.mpr hin), fun _ hj => s.dmemByte_store_inside _ _ hj,
      hdmem, by rw [State.advance_pc, State.memWrite_pc], hregs, hstatus, houtside⟩
  · exact exec_vst_dmemRange hv (State.inDmem_eq_false_iff.mpr hout)

end Sys2Proof.Machine
end

section
/-! PROOFS. Sequencing and control transfer (46_control.md R190 to R195): NOP, HALT and JMP, the turn of a core that does
not run, the target of a branch and the fetch after it, and the shape of BZ and BNZ. -/

namespace Sys2Proof.Machine

/-! ## Instructions without a source, which have no check to fail (R82) -/

theorem exec_nop (s : State) : exec .nop s = .next s.advance :=
  guarded_of_pass _ ⟨rfl, rfl, List.forall_mem_nil _⟩

theorem exec_halt (s : State) : exec .halt s = .next s.halt :=
  guarded_of_pass _ ⟨rfl, rfl, List.forall_mem_nil _⟩

theorem exec_jmp (imm16 : BitVec 16) (s : State) : exec (.jmp imm16) s = .next (s.setPc (branchTarget s.pc imm16)) :=
  guarded_of_pass _ ⟨rfl, rfl, List.forall_mem_nil _⟩

/-! ## The core's turn while it is not RUNNING -/

theorem step_of_halted {s : State} (hturns : s.turns = []) (hstate : s.state = .halted) :
    step s = .fault .coreHalted := by
  rw [step, takeTurn, hturns, coreStep, hstate]

/-- A core turn passes while the core is not RUNNING (notes/assumptions/8). -/
theorem step_of_passedTurn {s : State} {rest : List Turn} (hturns : s.turns = .core :: rest)
    (hstate : s.state ≠ .running) : step s = .next (turnTaken s rest) := by
  rw [step, takeTurn, hturns]
  exact if_neg hstate

/-! ## Where the PC goes -/

/-- The offset is signed, and the sum wraps mod 2^16 (R76). -/
theorem toNat_branchTarget (pc : Pc) (imm16 : BitVec 16) :
    ((branchTarget pc imm16).toNat : Int) = ((pc.toNat : Int) + imm16.toInt) % 65536 := by
  rw [branchTarget, BitVec.toNat_ofInt]
  exact Int.toNat_of_nonneg (Int.emod_nonneg _ (by decide))

/-- The index the PC was set to is checked at the next fetch, which is the core's next step (R192, R205). -/
theorem step_setPc_of_outside {s : State} (hmoves : CoreMoves s) {p : Pc} (hout : s.build.imemWords ≤ p.toNat) :
    step (s.setPc p) = .next ((s.setPc p).raise .fetchRange 0#32) := by
  have hmoves' : CoreMoves (s.setPc p) := hmoves
  exact step_of_pc_outside hmoves'.coreTurn hout

/-! ## The branches -/

/-- Where a branch leaves the PC: at its target if it is taken, else at the next index (R193, R194). -/
def State.branchPc (s : State) (imm16 : BitVec 16) (taken : Bool) : Pc :=
  if taken then branchTarget s.pc imm16 else s.pc + 1#16

/-- The opcode has format B, and behind the checks its instruction sets the PC by `test` of its one source (R89). -/
structure BranchesOn (o : Op) (test : V256 → Bool) : Prop where
  format : o.format = .b
  reads : ∀ d imm16, ReadsOneSource (o.bmInstr d imm16) d
  exec_eq : ∀ d imm16 s, exec (o.bmInstr d imm16) s =
    guarded (o.bmInstr d imm16) s (s.setPc (s.branchPc imm16 (test (s.reg d))))

theorem BranchesOn.branchRule {o : Op} {test : V256 → Bool} (h : BranchesOn o test) {taken : V256 → Prop}
    (htest : ∀ x, test x = true ↔ taken x) : BranchRule o.code o.bmInstr taken := by
  have hfmt : o.format = .b ∨ o.format = .m := .inl h.format
  have hwf := wellFormed_bmInstr hfmt
  refine ⟨formatB_bmInstr hfmt, fun d imm16 s hv => ?_, fun d imm16 s hv => ?_⟩
  · refine ⟨_, (h.exec_eq d imm16 s).trans (guarded_of_pass _ ((h.reads d imm16).checksPass (hwf d imm16) hv)),
      s.writesOnly_setPc _, fun htaken => ?_, fun hnot => ?_,
      fun hmoves hout => step_setPc_of_outside hmoves hout⟩
    · rw [State.setPc_pc, State.branchPc, if_pos ((htest _).mpr htaken), toNat_branchTarget]
    · rw [State.setPc_pc, State.branchPc, if_neg (hnot ∘ (htest _).mp)]
  · rw [h.exec_eq, (h.reads d imm16).guarded_of_invalid (hwf d imm16) hv, State.raiseAt, encode_bmInstr hfmt]

theorem branchesOn_bz : BranchesOn .bz allZero := by
  refine ⟨rfl, fun _ _ => ⟨rfl, rfl⟩, fun d imm16 s => congrArg (guarded (.bz d imm16) s) ?_⟩
  rcases allZero (s.reg d) <;> rfl

theorem branchesOn_bnz : BranchesOn .bnz fun x => !allZero x := by
  refine ⟨rfl, fun _ _ => ⟨rfl, rfl⟩, fun d imm16 s => congrArg (guarded (.bnz d imm16) s) ?_⟩
  rcases allZero (s.reg d) <;> rfl

theorem allZero_iff {x : V256} : allZero x = true ↔ ∀ i, i < 256 → x.getLsbD i = false := by
  rw [allZero, beq_iff_eq]
  constructor
  · rintro rfl i -
    exact BitVec.getLsbD_zero
  · intro h
    exact BitVec.eq_of_getLsbD_eq fun i hi => (h i hi).trans BitVec.getLsbD_zero.symm

theorem not_allZero_iff {x : V256} : (!allZero x) = true ↔ ∃ i, i < 256 ∧ x.getLsbD i = true := by
  rw [Bool.not_eq_true', ← Bool.not_eq_true, allZero_iff]
  simp

/-! ## The obligations -/

/-- Settles O33: the PC alone is set, to the wrapped sum, and only the next step compares it with IMEM_WORDS. -/
theorem jumpAddsTheSignedOffset : Obligations.JumpAddsTheSignedOffset := by
  refine ⟨fun imm16 => decodeOfEncode (.jmp imm16) rfl, fun w hop hbits => ?_, fun imm16 s => ?_⟩
  · exact (decode_eq_reservedField_iff (op := .jmp) hop).mpr (beq_eq_false_iff_ne.mpr hbits)
  · exact ⟨_, exec_jmp imm16 s, toNat_branchTarget s.pc imm16, s.writesOnly_setPc _,
      fun hmoves hout => step_setPc_of_outside hmoves hout⟩

/-- Settles O34: the two branches are one rule, taken by opposite tests of the whole register. -/
theorem branchesTestAllBits : Obligations.BranchesTestAllBits :=
  ⟨branchesOn_bz.branchRule fun _ => allZero_iff, branchesOn_bnz.branchRule fun _ => not_allZero_iff⟩

/-- Settles O31: the advance of the PC is the whole effect. -/
theorem nopOnlyAdvances : Obligations.NopOnlyAdvances := by
  refine ⟨decodeOfEncode .nop rfl, fun w hop hbits => ?_, fun s => ?_⟩
  · exact (decode_eq_reservedField_iff (op := .nop) hop).mpr (beq_eq_false_iff_ne.mpr hbits)
  · exact ⟨_, exec_nop s, s.advance_pc, s.writesOnly_setPc _⟩

/-- Settles O32: STATE is the one field that HALT writes, and a core that is HALTED has no step of its own. -/
theorem haltEndsTheRun : Obligations.HaltEndsTheRun := by
  refine ⟨decodeOfEncode .halt rfl, fun w hop hbits => ?_, fun s => ?_⟩
  · exact (decode_eq_reservedField_iff (op := .halt) hop).mpr (beq_eq_false_iff_ne.mpr hbits)
  · have hhalted : s.halt.state = .halted := s.halt_state
    exact ⟨_, exec_halt s, hhalted, rfl, s.halt_pc, s.halt_cause, s.halt_faultPc, s.halt_faultInsn,
      fun _ _ => ⟨rfl, rfl⟩, fun _ => rfl, keepsOutside_refl s, fun hturns => step_of_halted hturns hhalted,
      fun rest hturns => step_of_passedTurn hturns (by rw [hhalted]; decide)⟩

end Sys2Proof.Machine
end

section
/-! PROOFS. Taking a fault (60_exceptions.md R203 to R208): which fault an instruction takes, by the first of the checks
of 30_encoding.md R82 that fails, and what a core step that ends FAULTED has written. -/

namespace Sys2Proof.Machine

/-! ## The fault of an instruction -/

section
variable {i : Instr} {s : State} (hwf : i.wellFormed = true)
include hwf

theorem exec_of_alias (halias : operandsAlias i = true) : exec i s = .next (s.raiseAt .operandAlias i) := by
  obtain ⟨effect, he⟩ := exec_guarded i s
  rw [he, guarded_of_alias effect hwf halias]

theorem exec_of_uninit (halias : operandsAlias i = false) (hinvalid : ∃ r ∈ sources i, s.isValid r = false) :
    exec i s = .next (s.raiseAt .uninitRead i) := by
  obtain ⟨effect, he⟩ := exec_guarded i s
  obtain ⟨r, hr, hv⟩ := hinvalid
  rw [he, guarded_of_uninit effect hwf halias hr hv]

end

/-- A load or a store past the end of DMEM, once its sources are valid. -/
theorem exec_of_dmemRange {i : Instr} {s : State} {d : Reg} {imm16 : BitVec 16}
    (hi : i = .vld d imm16 ∨ i = .vst d imm16) (hvalid : ∀ r ∈ sources i, s.isValid r = true)
    (hout : s.build.dmemBytes < effectiveAddress imm16 + 32) : exec i s = .next (s.raiseAt .dmemRange i) := by
  have hout' := State.inDmem_eq_false_iff.mpr hout
  rcases hi with rfl | rfl
  · exact exec_vld_dmemRange d hout'
  · exact exec_vst_dmemRange (hvalid d (List.mem_singleton_self d)) hout'

/-- HOST_ABORT is the host's alone (R220). -/
theorem TakesFault.cause_ne_hostAbort {i : Instr} {s : State} {c : Cause} (h : TakesFault i s c) : c ≠ .hostAbort := by
  cases h <;> decide

theorem TakesFault.operandsAlias_eq {i : Instr} {s : State} (h : TakesFault i s .operandAlias) :
    operandsAlias i = true := by
  cases h with
  | operandAlias _ halias => exact halias

/-- STATE and CAUSE show whether an instruction took a fault: without one CAUSE stays, and STATE stays or is HALTED. -/
theorem exec_fault_or_keeps {i : Instr} {s t : State} (he : exec i s = .next t) :
    (∃ c, TakesFault i s c ∧ t = s.raiseAt c i) ∨ (t.cause = s.cause ∧ (t.state = s.state ∨ t.state = .halted)) := by
  have hcases := exec_cases i s
  rw [he] at hcases
  cases hcases with
  | fault c hf => exact .inl ⟨c, hf, rfl⟩
  | halt => exact .inr ⟨rfl, .inr rfl⟩
  | store d imm16 =>
    obtain ⟨hstate, hcause, -⟩ := s.keepsRunStatus_store (effectiveAddress imm16) 32 (s.reg d)
    exact .inr ⟨hcause, .inl hstate⟩
  | write _ _ hw =>
    obtain ⟨hstate, hcause, -⟩ := hw.runStatus
    exact .inr ⟨hcause, .inl hstate⟩

/-! ## OPERAND_ALIAS (R203) -/

theorem operandsAlias_iff (i : Instr) : operandsAlias i = true ↔
    (∃ d r, i = .vor d r r) ∨ (∃ d r, i = .vand d r r) ∨ (∃ d r, i = .vsign16 d r r) ∨
    (∃ d r, i = .vshufb d r r) ∨ ∃ r, i = .vprng r r := by
  constructor
  · intro halias
    cases i
    case vor d s1 s2 => exact .inl ⟨d, s1, by rw [eq_of_beq halias]⟩
    case vand d s1 s2 => exact .inr (.inl ⟨d, s1, by rw [eq_of_beq halias]⟩)
    case vsign16 d s1 s2 => exact .inr (.inr (.inl ⟨d, s1, by rw [eq_of_beq halias]⟩))
    case vshufb d s1 s2 => exact .inr (.inr (.inr (.inl ⟨d, s1, by rw [eq_of_beq halias]⟩)))
    case vprng d s1 => exact .inr (.inr (.inr (.inr ⟨d, by rw [eq_of_beq halias]⟩)))
    all_goals exact absurd halias Bool.false_ne_true
  · rintro (⟨d, r, rfl⟩ | ⟨d, r, rfl⟩ | ⟨d, r, rfl⟩ | ⟨d, r, rfl⟩ | ⟨r, rfl⟩) <;> exact beq_self_eq_true r

theorem cause_operandAlias_iff {i : Instr} {s t : State} (hwf : i.wellFormed = true) (hs : s.cause ≠ .operandAlias)
    (he : exec i s = .next t) : t.cause = .operandAlias ↔ operandsAlias i = true := by
  constructor
  · intro hcause
    rcases exec_fault_or_keeps he with ⟨c, hf, rfl⟩ | ⟨hkept, -⟩
    · obtain rfl : c = .operandAlias := hcause
      exact hf.operandsAlias_eq
    · exact absurd (hkept.symm.trans hcause) hs
  · intro halias
    cases (exec_of_alias hwf halias).symm.trans he
    rfl

/-- Settles O38: one check raises it, whatever else an instruction does, and it fails for exactly these forms. -/
theorem operandAliasExactly : Obligations.OperandAliasExactly :=
  fun i _ _ hwf hs he => (cause_operandAlias_iff hwf hs he).trans (operandsAlias_iff i)

/-! ## What a faulting core step has written (R206, R207) -/

/-- FAULT_INSN of a fault of the core: the fetched word, or 0 where none was fetched. -/
def State.faultWord (s : State) : Word := if s.build.imemWords ≤ s.pc.toNat then 0#32 else s.imemWord s.pc.toNat

theorem State.faultWord_outside {s : State} (h : s.build.imemWords ≤ s.pc.toNat) : s.faultWord = 0#32 := if_pos h

theorem State.faultWord_inside {s : State} (h : s.pc.toNat < s.build.imemWords) :
    s.faultWord = s.imemWord s.pc.toNat := if_neg (Nat.not_le.mpr h)

theorem causeOf_ne_hostAbort (c : DecodeFault) : causeOf c ≠ .hostAbort := by cases c <;> decide

/-- A running core that ends FAULTED took one fault, at its PC and with the word it fetched. -/
theorem fetchAndRun_faulted {u t : State} (hrun : u.state = .running) (he : fetchAndRun u = .next t)
    (hfaulted : t.state = .faulted) : ∃ c, c ≠ .none ∧ c ≠ .hostAbort ∧ t = u.raise c u.faultWord := by
  rcases fetchAndRun_cases u with ⟨hpc, e⟩ | ⟨hpc, c, -, e⟩ | ⟨hpc, i, hd, e⟩
  · cases e.symm.trans he
    exact ⟨.fetchRange, by decide, by decide, by rw [State.faultWord_outside hpc]⟩
  · cases e.symm.trans he
    exact ⟨causeOf c, causeOf_ne_none c, causeOf_ne_hostAbort c, by rw [State.faultWord_inside hpc]⟩
  · rcases exec_fault_or_keeps (e.symm.trans he) with ⟨c, hf, rfl⟩ | ⟨-, hstate | hstate⟩
    · obtain ⟨-, hword⟩ := encodeOfDecode _ i hd
      exact ⟨c, hf.cause_ne_none, hf.cause_ne_hostAbort, by rw [State.faultWord_inside hpc, State.raiseAt, hword]⟩
    · simp [hstate, hrun] at hfaulted
    · simp [hstate] at hfaulted

/-- Settles O37: the step raised one fault, and raising writes those four fields alone. -/
theorem faultsArePrecise : Obligations.FaultsArePrecise := by
  intro s u t hturn hstep hfaulted
  obtain ⟨c, hnone, habort, rfl⟩ := fetchAndRun_faulted hturn.state_eq (step_of_coreTurn hturn ▸ hstep) hfaulted
  exact ⟨hnone, habort, faultTaken_raise u c u.faultWord⟩

/-! ## The order of the checks (R205, R208) -/

section
variable {s : State} (hmoves : CoreMoves s) (hpc : s.pc.toNat < s.build.imemWords)
include hmoves hpc

/-- The step that fetches the word of an instruction is its meaning. -/
theorem step_of_encoded {i : Instr} (hwf : i.wellFormed = true) (hw : s.imemWord s.pc.toNat = encode i) :
    step s = exec i s :=
  step_of_decode_ok hmoves.coreTurn hpc (hw ▸ decodeOfEncode i hwf)

theorem step_of_undefinedOpcode (hop : ∀ op : Op, opField (s.imemWord s.pc.toNat) ≠ op.code) :
    step s = .next (s.raise .illegalOpcode (s.imemWord s.pc.toNat)) := by
  have hnone : Op.ofCode (opField (s.imemWord s.pc.toNat)) = none :=
    Option.eq_none_iff_forall_ne_some.mpr fun op h => hop op (Op.ofCode_eq_some_iff.mp h)
  exact step_of_decode_error hmoves.coreTurn hpc (decode_of_ofCode_none hnone)

theorem step_of_reservedField {op : Op} (hop : opField (s.imemWord s.pc.toNat) = op.code)
    (hmask : s.imemWord s.pc.toNat &&& op.format.mask ≠ op.matchWord) :
    step s = .next (s.raise .reservedField (s.imemWord s.pc.toNat)) :=
  step_of_decode_error hmoves.coreTurn hpc ((maskAndMatchDecideReservedFields.1 op _ hop).mpr hmask)

theorem step_of_shiftRange {op : Op} (hop : opField (s.imemWord s.pc.toNat) = op.code)
    (hmask : s.imemWord s.pc.toNat &&& op.format.mask = op.matchWord) (hshift : op = .vsll16 ∨ op = .vsrl16)
    (himm : 16 < (imm8Field (s.imemWord s.pc.toNat)).toNat) :
    step s = .next (s.raise .immRange (s.imemWord s.pc.toNat)) :=
  step_of_decode_error hmoves.coreTurn hpc <| decode_eq_immRange_iff.mpr
    ⟨op, hop, (and_mask_eq_matchWord_iff hop).mp hmask, (wellFormed_build_eq_false_iff op _).mpr ⟨hshift, himm⟩⟩

end

/-- Settles O36: no word is fetched in the first case, and the word of a load or a store in the second. -/
theorem rangeFaults : Obligations.RangeFaults := by
  refine ⟨fun s hmoves hpc => ?_, fun s d imm16 hmoves hpc hout hword => ?_⟩
  · exact ⟨_, step_of_pc_outside hmoves.coreTurn hpc, rfl, rfl, rfl, rfl⟩
  · rcases hword with hw | ⟨hw, hv⟩
    · have hstep := step_of_encoded hmoves hpc (i := .vld d imm16) rfl hw
      exact ⟨_, hstep.trans (exec_of_dmemRange (.inl rfl) (List.forall_mem_nil _) hout), rfl, rfl, rfl, hw.symm⟩
    · have hstep := step_of_encoded hmoves hpc (i := .vst d imm16) rfl hw
      exact ⟨_, hstep.trans (exec_of_dmemRange (.inr rfl) (List.forall_mem_singleton.mpr hv) hout), rfl, rfl, rfl,
        hw.symm⟩

/-! ## CTRL, one action at a time -/

/-- A write of CTRL whose turn it is. -/
theorem step_writeCtrl (s : State) (rest : List Turn) (v : Word) :
    step (withTurn s (.writeCr 0x0C v) rest) = .next ((turnTaken s rest).writeCtrl v) :=
  (step_of_hostTurn rfl).trans (hostAct_writeCtrl _ v)

section
variable {v : Word} (s : State)

theorem State.writeCtrl_abort (h2 : v.getLsbD 2 = true) (h1 : v.getLsbD 1 = false) (h0 : v.getLsbD 0 = false) :
    s.writeCtrl v = s.abort := by
  rw [State.writeCtrl_eq, h0, h1, h2]
  rfl

theorem State.writeCtrl_clear (h2 : v.getLsbD 2 = false) (h1 : v.getLsbD 1 = true) (h0 : v.getLsbD 0 = false) :
    s.writeCtrl v = s.clear := by
  rw [State.writeCtrl_eq, h0, h1, h2]
  rfl

theorem State.writeCtrl_start (h2 : v.getLsbD 2 = false) (h1 : v.getLsbD 1 = false) (h0 : v.getLsbD 0 = true) :
    s.writeCtrl v = s.start := by
  rw [State.writeCtrl_eq, h0, h1, h2]
  rfl

end

/-- Settles O39: the abort acts in its own turn, before any fetch; then each check is reached only by a word that passed
those before it. -/
theorem faultPriority : Obligations.FaultPriority := by
  refine ⟨fun s rest v hrun h2 h1 h0 => ?_, fun s hmoves => ⟨step_of_pc_outside hmoves.coreTurn, ?_⟩⟩
  · rw [step_writeCtrl, State.writeCtrl_abort _ h2 h1 h0]
    exact congrArg Host.Outcome.next (if_pos hrun)
  · rintro w hpc rfl
    refine ⟨step_of_undefinedOpcode hmoves hpc, fun op hop => ⟨step_of_reservedField hmoves hpc hop, fun hmask =>
      ⟨step_of_shiftRange hmoves hpc hop hmask, fun i hwf hw => ?_⟩⟩⟩
    rw [step_of_encoded hmoves hpc hwf hw, hw]
    exact ⟨exec_of_alias hwf, exec_of_uninit hwf, fun d imm16 => exec_of_dmemRange⟩

end Sys2Proof.Machine
end

section
/-! PROOFS. The host (60_exceptions.md R209, R216 to R221): the core has no step of its own while it does not run, the
actions of CTRL, and what the host reaches of the memories and the registers, by STATE and by range. -/

namespace Sys2Proof.Machine

/-! ## A core that does not run (R209, R227) -/

theorem step_of_noTurns {s : State} (hturns : s.turns = []) : step s = coreStep s := by
  rw [step, takeTurn, hturns]

/-- Settles O43: with no turn left the core's own step is none, and a core turn passes. -/
theorem quiescentStatesTakeNoCoreStep : Obligations.QuiescentStatesTakeNoCoreStep := by
  refine fun s hs => ⟨fun hturns => ?_, fun rest hturns => step_of_passedTurn hturns hs⟩
  rw [step_of_noTurns hturns, coreStep]
  rcases hstate : s.state with _ | _ | _ | _
  case running => exact absurd hstate hs
  all_goals exact ⟨_, rfl, rfl⟩

/-! ## START, CLEAR and ABORT (R218 to R220) -/

/-- Settles O44: START is the one action, and it writes the PC, CAUSE and STATE. -/
theorem startBeginsARun : Obligations.StartBeginsARun := by
  intro s rest v h0 h1 h2
  rw [step_writeCtrl, State.writeCtrl_start _ h2 h1 h0]
  rcases (turnTaken s rest).start_cases with ⟨hs, e⟩ | ⟨hs, e⟩ <;> rw [e]
  · exact ⟨fun _ => rfl, fun hne => absurd hs hne⟩
  · exact ⟨fun hrun => absurd hrun hs, fun _ => ⟨_, rfl, rfl, rfl, rfl, rfl, rfl, rfl, rfl, rfl, rfl, rfl, rfl, rfl⟩⟩

/-- Settles O45: CLEAR is the one action, and STATE decides whether it acts. -/
theorem clearReturnsToIdle : Obligations.ClearReturnsToIdle := by
  intro s rest v h0 h1 h2
  rw [step_writeCtrl, State.writeCtrl_clear _ h2 h1 h0]
  refine ⟨fun hs => ?_, fun hs => ?_⟩ <;> refine congrArg Host.Outcome.next ?_
  · refine if_neg ?_
    rcases hs with hs | hs <;> simp [turnTaken, hs]
  · exact if_pos hs

/-- Settles O46: ABORT is the one action, and it takes its fault at the PC. -/
theorem abortFaultsAtTheBoundary : Obligations.AbortFaultsAtTheBoundary := by
  intro s rest v h0 h1 h2
  rw [step_writeCtrl, State.writeCtrl_abort _ h2 h1 h0]
  rcases (turnTaken s rest).abort_cases with ⟨hs, e⟩ | ⟨hs, e⟩ <;> rw [e]
  · exact ⟨fun _ => ⟨_, rfl, rfl, rfl, rfl, rfl, rfl, rfl, rfl, rfl, rfl, rfl⟩, fun hne => absurd hs hne⟩
  · exact ⟨fun hrun => absurd hrun hs, fun _ => rfl⟩

/-! ## The memories and the registers while the core runs (R221) -/

section
variable {s : State} (hs : s.state = .running)
include hs

theorem State.hostWriteImem_running (i : Nat) (w : Word) : s.hostWriteImem i w = s := if_pos hs
theorem State.hostReadImem_running (i : Nat) : s.hostReadImem i = 0#32 := if_pos hs
theorem State.hostWriteDmem_running (a : Nat) (b : Byte) : s.hostWriteDmem a b = s := if_pos hs
theorem State.hostReadDmem_running (a : Nat) : s.hostReadDmem a = 0#8 := if_pos hs
theorem State.hostWriteV_running (i : Nat) (x : V256) : s.hostWriteV i x = s := if_pos hs
theorem State.hostReadV_running (i : Nat) : s.hostReadV i = 0#256 := if_pos hs
theorem State.writeEntryPc_running (v : Word) : s.writeEntryPc v = s := if_pos hs
theorem State.abort_running : s.abort = s.raise .hostAbort 0#32 := if_pos hs

end

/-- Settles O49: each access finds the core RUNNING, and CTRL acts all the same. -/
theorem runningCoreIsUndisturbed : Obligations.RunningCoreIsUndisturbed := by
  intro s hs
  refine ⟨fun i w => ?_, fun a b => ?_, fun i x => ?_, fun v => ?_, fun i => ?_, fun a => ?_, fun i => ?_,
    fun o ho => hostAct_readCr ho s, hostAct_writeCtrl s, s.raise .hostAbort 0#32, ?_, rfl, rfl⟩
  · rw [hostAct_writeImem, State.hostWriteImem_running hs]
  · rw [hostAct_writeDmem, State.hostWriteDmem_running hs]
  · rw [hostAct_writeV, State.hostWriteV_running hs]
  · rw [hostAct_writeCr rfl, State.writeCr_entryPc, State.writeEntryPc_running hs]
  · rw [hostAct_readImem, State.hostReadImem_running hs]
  · rw [hostAct_readDmem, State.hostReadDmem_running hs]
  · rw [hostAct_readV, State.hostReadV_running hs]
  · rw [hostAct_writeCtrl, State.writeCtrl_abort s (by decide) (by decide) (by decide), State.abort_running hs]

/-! ## The memories and the registers while the core does not run (R216, R217) -/

section
variable {s : State} (hs : s.state ≠ .running)
include hs

theorem State.hostWriteImem_inside {i : Nat} (hi : i < s.build.imemWords) (w : Word) :
    s.hostWriteImem i w = s.storeWord i w := (if_neg hs).trans (if_pos hi)

theorem State.hostReadImem_inside {i : Nat} (hi : i < s.build.imemWords) : s.hostReadImem i = s.imemWord i :=
  (if_neg hs).trans (if_pos hi)

theorem State.hostWriteImem_outside {i : Nat} (hi : s.build.imemWords ≤ i) (w : Word) : s.hostWriteImem i w = s :=
  (if_neg hs).trans (if_neg hi.not_gt)

theorem State.hostReadImem_outside {i : Nat} (hi : s.build.imemWords ≤ i) : s.hostReadImem i = 0#32 :=
  (if_neg hs).trans (if_neg hi.not_gt)

theorem State.hostWriteDmem_inside {a : Nat} (ha : a < s.build.dmemBytes) (b : Byte) :
    s.hostWriteDmem a b = s.storeByte a b := (if_neg hs).trans (if_pos ha)

theorem State.hostReadDmem_inside {a : Nat} (ha : a < s.build.dmemBytes) : s.hostReadDmem a = s.dmemByte a :=
  (if_neg hs).trans (if_pos ha)

theorem State.hostWriteDmem_outside {a : Nat} (ha : s.build.dmemBytes ≤ a) (b : Byte) : s.hostWriteDmem a b = s :=
  (if_neg hs).trans (if_neg ha.not_gt)

theorem State.hostReadDmem_outside {a : Nat} (ha : s.build.dmemBytes ≤ a) : s.hostReadDmem a = 0#8 :=
  (if_neg hs).trans (if_neg ha.not_gt)

theorem State.hostWriteV_reg (r : Reg) (x : V256) : s.hostWriteV r.val x = s.writeV r x :=
  (if_neg hs).trans (dif_pos r.isLt)

theorem State.hostReadV_reg (r : Reg) :
    s.hostReadV r.val = if s.isValid r then s.reg r else Config.vAtReset s.epoch r.val :=
  (if_neg hs).trans (dif_pos r.isLt)

theorem State.hostWriteV_outside {i : Nat} (hi : 15 < i) (x : V256) : s.hostWriteV i x = s :=
  (if_neg hs).trans (dif_neg (Nat.not_lt.mpr hi))

theorem State.hostReadV_outside {i : Nat} (hi : 15 < i) : s.hostReadV i = 0#256 :=
  (if_neg hs).trans (dif_neg (Nat.not_lt.mpr hi))

end

/-- Settles O51: each access fails its range check. -/
theorem hostAccessOutOfRange : Obligations.HostAccessOutOfRange := by
  refine fun s hs => ⟨fun i w hi => ?_, fun a b ha => ?_, fun i x hi => ?_⟩
  · rw [hostAct_writeImem, hostAct_readImem, State.hostWriteImem_outside hs hi, State.hostReadImem_outside hs hi]
    exact ⟨rfl, rfl⟩
  · rw [hostAct_writeDmem, hostAct_readDmem, State.hostWriteDmem_outside hs ha, State.hostReadDmem_outside hs ha]
    exact ⟨rfl, rfl⟩
  · rw [hostAct_writeV, hostAct_readV, State.hostWriteV_outside hs hi, State.hostReadV_outside hs hi]
    exact ⟨rfl, rfl⟩

theorem State.writesOnly_writeV (s : State) (r : Reg) (x : V256) : WritesOnly s (s.writeV r x) [r] :=
  s.writesOnly_finish r x

/-- Settles O50: in range a write is the update of its cell or register, which the read then finds. -/
theorem hostWritesReadBack : Obligations.HostWritesReadBack := by
  refine fun s hs => ⟨fun i w hi => ?_, fun a b ha => ?_, fun r x => ?_, fun i hi => ?_, fun a ha => ?_, fun r hr => ?_,
    fun r _ => ⟨_, hostAct_readV r.val s⟩, fun x => ?_⟩
  · refine ⟨s.storeWord i w, ?_, ?_, s.imemWord_storeWord_same i w, fun j => s.imemWord_storeWord_ne i j w,
      fun _ => rfl, fun _ _ => ⟨rfl, rfl⟩, rfl, ⟨rfl, rfl, rfl, rfl⟩, rfl, rfl, rfl, rfl, rfl⟩
    · rw [hostAct_writeImem, State.hostWriteImem_inside hs hi]
    · rw [hostAct_readImem, State.hostReadImem_inside (s := s.storeWord i w) hs hi, State.imemWord_storeWord_same]
  · refine ⟨s.storeByte a b, ?_, ?_, s.dmemByte_storeByte_same a b, fun c => s.dmemByte_storeByte_ne a c b,
      fun _ _ => ⟨rfl, rfl⟩, rfl, ⟨rfl, rfl, rfl, rfl⟩, keepsOutside_refl s⟩
    · rw [hostAct_writeDmem, State.hostWriteDmem_inside hs ha]
    · rw [hostAct_readDmem, State.hostReadDmem_inside (s := s.storeByte a b) hs ha, State.dmemByte_storeByte_same]
  · refine ⟨s.writeV r x, ?_, ?_, s.reg_writeV_same r x, s.isValid_writeV_same r x, rfl, s.writesOnly_writeV r x⟩
    · rw [hostAct_writeV, State.hostWriteV_reg hs]
    · rw [hostAct_readV, State.hostReadV_reg (s := s.writeV r x) hs, if_pos (s.isValid_writeV_same r x),
        State.reg_writeV_same]
  · rw [hostAct_readImem, State.hostReadImem_inside hs hi]
  · rw [hostAct_readDmem, State.hostReadDmem_inside hs ha]
  · rw [hostAct_readV, State.hostReadV_reg hs, if_pos hr]
  · exact ⟨rfl, fun _ _ => ⟨rfl, rfl⟩, fun _ => rfl, ⟨rfl, rfl, rfl, rfl⟩, rfl, rfl, fun _ => rfl, rfl, rfl, rfl⟩

end Sys2Proof.Machine
end

section
/-! PROOFS. Reset and the boot sequence (70_reset_and_hazards.md R240 to R243): what a list of turns brings a state to,
stage by stage of the boot sequence, and what the memories and the registers then hold. -/

namespace Sys2Proof.Machine

/-! ## HOST_RESET (R240) -/

theorem step_reset (s : State) (rest : List Turn) :
    step (withTurn s .reset rest) = .next (turnTaken s rest).hostReset :=
  (step_of_hostTurn rfl).trans (hostAct_reset _)

/-- Settles O53: no cell is listed after a reset, so each reads as the new reset's free value. -/
theorem hostResetFromAnyState : Obligations.HostResetFromAnyState := fun s rest =>
  ⟨_, step_reset s rest, rfl, rfl, rfl, rfl, rfl, rfl, rfl, rfl, State.isValid_resetOf s.build (s.epoch + 1),
    fun _ => rfl, fun _ => rfl⟩

/-! ## Lists of turns -/

/-- The turns `ts` bring the machine from `s` to `t`, whatever turns come after them. -/
def TurnsRun (ts : List Turn) (s t : State) : Prop :=
  ∀ rest, Sys2Proof.core.run ts.length (turnTaken s (ts ++ rest)) = .next (turnTaken t rest)

theorem TurnsRun.nil (s : State) : TurnsRun [] s s := fun _ => rfl

theorem TurnsRun.append {ts us : List Turn} {s t u : State} (h : TurnsRun ts s t) (h' : TurnsRun us t u) :
    TurnsRun (ts ++ us) s u := by
  intro rest
  rw [List.length_append, List.append_assoc, run_add _ _ (h (us ++ rest))]
  exact h' rest

theorem TurnsRun.host {x : HostTxn} {s t : State}
    (h : ∀ rest, hostAct x (turnTaken s rest) = .next (turnTaken t rest)) : TurnsRun [.host x] s t :=
  fun rest => run_succ 0 ((step_of_hostTurn rfl).trans (h rest))

theorem TurnsRun.cons {x : HostTxn} {ts : List Turn} {s t u : State}
    (h : ∀ rest, hostAct x (turnTaken s rest) = .next (turnTaken t rest)) (h' : TurnsRun ts t u) :
    TurnsRun (.host x :: ts) s u := (TurnsRun.host h).append h'

/-! ## Steps 2 and 3: the memories -/

/-- Writes a list of values into the cells from `a` on. -/
def Memory.storeFrom {w : Nat} (m : Memory w) (a : Nat) : List (BitVec w) → Memory w
  | [] => m
  | x :: xs => (m.store a x).storeFrom (a + 1) xs

section
variable {w : Nat} (m : Memory w) (xs : List (BitVec w))

theorem Memory.find_storeFrom_below {a b : Nat} (hlt : b < a) : (m.storeFrom a xs).find b = m.find b := by
  induction xs generalizing m a with
  | nil => rfl
  | cons x xs ih => rw [Memory.storeFrom, ih _ (by omega), Memory.find_store_ne m a b x (by omega)]

theorem Memory.find_storeFrom (a : Nat) {k : Nat} (hk : k < xs.length) :
    (m.storeFrom a xs).find (a + k) = xs[k]? := by
  induction xs generalizing m a k with
  | nil => exact absurd hk (Nat.not_lt_zero k)
  | cons x xs ih =>
    cases k with
    | zero => exact (Memory.find_storeFrom_below _ xs a.lt_add_one).trans (Memory.find_store_same m a x)
    | succ k =>
      rw [show a + (k + 1) = a + 1 + k by omega]
      exact ih (m.store a x) (a + 1) (Nat.lt_of_succ_lt_succ hk)

end

theorem turnsRun_loadWords {words : List Word} {s : State} {i : Nat} (hs : s.state ≠ .running)
    (hlen : i + words.length ≤ s.build.imemWords) :
    TurnsRun (loadWords i words) s { s with imem := Memory.storeFrom s.imem i words } := by
  induction words generalizing s i with
  | nil => exact .nil s
  | cons w words ih =>
    rw [List.length_cons] at hlen
    have hi : i < s.build.imemWords := by omega
    have hfirst : ∀ rest, hostAct (.writeImem i w) (turnTaken s rest) = .next (turnTaken (s.storeWord i w) rest) :=
      fun rest => congrArg Host.Outcome.next (State.hostWriteImem_inside (s := turnTaken s rest) hs hi w)
    exact .cons hfirst (ih (s := s.storeWord i w) hs (by rw [State.storeWord_build]; omega))

theorem turnsRun_loadBytes {bytes : List Byte} {s : State} {a : Nat} (hs : s.state ≠ .running)
    (hlen : a + bytes.length ≤ s.build.dmemBytes) :
    TurnsRun (loadBytes a bytes) s { s with dmem := Memory.storeFrom (w := 8) s.dmem a bytes } := by
  induction bytes generalizing s a with
  | nil => exact .nil s
  | cons b bytes ih =>
    rw [List.length_cons] at hlen
    have ha : a < s.build.dmemBytes := by omega
    have hfirst : ∀ rest, hostAct (.writeDmem a b) (turnTaken s rest) = .next (turnTaken (s.storeByte a b) rest) :=
      fun rest => congrArg Host.Outcome.next (State.hostWriteDmem_inside (s := turnTaken s rest) hs ha b)
    exact .cons hfirst (ih (s := s.storeByte a b) hs (by rw [State.storeByte_build]; omega))

/-! ## Step 4: the registers -/

/-- Writes registers as HOST_WRITE_V does, one after the other. -/
def State.writeRegs (s : State) (regs : List (Nat × V256)) : State := regs.foldl (fun s p => s.hostWriteV p.1 p.2) s

theorem State.writeRegs_cons (s : State) (p : Nat × V256) (regs : List (Nat × V256)) :
    s.writeRegs (p :: regs) = (s.hostWriteV p.1 p.2).writeRegs regs := rfl

section
variable {s : State} (hs : s.state ≠ .running)
include hs

/-- The number names a register, which is written, or no register. -/
theorem State.hostWriteV_cases (i : Nat) (x : V256) :
    (∃ q : Reg, q.val = i ∧ s.hostWriteV i x = s.writeV q x) ∨ (15 < i ∧ s.hostWriteV i x = s) := by
  rcases Nat.lt_or_ge i 16 with hi | hi
  · exact .inl ⟨⟨i, hi⟩, rfl, State.hostWriteV_reg hs ⟨i, hi⟩ x⟩
  · exact .inr ⟨hi, State.hostWriteV_outside hs hi x⟩

theorem State.hostWriteV_turnTaken (rest : List Turn) (i : Nat) (x : V256) :
    (turnTaken s rest).hostWriteV i x = turnTaken (s.hostWriteV i x) rest := by
  rcases State.hostWriteV_cases hs i x with ⟨q, rfl, e⟩ | ⟨hi, e⟩ <;> rw [e]
  · exact State.hostWriteV_reg (s := turnTaken s rest) hs q x
  · exact State.hostWriteV_outside (s := turnTaken s rest) hs hi x

theorem State.reg_hostWriteV (i : Nat) (x : V256) (r : Reg) :
    (s.hostWriteV i x).reg r = if i == r.val then x else s.reg r := by
  rcases State.hostWriteV_cases hs i x with ⟨q, rfl, e⟩ | ⟨hi, e⟩ <;> rw [e]
  · rcases eq_or_ne r q with rfl | hne
    · rw [State.reg_writeV_same, if_pos (beq_self_eq_true _)]
    · rw [State.reg_writeV_ne s q r x hne, if_neg fun h => hne (Fin.ext (eq_of_beq h).symm)]
  · rw [if_neg fun h => absurd (eq_of_beq h) (by omega)]

theorem State.isValid_hostWriteV (i : Nat) (x : V256) (r : Reg) :
    (s.hostWriteV i x).isValid r = (i == r.val || s.isValid r) := by
  rcases State.hostWriteV_cases hs i x with ⟨q, rfl, e⟩ | ⟨hi, e⟩ <;> rw [e]
  · rcases eq_or_ne r q with rfl | hne
    · rw [State.isValid_writeV_same, beq_self_eq_true, Bool.true_or]
    · rw [State.isValid_writeV_ne s q r x hne, beq_false_of_ne fun h => hne (Fin.ext h.symm), Bool.false_or]
  · rw [beq_false_of_ne (by omega), Bool.false_or]

theorem turnsRun_writeRegs (regs : List (Nat × V256)) :
    TurnsRun (regs.map fun p => .host (.writeV p.1 p.2)) s (s.writeRegs regs) := by
  induction regs generalizing s with
  | nil => exact .nil s
  | cons p regs ih =>
    have hfirst : ∀ rest, hostAct (.writeV p.1 p.2) (turnTaken s rest) =
        .next (turnTaken (s.hostWriteV p.1 p.2) rest) :=
      fun rest => congrArg Host.Outcome.next (State.hostWriteV_turnTaken hs rest p.1 p.2)
    exact .cons hfirst (ih (by rwa [State.hostWriteV_state]))

/-- Registers and VALID bits are all that is written. -/
theorem State.writeRegs_eq (regs : List (Nat × V256)) :
    ∃ v valid, s.writeRegs regs = { s with v := v, valid := valid } := by
  induction regs generalizing s with
  | nil => exact ⟨s.v, s.valid, rfl⟩
  | cons p regs ih =>
    obtain ⟨v, valid, h⟩ := ih (s := s.hostWriteV p.1 p.2) (by rwa [State.hostWriteV_state])
    refine ⟨v, valid, h.trans ?_⟩
    rcases State.hostWriteV_cases hs p.1 p.2 with ⟨q, -, e⟩ | ⟨-, e⟩ <;> rw [e]
    rfl

/-- Of several writes of a register the last one stands. -/
theorem State.reg_writeRegs (regs : List (Nat × V256)) (r : Reg) :
    (s.writeRegs regs).reg r = ((regs.reverse.find? fun p => p.1 == r.val).map Prod.snd).getD (s.reg r) := by
  induction regs generalizing s with
  | nil => rfl
  | cons p regs ih =>
    rw [State.writeRegs_cons, ih (by rwa [State.hostWriteV_state]), State.reg_hostWriteV hs, List.reverse_cons,
      List.find?_append, List.find?_singleton, Option.map_or, Option.getD_or]
    split_ifs <;> rfl

theorem State.isValid_writeRegs (regs : List (Nat × V256)) (r : Reg) :
    (s.writeRegs regs).isValid r = (regs.any (fun p => p.1 == r.val) || s.isValid r) := by
  induction regs generalizing s with
  | nil => rfl
  | cons p regs ih =>
    rw [State.writeRegs_cons, ih (by rwa [State.hostWriteV_state]), State.isValid_hostWriteV hs, List.any_cons,
      Bool.or_assoc, Bool.or_left_comm]

end

/-! ## Steps 5 and 6: ENTRY_PC and START -/

theorem turnsRun_writeEntryPc {s : State} (hs : s.state ≠ .running) (entry : Pc) :
    TurnsRun [.host (.writeCr ControlReg.entryPc.offset (entry.setWidth 32))] s { s with entryPc := entry } := by
  refine .host fun rest => ?_
  rw [hostAct_writeCr rfl]
  refine congrArg Host.Outcome.next ((if_neg hs).trans ?_)
  have hentry : (entry.setWidth 32).setWidth 16 = entry := by simp
  rw [hentry]
  rfl

theorem turnsRun_start {s : State} (hs : s.state ≠ .running) :
    TurnsRun [.host (.writeCr ControlReg.ctrl.offset 1#32)] s
      { s with pc := s.entryPc, cause := .none, state := .running } := by
  refine .host fun rest => ?_
  rw [hostAct_writeCr rfl]
  exact congrArg Host.Outcome.next (if_neg hs)

/-! ## The whole sequence (R243) -/

/-- The memories loaded: the words from IMEM index 0 on and the bytes from DMEM address `base` on. -/
def State.loaded (s : State) (words : List Word) (base : Nat) (bytes : List Byte) : State :=
  { s with imem := Memory.storeFrom s.imem 0 words, dmem := Memory.storeFrom (w := 8) s.dmem base bytes }

theorem State.imemWord_loaded (s : State) {words : List Word} (base : Nat) (bytes : List Byte) {i : Nat}
    (hi : i < words.length) : (s.loaded words base bytes).imemWord i = words[i]?.getD 0#32 := by
  have hfind := Memory.find_storeFrom s.imem words 0 hi
  rw [Nat.zero_add, List.getElem?_eq_getElem hi] at hfind
  rw [State.imemWord, State.loaded, hfind, List.getElem?_eq_getElem hi]
  rfl

theorem State.dmemByte_loaded (s : State) (words : List Word) (base : Nat) {bytes : List Byte} {j : Nat}
    (hj : j < bytes.length) : (s.loaded words base bytes).dmemByte (base + j) = bytes[j]?.getD 0#8 := by
  have hfind := Memory.find_storeFrom (w := 8) s.dmem bytes base hj
  rw [List.getElem?_eq_getElem hj] at hfind
  rw [State.dmemByte, State.loaded, hfind, List.getElem?_eq_getElem hj]
  rfl

/-- RUNNING at `entry`, as a START leaves a core whose ENTRY_PC is `entry`. -/
def State.startedAt (s : State) (entry : Pc) : State :=
  { s with entryPc := entry, pc := entry, cause := .none, state := .running }

/-- The stages of the sequence, one after the other. -/
theorem turnsRun_bootTurns {s : State} (hs : s.state ≠ .running) {words : List Word} {base : Nat} {bytes : List Byte}
    (regs : List (Nat × V256)) (entry : Pc) (hwords : words.length ≤ s.build.imemWords)
    (hbytes : base + bytes.length ≤ s.build.dmemBytes) :
    TurnsRun (bootTurns words base bytes regs entry) s
      (((s.loaded words base bytes).writeRegs regs).startedAt entry) := by
  have hloaded : (s.loaded words base bytes).state ≠ .running := hs
  have hwritten : ((s.loaded words base bytes).writeRegs regs).state ≠ .running := by
    obtain ⟨v, valid, e⟩ := State.writeRegs_eq hloaded regs
    rwa [e]
  have himem := turnsRun_loadWords (i := 0) (words := words) hs (by rwa [Nat.zero_add])
  have hdmem := turnsRun_loadBytes (s := { s with imem := Memory.storeFrom s.imem 0 words }) hs hbytes
  have hregs := turnsRun_writeRegs hloaded regs
  have hentry := turnsRun_writeEntryPc hwritten entry
  have hstart := turnsRun_start (s := { (s.loaded words base bytes).writeRegs regs with entryPc := entry }) hwritten
  exact ((himem.append hdmem).append hregs).append (hentry.append hstart)

/-- Settles O54: each stage of the sequence leaves what the stages before it wrote. -/
theorem bootSequenceStartsTheProgram : Obligations.BootSequenceStartsTheProgram := by
  intro b words base bytes regs entry hwords hbytes
  have hidle : RunState.idle ≠ .running := by decide
  have hloaded : ((State.resetOf b 0).loaded words base bytes).state ≠ .running := hidle
  have hrun := turnsRun_bootTurns (s := State.resetOf b 0) hidle regs entry hwords hbytes []
  rw [List.append_nil] at hrun
  obtain ⟨v, valid, hwritten⟩ := State.writeRegs_eq hloaded regs
  refine ⟨_, hrun, ⟨rfl, rfl⟩, rfl, rfl, rfl, congrArg State.build hwritten, fun i hi => ?_, fun j hj => ?_,
    fun r => ?_, fun r p hp => ?_⟩
  · exact (State.imemWord_congr (congrArg State.imem hwritten) (congrArg State.epoch hwritten) i).trans
      (State.imemWord_loaded _ base bytes hi)
  · exact (State.dmemByte_congr (congrArg State.dmem hwritten) (congrArg State.epoch hwritten) _).trans
      (State.dmemByte_loaded _ words base hj)
  · have hvalid := State.isValid_writeRegs hloaded regs r
    rwa [show ((State.resetOf b 0).loaded words base bytes).isValid r = false from State.isValid_resetOf b 0 r,
      Bool.or_false] at hvalid
  · have hreg := State.reg_writeRegs hloaded regs r
    rwa [hp] at hreg

end Sys2Proof.Machine
end
